-- ==== Sys2Proof/Word.lean ====
section
/-! DEFINITION. Sys2Proof/Word.lean: the byte, the bit string and the plainest arithmetic of the notation (spec/00_scope.md section 5).

Indices, counts and sizes are naturals (R13). Records, DATA and ADDR are as wide as the parameters W, DW and AW make
them, so they are naturals with a bound; the bounds stand in WellFormed.lean and Safety.lean (assumption 11). -/

namespace Sys2Proof

/-- One byte: the unit of `BQM` and of `HM` (R60). -/
abbrev Byte := BitVec 8

/-- A bit string `s = s_0 s_1 …`, `s_0` first (oldest, in FIFO order) (R14). -/
abbrev BitString := List Bool

/-- `ceil(n / 8)`: the number of bytes that `n` bits touch (R13, R65). -/
def ceilDiv8 (n : Nat) : Nat := (n + 7) / 8

end Sys2Proof
end

