-- ==== Sys2Proof/Config.lean ====
section
/-! DEFINITION. Sys2Proof/Config.lean: what an implementation fixes (spec/00_scope.md R10, R11; spec/10_state.md R37).

The six parameters are OPEN (D3): a model takes them as arguments. They are held as the field `cfg` of the state, no step
changes them, and every statement holds for every legal value of them (assumption 1). The model has no opaque free value:
the reset draw and the effects of an abandoned command, which the spec leaves open, are data of the reset input
(assumptions 6 and 7). -/

namespace Sys2Proof

/-- The implementation parameters (R10), under the spec's own names. -/
structure Config where
  /-- `W`: width in bits of one Element Queue record. -/
  w : Nat
  /-- `C_E`: usable capacity of the Element Queue, in records. -/
  cE : Nat
  /-- `C_B`: usable capacity of the Bit Queue, in bits. -/
  cB : Nat
  /-- `ZOC`: the zero-on-consume option of the Bit Queue. -/
  zoc : Bool
  /-- `AW`: width in bits of a host-memory byte address. -/
  aw : Nat
  /-- `HM_SIZE`: number of addressable bytes of host memory. -/
  hmSize : Nat
  deriving DecidableEq, Repr

/-- The configurations that can be built (R10, R11, U16); the model refuses every other one. -/
def Config.legal (c : Config) : Bool :=
  decide (1 ≤ c.w) && decide (1 ≤ c.cE) && decide (c.cE + 1 ≤ 2 ^ 32) && decide (2 ≤ c.cB) &&
    decide (c.cB + 1 ≤ 2 ^ 32) && decide (1 ≤ c.aw) && decide (c.aw ≤ 32) && decide (c.hmSize ≤ 2 ^ c.aw)

/-- `P_E = C_E + 1`: backing slots of the Element Queue (R10). -/
def Config.pE (c : Config) : Nat := c.cE + 1

/-- `P_B = C_B + 1`: backing bit positions of the Bit Queue (R10). -/
def Config.pB (c : Config) : Nat := c.cB + 1

/-- `NB_B = ceil(P_B / 8)`: backing bytes of the Bit Queue (R10, R42). -/
def Config.nbB (c : Config) : Nat := ceilDiv8 c.pB

/-- `DW = max(W, 8)`: width of the request's DATA field (R10, R90). -/
def Config.dw (c : Config) : Nat := max c.w 8

/-- `IW_E`: width of `HEAD_E` and `TAIL_E` (R32, R33). -/
def Config.iwE (c : Config) : Nat := max 1 (Nat.clog 2 c.pE)

/-- `IW_B`: width of `HEAD_B` and `TAIL_B` (R34, R35). -/
def Config.iwB (c : Config) : Nat := max 1 (Nat.clog 2 c.pB)

/-- The configuration of `State.reset`: the one spec/95_test_vectors.md section 0 uses unless a vector says otherwise, with
the `C_B = 8` of its status queries. DESIGN CHOICE (assumption 1, unsafe): the spec gives no default. -/
def Config.standard : Config :=
  { w := 8, cE := 5, cB := 8, zoc := false, aw := 32, hmSize := 256 }

end Sys2Proof
end

