-- ==== Sys2Proof/Syntax.lean ====
section
/-! DEFINITION. Sys2Proof/Syntax.lean: the 29 commands of spec/opcode_table.json (spec/30_encoding.md R95), their operand
classes (R102) and the pseudo-commands (R101). -/

namespace Sys2Proof

/-- The commands, one constructor per row of the opcode map (R95). A constructor carries exactly the request fields its
operand class reads (R102): `data` the whole DATA field (`DW` bits), `cnt` CNT, `idx` IDX, `addr` ADDR (`AW` bits). -/
inductive Instr where
  | eqPush (data : Nat)
  | eqPop
  | eqPopa
  | eqPeek
  | eqClear
  | eqRemove (data : Nat)
  | eqGet (idx : BitVec 32)
  | eqSet (idx : BitVec 32) (data : Nat)
  | eqFront
  | eqBack
  | eqFind (data : Nat)
  | bqPush8 (data : Nat) (cnt : BitVec 32)
  | bqPushm (cnt : BitVec 32) (addr : Nat)
  | bqFpush8 (data : Nat) (cnt : BitVec 32)
  | bqFpushm (cnt : BitVec 32) (addr : Nat)
  | bqDrop (cnt : BitVec 32)
  | bqPop (cnt : BitVec 32) (addr : Nat)
  | bqGet (idx : BitVec 32) (cnt : BitVec 32) (addr : Nat)
  | bqClear
  | eqCap
  | eqSize
  | eqAvail
  | eqEmpty
  | eqFull
  | bqCap
  | bqSize
  | bqAvail
  | bqEmpty
  | bqFull
  deriving DecidableEq, Repr

/-- The operand classes of R102, named as the rule names them. -/
inductive OperandClass where
  | n | d | i | id | dc | c | ca | ica
  deriving DecidableEq, Repr

/-- `bq.pushbyte <d>` (R101). -/
def Instr.bqPushbyte (d : Nat) : Instr := .bqPush8 d 8

/-- `bq.fpushbyte <d>` (R101). -/
def Instr.bqFpushbyte (d : Nat) : Instr := .bqFpush8 d 8

/-- `bq.peek <cnt>, <addr>` (R101). -/
def Instr.bqPeek (cnt : BitVec 32) (addr : Nat) : Instr := .bqGet 0 cnt addr

/-- `bq.discard` (R101). -/
def Instr.bqDiscard : Instr := .bqDrop 0xFFFFFFFF

end Sys2Proof
end

