-- ==== Sys2Proof/WellFormed.lean ====
section
/-! DEFINITION. Sys2Proof/WellFormed.lean: which terms of `Instr` a request can spell: DATA has `DW` bits and ADDR has `AW`
bits (spec/30_encoding.md R90). CNT and IDX are 32 bits by their type. The encoding limits no operand otherwise (R93). -/

namespace Sys2Proof

/-- The DATA field holds `DW` bits (R90). -/
def dataFits (c : Config) (data : Nat) : Bool := decide (data < 2 ^ c.dw)

/-- The ADDR field holds `AW` bits (R90). -/
def addrFits (c : Config) (addr : Nat) : Bool := decide (addr < 2 ^ c.aw)

/-- Every field of the command fits the request of a block built with `c` (R90, R102). -/
def Instr.wellFormed (c : Config) : Instr → Bool
  | .eqPush data => dataFits c data
  | .eqPop => true
  | .eqPopa => true
  | .eqPeek => true
  | .eqClear => true
  | .eqRemove data => dataFits c data
  | .eqGet _ => true
  | .eqSet _ data => dataFits c data
  | .eqFront => true
  | .eqBack => true
  | .eqFind data => dataFits c data
  | .bqPush8 data _ => dataFits c data
  | .bqPushm _ addr => addrFits c addr
  | .bqFpush8 data _ => dataFits c data
  | .bqFpushm _ addr => addrFits c addr
  | .bqDrop _ => true
  | .bqPop _ addr => addrFits c addr
  | .bqGet _ _ addr => addrFits c addr
  | .bqClear => true
  | .eqCap => true
  | .eqSize => true
  | .eqAvail => true
  | .eqEmpty => true
  | .eqFull => true
  | .bqCap => true
  | .bqSize => true
  | .bqAvail => true
  | .bqEmpty => true
  | .bqFull => true

end Sys2Proof
end

