-- ==== Sys2Proof/Decode.lean ====
section
/-! DEFINITION. Sys2Proof/Decode.lean: the request record, its layout as the flat vector REQ, the decoder and the encoder
(spec/30_encoding.md R90 to R96, R99, R102).

A request vector is held as the natural number its bits spell, bit 0 least significant, as the listings of
spec/95_test_vectors.md write it. The port is `70 + DW + AW` bits wide; bits of the number above that are on no wire and
are not read (assumption 20). -/

namespace Sys2Proof

/-- `v[lo + width - 1 : lo]` as an unsigned number (R14). -/
def bitField (v lo width : Nat) : Nat := v / 2 ^ lo % 2 ^ width

/-- The five fields of a request (R90). -/
structure Request where
  op : BitVec 6
  data : Nat
  cnt : BitVec 32
  idx : BitVec 32
  addr : Nat
  deriving DecidableEq, Repr

/-- The width of REQ (R90). -/
def reqWidth (c : Config) : Nat := 70 + c.dw + c.aw

/-- The fields of the flat vector `REQ = {ADDR, IDX, CNT, DATA, OP}`, at the bit positions of R90. -/
def Request.ofReq (c : Config) (v : Nat) : Request where
  op := BitVec.ofNat 6 (bitField v 0 6)
  data := bitField v 6 c.dw
  cnt := BitVec.ofNat 32 (bitField v (c.dw + 6) 32)
  idx := BitVec.ofNat 32 (bitField v (c.dw + 38) 32)
  addr := bitField v (c.dw + 70) c.aw

/-- The flat vector of a request record (R90): each field shifted to its lowest bit. -/
def Request.toReq (c : Config) (r : Request) : Nat :=
  r.op.toNat + r.data * 2 ^ 6 + r.cnt.toNat * 2 ^ (c.dw + 6) + r.idx.toNat * 2 ^ (c.dw + 38) +
    r.addr * 2 ^ (c.dw + 70)

/-- Why a request spells no command. -/
inductive DecodeError where
  /-- `OP` is one of the 35 reserved values of R95; the block raises `Fault(ILLEGAL_OP)` (R96). -/
  | reservedOpcode (op : BitVec 6)
  deriving DecidableEq, Repr

/-- The opcode map (R95): `OP` alone selects the command (R99), and the command takes the fields of its operand class
(R102). Fields outside the class are dropped here (R94). -/
def decodeRequest (r : Request) : Except DecodeError Instr :=
  match r.op with
  | 0x01#6 => .ok (.eqPush r.data)
  | 0x02#6 => .ok .eqPop
  | 0x03#6 => .ok .eqPopa
  | 0x04#6 => .ok .eqPeek
  | 0x05#6 => .ok .eqClear
  | 0x06#6 => .ok (.eqRemove r.data)
  | 0x07#6 => .ok (.eqGet r.idx)
  | 0x08#6 => .ok (.eqSet r.idx r.data)
  | 0x09#6 => .ok .eqFront
  | 0x0A#6 => .ok .eqBack
  | 0x0B#6 => .ok (.eqFind r.data)
  | 0x11#6 => .ok (.bqPush8 r.data r.cnt)
  | 0x12#6 => .ok (.bqPushm r.cnt r.addr)
  | 0x13#6 => .ok (.bqFpush8 r.data r.cnt)
  | 0x14#6 => .ok (.bqFpushm r.cnt r.addr)
  | 0x15#6 => .ok (.bqDrop r.cnt)
  | 0x16#6 => .ok (.bqPop r.cnt r.addr)
  | 0x17#6 => .ok (.bqGet r.idx r.cnt r.addr)
  | 0x18#6 => .ok .bqClear
  | 0x20#6 => .ok .eqCap
  | 0x21#6 => .ok .eqSize
  | 0x22#6 => .ok .eqAvail
  | 0x23#6 => .ok .eqEmpty
  | 0x24#6 => .ok .eqFull
  | 0x30#6 => .ok .bqCap
  | 0x31#6 => .ok .bqSize
  | 0x32#6 => .ok .bqAvail
  | 0x33#6 => .ok .bqEmpty
  | 0x34#6 => .ok .bqFull
  | op => .error (.reservedOpcode op)

/-- The command a request vector spells, for a block built with `c`. -/
def decode (c : Config) (v : Nat) : Except DecodeError Instr :=
  decodeRequest (Request.ofReq c v)

/-- `OP` of each command (R95). -/
def Instr.opcode : Instr → BitVec 6
  | .eqPush _ => 0x01
  | .eqPop => 0x02
  | .eqPopa => 0x03
  | .eqPeek => 0x04
  | .eqClear => 0x05
  | .eqRemove _ => 0x06
  | .eqGet _ => 0x07
  | .eqSet _ _ => 0x08
  | .eqFront => 0x09
  | .eqBack => 0x0A
  | .eqFind _ => 0x0B
  | .bqPush8 _ _ => 0x11
  | .bqPushm _ _ => 0x12
  | .bqFpush8 _ _ => 0x13
  | .bqFpushm _ _ => 0x14
  | .bqDrop _ => 0x15
  | .bqPop _ _ => 0x16
  | .bqGet _ _ _ => 0x17
  | .bqClear => 0x18
  | .eqCap => 0x20
  | .eqSize => 0x21
  | .eqAvail => 0x22
  | .eqEmpty => 0x23
  | .eqFull => 0x24
  | .bqCap => 0x30
  | .bqSize => 0x31
  | .bqAvail => 0x32
  | .bqEmpty => 0x33
  | .bqFull => 0x34

/-- The operand class of each command (R102). -/
def Instr.operandClass : Instr → OperandClass
  | .eqPush _ => .d
  | .eqPop => .n
  | .eqPopa => .n
  | .eqPeek => .n
  | .eqClear => .n
  | .eqRemove _ => .d
  | .eqGet _ => .i
  | .eqSet _ _ => .id
  | .eqFront => .n
  | .eqBack => .n
  | .eqFind _ => .d
  | .bqPush8 _ _ => .dc
  | .bqPushm _ _ => .ca
  | .bqFpush8 _ _ => .dc
  | .bqFpushm _ _ => .ca
  | .bqDrop _ => .c
  | .bqPop _ _ => .ca
  | .bqGet _ _ _ => .ica
  | .bqClear => .n
  | .eqCap => .n
  | .eqSize => .n
  | .eqAvail => .n
  | .eqEmpty => .n
  | .eqFull => .n
  | .bqCap => .n
  | .bqSize => .n
  | .bqAvail => .n
  | .bqEmpty => .n
  | .bqFull => .n

/-- The request fields an operand class reads (R102). -/
def OperandClass.readsData : OperandClass → Bool
  | .d => true | .id => true | .dc => true
  | .n => false | .i => false | .c => false | .ca => false | .ica => false

/-- See `OperandClass.readsData`. -/
def OperandClass.readsCnt : OperandClass → Bool
  | .dc => true | .c => true | .ca => true | .ica => true
  | .n => false | .d => false | .i => false | .id => false

/-- See `OperandClass.readsData`. -/
def OperandClass.readsIdx : OperandClass → Bool
  | .i => true | .id => true | .ica => true
  | .n => false | .d => false | .dc => false | .c => false | .ca => false

/-- See `OperandClass.readsData`. -/
def OperandClass.readsAddr : OperandClass → Bool
  | .ca => true | .ica => true
  | .n => false | .d => false | .i => false | .id => false | .dc => false | .c => false

/-- The request record of a command, with every field outside its operand class 0, as the listings of
spec/95_test_vectors.md write it (R100). -/
def encodeRequest (i : Instr) : Request :=
  match i with
  | .eqPush data => ⟨i.opcode, data, 0, 0, 0⟩
  | .eqPop => ⟨i.opcode, 0, 0, 0, 0⟩
  | .eqPopa => ⟨i.opcode, 0, 0, 0, 0⟩
  | .eqPeek => ⟨i.opcode, 0, 0, 0, 0⟩
  | .eqClear => ⟨i.opcode, 0, 0, 0, 0⟩
  | .eqRemove data => ⟨i.opcode, data, 0, 0, 0⟩
  | .eqGet idx => ⟨i.opcode, 0, 0, idx, 0⟩
  | .eqSet idx data => ⟨i.opcode, data, 0, idx, 0⟩
  | .eqFront => ⟨i.opcode, 0, 0, 0, 0⟩
  | .eqBack => ⟨i.opcode, 0, 0, 0, 0⟩
  | .eqFind data => ⟨i.opcode, data, 0, 0, 0⟩
  | .bqPush8 data cnt => ⟨i.opcode, data, cnt, 0, 0⟩
  | .bqPushm cnt addr => ⟨i.opcode, 0, cnt, 0, addr⟩
  | .bqFpush8 data cnt => ⟨i.opcode, data, cnt, 0, 0⟩
  | .bqFpushm cnt addr => ⟨i.opcode, 0, cnt, 0, addr⟩
  | .bqDrop cnt => ⟨i.opcode, 0, cnt, 0, 0⟩
  | .bqPop cnt addr => ⟨i.opcode, 0, cnt, 0, addr⟩
  | .bqGet idx cnt addr => ⟨i.opcode, 0, cnt, idx, addr⟩
  | .bqClear => ⟨i.opcode, 0, 0, 0, 0⟩
  | .eqCap => ⟨i.opcode, 0, 0, 0, 0⟩
  | .eqSize => ⟨i.opcode, 0, 0, 0, 0⟩
  | .eqAvail => ⟨i.opcode, 0, 0, 0, 0⟩
  | .eqEmpty => ⟨i.opcode, 0, 0, 0, 0⟩
  | .eqFull => ⟨i.opcode, 0, 0, 0, 0⟩
  | .bqCap => ⟨i.opcode, 0, 0, 0, 0⟩
  | .bqSize => ⟨i.opcode, 0, 0, 0, 0⟩
  | .bqAvail => ⟨i.opcode, 0, 0, 0, 0⟩
  | .bqEmpty => ⟨i.opcode, 0, 0, 0, 0⟩
  | .bqFull => ⟨i.opcode, 0, 0, 0, 0⟩

/-- The request vector of a command. -/
def encode (c : Config) (i : Instr) : Nat := (encodeRequest i).toReq c

/-- What the decoder reads from a table word of `nbits` bits, every REQ bit above them 0, on the block of `State.reset`
(assumption 21). REQ has no memory layout: its bits are numbered as the table numbers them. -/
def decodeTableWord (nbits w : Nat) : Option Instr :=
  (decode Config.standard (w % 2 ^ nbits)).toOption

end Sys2Proof
end

