-- ==== Sys2Proof/Machine/State.lean ====
section
/-! DEFINITION. Sys2Proof/Machine/State.lean: the state of the block, its ports and its host (spec/10_state.md; spec/30_encoding.md
R97, R103; spec/70_reset_and_hazards.md R334), the reasons a step can stop, and the state after reset. -/

namespace Sys2Proof.Machine

/-- A memory space (R60): (address, unit) pairs in one canonical form (`Memory.wf`). A unit is a record of `W` bits in `EQM` and
a byte in `BQM` and `HM`; for a byte space this is a list of `Host.Cell`. -/
abbrev Memory (α : Type) := List (Nat × α)

/-- A response record (R97). -/
structure Response where
  ok : Bool
  fault : Bool
  cause : BitVec 4
  data : Nat
  count : Nat
  deriving DecidableEq, Repr

/-- What the spec leaves open at a reset (R48, R320, U2, U3, U11), as data of the reset: every content of the two stores is
a draw of this form, and the empty draw keeps the values held before (assumptions 6 and 7). -/
structure ResetDraw where
  /-- `EQM0`: the slots whose record after reset is not the one held before, with that record. -/
  eqm : List (Nat × Nat)
  /-- `BQM0`: the bytes whose value after reset is not the one held before, with that value. -/
  bqm : List Host.Cell
  /-- The request of the command in progress that the reset abandons, if there is one. -/
  abandoned : Option Nat
  /-- The bytes of the abandoned command's HM region that it left changed. -/
  hm : List Host.Cell
  deriving DecidableEq, Repr

/-- One action of the host (R334). A host write to `EQM` or `BQM` and a host access to an in-flight HM region are no
actions: the model gives the host no such move (U13, U14). -/
inductive HostInput where
  /-- A request record on the request port, as the vector REQ (R90). -/
  | request (req : Nat)
  /-- `rst` is asserted (R320). -/
  | assertReset (draw : ResetDraw)
  /-- `rst` is released (R321). -/
  | releaseReset
  /-- The host writes a byte of HM outside every command (R73, R75). -/
  | writeHM (addr : Nat) (value : Byte)
  deriving DecidableEq, Repr

/-- The contract violations a command can raise (R291). They are next states, not stops: see `State.raise`. -/
inductive Cause where
  | illegalOp
  | eqEmpty
  | eqIndex
  | bqCnt8
  | hmRange
  deriving DecidableEq, Repr

/-- Where the model stops although the hardware is never there. -/
inductive Fault where
  /-- Raised by every command when a head or tail register holds a value outside its legal values, so that it names no slot
  or bit position. Safe: R39 and R49 say that such a state is unreachable (assumption 10). -/
  | indexRange
  /-- Raised by `HostInput.writeHM` at an address at or above `HM_SIZE`, where HM has no byte. Safe: the host has nothing to write there
  (R43, R60, assumption 13). -/
  | hmAddress
  deriving DecidableEq, Repr

/-- Where the model gives no meaning. -/
inductive Refusal where
  /-- Raised by an arm of `exec` whose command has no meaning yet. Safe; no arm raises it. -/
  | notModelled (mnemonic : String)
  /-- Raised by every step and every command of a block whose configuration cannot be built. Safe: R11 and U16 say that a model
  refuses it (assumption 9). -/
  | illegalConfiguration
  deriving DecidableEq, Repr

/-- The state: the registers S0 to S5 (R49), the three memory spaces (R41, R42, R43), the configuration constants (R37),
the reset line, and the two ports' traffic. -/
structure State where
  /-- The configuration constants (R37). -/
  cfg : Config
  /-- S0, `HEAD_E` (R32). -/
  headE : Nat
  /-- S1, `TAIL_E` (R33). -/
  tailE : Nat
  /-- S2, `HEAD_B` (R34). -/
  headB : Nat
  /-- S3, `TAIL_B` (R35). -/
  tailB : Nat
  /-- S4, `FAULT` (R36). -/
  fault : Bool
  /-- S5, `CAUSE` (R36). -/
  cause : BitVec 4
  /-- The Element Queue's backing store (R41). -/
  eqm : Memory Nat
  /-- The Bit Queue's backing store (R42). -/
  bqm : Memory Byte
  /-- Host memory (R43). -/
  hm : Memory Byte
  /-- The level of the `rst` input (R103, R321; assumption 8). -/
  rst : Bool
  /-- The host's actions still to come, oldest first (R31, R74, R324; assumption 2). -/
  inputs : List HostInput
  /-- The responses delivered on the response port, oldest first (R97, R333; assumption 3). -/
  responses : List Response
  deriving DecidableEq, Repr

/-- The block right after reset is released, before the host does anything (R48, R321): the registers as R48 gives them; the
configuration, the contents of the three memories and the two empty ports are DESIGN CHOICE (assumptions 1 to 5 and 8). -/
def State.reset : State where
  cfg := Config.standard
  headE := 0
  tailE := 0
  headB := 0
  tailB := 0
  fault := false
  cause := 0
  eqm := []
  bqm := []
  hm := []
  rst := false
  inputs := []
  responses := []

end Sys2Proof.Machine
end

