-- ==== Sys2Proof/Machine/Memory.lean ====
section
/-! DEFINITION. Sys2Proof/Machine/Memory.lean: one unit read and written (spec/00_scope.md R16), over the canonical form of a
memory space: addresses strictly rising, no entry equal to what an unlisted address reads as, no address outside the space. -/

namespace Sys2Proof.Machine

/-- What an unlisted record of `EQM` reads as. DESIGN CHOICE (assumption 4, unsafe): R48 leaves the reset contents open. -/
abbrev unlistedRecord : Nat := 0

/-- What an unlisted byte of `BQM` or `HM` reads as. DESIGN CHOICE (assumptions 4 and 5, unsafe): R48 leaves the contents
of `BQM` open and R43 gives HM to the host. -/
abbrev unlistedByte : Byte := 0

/-- The unit at address `a`; `z` is what an unlisted address reads as. -/
def Memory.read {α : Type} (z : α) : Memory α → Nat → α
  | [], _ => z
  | (k, x) :: m, a => if k = a then x else Memory.read z m a

/-- The space with unit `a` set to `v`, in canonical form. -/
def Memory.write {α : Type} [DecidableEq α] (z : α) : Memory α → Nat → α → Memory α
  | [], a, v => if v = z then [] else [(a, v)]
  | (k, x) :: m, a, v =>
    if a < k then (if v = z then (k, x) :: m else (a, v) :: (k, x) :: m)
    else if a = k then (if v = z then m else (a, v) :: m)
    else (k, x) :: Memory.write z m a v

/-- The canonical form of a space of `size` units. -/
abbrev Memory.wf {α : Type} (z : α) (size : Nat) (m : Memory α) : Prop :=
  m.Pairwise (fun c d => c.1 < d.1) ∧ ∀ c ∈ m, c.2 ≠ z ∧ c.1 < size

/-- The space with each listed unit set, in the order listed. -/
def Memory.overlay {α : Type} [DecidableEq α] (z : α) (m : Memory α) : List (Nat × α) → Memory α
  | [] => m
  | (a, v) :: cells => Memory.overlay z (Memory.write z m a v) cells

/-- `MemRead(EQM, a, 1)` (R16). -/
def recordAt (m : Memory Nat) (a : Nat) : Nat := Memory.read unlistedRecord m a

/-- `MemWrite(EQM, a, 1, v)` (R16). -/
def setRecord (m : Memory Nat) (a v : Nat) : Memory Nat := Memory.write unlistedRecord m a v

/-- `MemRead(S, a, 1)` of a byte space `S` (R16). -/
def byteAt (m : Memory Byte) (a : Nat) : Byte := Memory.read unlistedByte m a

/-- `MemWrite(S, a, 1, v)` of a byte space `S` (R16). -/
def setByte (m : Memory Byte) (a : Nat) (v : Byte) : Memory Byte := Memory.write unlistedByte m a v

end Sys2Proof.Machine
end

