-- ==== Sys2Proof/Machine/Ring.lean ====
section
/-! DEFINITION. Sys2Proof/Machine/Ring.lean: the ring helpers (spec/00_scope.md R18), with `P` the unit's `P_E` or `P_B`. -/

namespace Sys2Proof.Machine

/-- `adv(p, k) = (p + k) mod P` (R18). -/
def adv (P p k : Nat) : Nat := (p + k) % P

/-- `sizeOf(h, t) = (t + P - h) mod P` (R18). -/
def ringSize (P h t : Nat) : Nat := (t + P - h) % P

end Sys2Proof.Machine
end

