-- ==== Sys2Proof/Machine/Bits.lean ====
section
/-! DEFINITION. Sys2Proof/Machine/Bits.lean: the byte-range helpers (spec/00_scope.md R19), the chunked bit-transfer primitive
(spec/41_bit_queue.md R181 to R184) and the bit transfers from and to host memory (R186, R187). -/

namespace Sys2Proof.Machine

/-- `rangeMask(L, H)` (R19). -/
def rangeMask (L H : Nat) : Byte := BitVec.ofNat 8 (2 ^ (H - L + 1) - 1) <<< L

/-- `GetBitRange(b, L, H)` (R19). -/
def getBitRange (b : Byte) (L H : Nat) : Byte := (b >>> L) &&& BitVec.ofNat 8 (2 ^ (H - L + 1) - 1)

/-- `SetBitRange(b, L, H, v)` (R19). -/
def setBitRange (b : Byte) (L H : Nat) (v : Byte) : Byte :=
  (b &&& ~~~(rangeMask L H)) ||| ((v <<< L) &&& rangeMask L H)

/-- `sum over k of (s_k << k)`: the bits of `s`, earliest lowest (R182). -/
def packBits : BitString → Nat
  | [] => 0
  | b :: s => b.toNat + 2 * packBits s

/-- `v[0] v[1] … v[c-1]`: the low `c` bits of a byte, lowest first (R183). -/
def lowBits (c : Nat) (v : Byte) : BitString := (List.range c).map v.getLsbD

/-- `bitAt(p)`: bit `p mod 8` of byte `p div 8` (R62, R64). -/
def bitAt (m : Memory Byte) (p : Nat) : Bool := (byteAt m (p / 8)).getLsbD (p % 8)

/-- The length of the next chunk: bounded by the bits still requested, the end of the byte and the wrap (R181). -/
def chunkLen (P p rem : Nat) : Nat := min rem (min (8 - p % 8) (P - p))

/-- The loop of `Chunks` (R181), run at most `fuel` times: a chunk has at least one bit, so `fuel = n` is enough. -/
def chunksFrom (P : Nat) : Nat → Nat → Nat → List (Nat × Nat)
  | 0, _, _ => []
  | fuel + 1, p, rem =>
    if rem = 0 then []
    else (p, chunkLen P p rem) :: chunksFrom P fuel (adv P p (chunkLen P p rem)) (rem - chunkLen P p rem)

/-- `Chunks(p0, n)` (R181). -/
def chunks (P p0 n : Nat) : List (Nat × Nat) := chunksFrom P n p0 n

/-- The loop of `BitWrite` (R182) over a list of chunks: each is one masked read-modify-write of one byte. -/
def writeChunks : List (Nat × Nat) → BitString → Memory Byte → Memory Byte
  | [], _, m => m
  | (p, c) :: cs, s, m =>
    writeChunks cs (s.drop c)
      (setByte m (p / 8)
        (setBitRange (byteAt m (p / 8)) (p % 8) (p % 8 + c - 1) (BitVec.ofNat 8 (packBits (s.take c)))))

/-- `BitWrite(p0, s)` (R182). -/
def bitWrite (P p0 : Nat) (s : BitString) (m : Memory Byte) : Memory Byte :=
  writeChunks (chunks P p0 s.length) s m

/-- The loop of `BitRead` (R183) over a list of chunks. -/
def readChunks (m : Memory Byte) : List (Nat × Nat) → BitString
  | [] => []
  | (p, c) :: cs =>
    lowBits c (getBitRange (byteAt m (p / 8)) (p % 8) (p % 8 + c - 1)) ++ readChunks m cs

/-- `BitRead(p0, n)` (R183). -/
def bitRead (P p0 n : Nat) (m : Memory Byte) : BitString := readChunks m (chunks P p0 n)

/-- `zeros(n)` (R14). -/
def zeros (n : Nat) : BitString := List.replicate n false

/-- `BitZero(p0, n)` (R184). -/
def bitZero (P p0 n : Nat) (m : Memory Byte) : Memory Byte := bitWrite P p0 (zeros n) m

/-- `HMReadBits(A, n)`: `s_j = HM[A + (j div 8)][j mod 8]` (R186). -/
def hmReadBits (A n : Nat) (hm : Memory Byte) : BitString :=
  (List.range n).map (fun j => (byteAt hm (A + j / 8)).getLsbD (j % 8))

/-- The byte-by-byte loop of `HMWriteBits` (R187, ascending addresses R80): `k` bytes still to touch, each one
read-modify-write. -/
def hmWriteLoop : Nat → Nat → BitString → Memory Byte → Memory Byte
  | 0, _, _, hm => hm
  | k + 1, A, s, hm =>
    hmWriteLoop k (A + 1) (s.drop 8)
      (setByte hm A (setBitRange (byteAt hm A) 0 ((s.take 8).length - 1) (BitVec.ofNat 8 (packBits (s.take 8)))))

/-- `HMWriteBits(A, s)` (R187). -/
def hmWriteBits (A : Nat) (s : BitString) (hm : Memory Byte) : Memory Byte :=
  hmWriteLoop (ceilDiv8 s.length) A s hm

end Sys2Proof.Machine
end

