-- ==== Sys2Proof/Machine/Flags.lean ====
section
/-! DEFINITION. Sys2Proof/Machine/Flags.lean: what is computed from the registers and never stored: sizes, the empty and full
conditions (spec/10_state.md R39, R40), the HM range check (spec/20_memory.md R65), the legal values of the index registers
(R49), and the logical contents (R44). -/

namespace Sys2Proof.Machine

/-- `size_E` (R18, R40). -/
def State.sizeE (s : State) : Nat := ringSize s.cfg.pE s.headE s.tailE

/-- `avail_E = C_E - size_E` (R40). -/
def State.availE (s : State) : Nat := s.cfg.cE - s.sizeE

/-- `empty_E = (HEAD_E == TAIL_E)` (R40). -/
def State.emptyE (s : State) : Bool := s.headE == s.tailE

/-- `full_E = (size_E == C_E)` (R40). -/
def State.fullE (s : State) : Bool := s.sizeE == s.cfg.cE

/-- `size_B` (R18, R40). -/
def State.sizeB (s : State) : Nat := ringSize s.cfg.pB s.headB s.tailB

/-- `avail_B = C_B - size_B` (R40). -/
def State.availB (s : State) : Nat := s.cfg.cB - s.sizeB

/-- `empty_B = (HEAD_B == TAIL_B)` (R40). -/
def State.emptyB (s : State) : Bool := s.headB == s.tailB

/-- `full_B = (size_B == C_B)` (R40). -/
def State.fullB (s : State) : Bool := s.sizeB == s.cfg.cB

/-- The HM region of `n` bits at `A` is in range: it is empty, or `A + ceil(n / 8) <= HM_SIZE` (R65, C5). -/
def hmInRange (c : Config) (A n : Nat) : Bool := n == 0 || decide (A + ceilDiv8 n ≤ c.hmSize)

/-- Each head and tail register holds a legal value (R39, R49). -/
def State.indexesLegal (s : State) : Bool :=
  decide (s.headE < s.cfg.pE) && decide (s.tailE < s.cfg.pE) && decide (s.headB < s.cfg.pB) && decide (s.tailB < s.cfg.pB)

/-- `eqElem(a, b)`: bit-for-bit equality of records (R132). -/
def eqElem (a b : Nat) : Bool := a == b

/-- The slot of logical offset `i` (R61). -/
def State.slotE (s : State) (i : Nat) : Nat := adv s.cfg.pE s.headE i

/-- The bit position of logical offset `i` (R44). -/
def State.posB (s : State) (i : Nat) : Nat := adv s.cfg.pB s.headB i

/-- `Q_E`: the Element Queue's content, oldest first (R44). -/
def State.queueE (s : State) : List Nat := (List.range s.sizeE).map (fun i => recordAt s.eqm (s.slotE i))

/-- `Q_B`: the Bit Queue's content, oldest first (R44). -/
def State.queueB (s : State) : BitString := (List.range s.sizeB).map (fun i => bitAt s.bqm (s.posB i))

end Sys2Proof.Machine
end

