-- ==== Sys2Proof/Machine/Operands.lean ====
section
/-! DEFINITION. Sys2Proof/Machine/Operands.lean: operand assembly (spec/30_encoding.md R92). No operand is sign-extended, scaled
or shifted; `CNT`, `IDX` and `ADDR` are the naturals they encode. -/

namespace Sys2Proof.Machine

/-- The element operand `DATA[W-1:0]`; `DATA[DW-1:W]` is ignored (R92). -/
def recordOperand (c : Config) (data : Nat) : Nat := data % 2 ^ c.w

/-- The Bit Queue data byte `DATA[7:0]`; `DATA[DW-1:8]` is ignored (R92). -/
def byteOperand (data : Nat) : Byte := BitVec.ofNat 8 data

/-- `byte[0] byte[1] … byte[n-1]`: the low `n` bits of the data byte, low-order bit first (R191, R193). -/
def byteBits (data n : Nat) : BitString := lowBits n (byteOperand data)

/-- The natural that CNT or IDX encodes (R13, R92). -/
abbrev countOperand (field : BitVec 32) : Nat := field.toNat

end Sys2Proof.Machine
end

