-- ==== Sys2Proof/Machine/Ops.lean ====
section
/-! DEFINITION. Sys2Proof/Machine/Ops.lean: the named operations over registers, stores and ports that the commands are built
from: the updates of State, the response (spec/00_scope.md R17), fault entry and its only return, reset (spec/60_exceptions.md
R295, R297; spec/70_reset_and_hazards.md R320), the checks before every command (R292), eviction, group-wise push and forced
push (spec/41_bit_queue.md R188 to R190), and the two loops of the Element Queue (R126, R131). -/

namespace Sys2Proof.Machine

/-- How a command ends. -/
abbrev Result := Host.Outcome State Fault Refusal

def State.setHeadE (s : State) (v : Nat) : State := { s with headE := v }
def State.setTailE (s : State) (v : Nat) : State := { s with tailE := v }
def State.setHeadB (s : State) (v : Nat) : State := { s with headB := v }
def State.setTailB (s : State) (v : Nat) : State := { s with tailB := v }
def State.setFault (s : State) (f : Bool) (c : BitVec 4) : State := { s with fault := f, cause := c }
def State.setEqm (s : State) (m : Memory Nat) : State := { s with eqm := m }
def State.setBqm (s : State) (m : Memory Byte) : State := { s with bqm := m }
def State.setHm (s : State) (m : Memory Byte) : State := { s with hm := m }
def State.setRst (s : State) (b : Bool) : State := { s with rst := b }
def State.setInputs (s : State) (xs : List HostInput) : State := { s with inputs := xs }

/-- The response port delivers one more response. -/
def State.deliver (s : State) (r : Response) : State := { s with responses := s.responses ++ [r] }

/-- `respond(ok, data, count)` (R17, R97, R98). -/
def State.respond (s : State) (ok : Bool) (data count : Nat) : State :=
  s.deliver { ok := ok, fault := false, cause := 0, data := data, count := count }

/-- The 4-bit code of a cause (R291); `0x0` is `NONE` and `0x6` to `0xF` are never produced (U7). -/
def Cause.code : Cause → BitVec 4
  | .illegalOp => 0x1
  | .eqEmpty => 0x2
  | .eqIndex => 0x3
  | .bqCnt8 => 0x4
  | .hmRange => 0x5

/-- The response of a faulted block (R294, R295). -/
def faultedResponse (cause : BitVec 4) : Response :=
  { ok := false, fault := true, cause := cause, data := 0, count := 0 }

/-- Fault entry, `raise Fault(cause)` (R295): taking an exception. Nothing else is saved or changed. -/
def State.raise (s : State) (c : Cause) : State :=
  (s.setFault true c.code).deliver (faultedResponse c.code)

/-- The answer of a block that is faulted already (R294). -/
def State.answerFaulted (s : State) : State := s.deliver (faultedResponse s.cause)

/-- The HM region of a command, as its first address and its number of bytes (R65, D37); empty for a command that transfers
nothing to or from HM. -/
def State.hmRegion (s : State) : Instr → Nat × Nat
  | .bqPushm cnt addr => (addr, ceilDiv8 (countOperand cnt))
  | .bqFpushm cnt addr => (addr, ceilDiv8 (countOperand cnt))
  | .bqPop cnt addr => (addr, ceilDiv8 (min (countOperand cnt) s.sizeB))
  | .bqGet _ cnt addr => (addr, ceilDiv8 (countOperand cnt))
  | .eqPush _ => (0, 0)
  | .eqPop => (0, 0)
  | .eqPopa => (0, 0)
  | .eqPeek => (0, 0)
  | .eqClear => (0, 0)
  | .eqRemove _ => (0, 0)
  | .eqGet _ => (0, 0)
  | .eqSet _ _ => (0, 0)
  | .eqFront => (0, 0)
  | .eqBack => (0, 0)
  | .eqFind _ => (0, 0)
  | .bqPush8 _ _ => (0, 0)
  | .bqFpush8 _ _ => (0, 0)
  | .bqDrop _ => (0, 0)
  | .bqClear => (0, 0)
  | .eqCap => (0, 0)
  | .eqSize => (0, 0)
  | .eqAvail => (0, 0)
  | .eqEmpty => (0, 0)
  | .eqFull => (0, 0)
  | .bqCap => (0, 0)
  | .bqSize => (0, 0)
  | .bqAvail => (0, 0)
  | .bqEmpty => (0, 0)
  | .bqFull => (0, 0)

/-- The HM region of the command that a reset abandons: none if there is no such command, if the block is faulted and
performs nothing (R294), if `rst` is already asserted and so no command is in progress (R321), or if the request spells no
command. DEDUCED (assumption 23). -/
def State.abandonedRegion (s : State) : Option Nat → Nat × Nat
  | none => (0, 0)
  | some req =>
    if s.fault || s.rst then (0, 0)
    else match decode s.cfg req with
      | .ok i => s.hmRegion i
      | .error _ => (0, 0)

/-- The slots of a draw that exist, each with the `W` bits of its record. -/
def drawnRecords (c : Config) (cells : List (Nat × Nat)) : List (Nat × Nat) :=
  (cells.filter (fun x => decide (x.1 < c.pE))).map (fun x => (x.1, x.2 % 2 ^ c.w))

/-- The bytes of a draw that exist in a range of `len` bytes from `lo`, in a space of `size` bytes. -/
def drawnBytes (lo len size : Nat) (cells : List Host.Cell) : List Host.Cell :=
  cells.filter (fun x => decide (lo ≤ x.1) && decide (x.1 < lo + len) && decide (x.1 < size))

/-- Reset (R48, R320): the only return from a fault (R297). The registers take their reset values; `EQM` and `BQM` are not
written, so they hold what the draw says; HM is untouched but for the region of an abandoned command; the
abandoned command gets no response. `rst` stays asserted until it is released (R321). Asserted again while it is asserted,
it is a whole reset again, with a draw of its own: the spec names no such event. DESIGN CHOICE (assumption 25). -/
def State.applyReset (s : State) (d : ResetDraw) : State :=
  (((((((((s.setHeadE 0).setTailE 0).setHeadB 0).setTailB 0).setFault false 0).setEqm
    (Memory.overlay unlistedRecord s.eqm (drawnRecords s.cfg d.eqm))).setBqm
    (Memory.overlay unlistedByte s.bqm (drawnBytes 0 s.cfg.nbB s.cfg.nbB d.bqm))).setHm
    (Memory.overlay unlistedByte s.hm
      (drawnBytes (s.abandonedRegion d.abandoned).1 (s.abandonedRegion d.abandoned).2 s.cfg.hmSize d.hm))).setRst true)

/-- The checks before a command (R292): a configuration that cannot be built has no meaning (R11); a faulted block answers and
performs nothing (R294); a register outside its legal values names no unit (R49). Then the command is performed, as
one step (R330). -/
def perform (s : State) (command : State → State) : Result :=
  if s.cfg.legal then
    if s.fault then .next s.answerFaulted
    else if s.indexesLegal then .next (command s)
    else .fault .indexRange
  else .refused .illegalConfiguration

/-- A command that reads the record of logical offset `i` and changes nothing (R127, R129, R130). -/
def State.respondRecord (s : State) (i : Nat) : State := s.respond true (recordAt s.eqm (s.slotE i)) 0

/-- A successful pop: the head record, and the head advances (R122, R123). -/
def State.popRecord (s : State) : State :=
  (s.setHeadE (adv s.cfg.pE s.headE 1)).respond true (recordAt s.eqm s.headE) 0

/-- The compaction loop of `EQ.REMOVE` (R126), `n` records still to walk: read cursor `r`, write cursor `w`, `removed` so
far. It gives the store, the final write cursor and the number removed. -/
def compact (P value : Nat) : Nat → Nat → Nat → Nat → Memory Nat → Memory Nat × Nat × Nat
  | 0, _, w, removed, m => (m, w, removed)
  | n + 1, r, w, removed, m =>
    if eqElem (recordAt m r) value then compact P value n (adv P r 1) w (removed + 1) m
    else compact P value n (adv P r 1) (adv P w 1) removed (setRecord m w (recordAt m r))

/-- The linear scan of `EQ.FIND` (R131). -/
def State.findRecord (s : State) (value : Nat) : Bool :=
  (List.range s.sizeE).any (fun i => eqElem (recordAt s.eqm (s.slotE i)) value)

/-- `Evict(k)` (R188). -/
def State.evict (s : State) (k : Nat) : State :=
  (if s.cfg.zoc then s.setBqm (bitZero s.cfg.pB s.headB k s.bqm) else s).setHeadB (adv s.cfg.pB s.headB k)

/-- One group of `PushGroups`: written at the tail, and the tail advances (R189). -/
def State.pushGroup (s : State) (bits : BitString) : State :=
  (s.setBqm (bitWrite s.cfg.pB s.tailB bits s.bqm)).setTailB (adv s.cfg.pB s.tailB bits.length)

/-- The loop of `PushGroups` (R189), `k` groups still to push. -/
def pushLoop : Nat → BitString → State → State
  | 0, _, s => s
  | k + 1, bits, s => pushLoop k (bits.drop 8) (s.pushGroup (bits.take 8))

/-- `PushGroups(s)` (R189). -/
def State.pushGroups (s : State) (bits : BitString) : State := pushLoop (ceilDiv8 bits.length) bits s

/-- How many queued bits a forced push of `n` bits evicts (R190). -/
def State.evictedBy (s : State) (n : Nat) : Nat := if s.availB < n then min (n - s.availB) s.sizeB else 0

/-- The bits a forced push keeps: the newest `C_B` of them (R190, D15). -/
def keptBits (c : Config) (bits : BitString) : BitString :=
  if c.cB < bits.length then bits.drop (bits.length - c.cB) else bits

/-- `ForcePush(s)` (R190). -/
def State.forcePush (s : State) (bits : BitString) : State :=
  ((if s.availB < bits.length then s.evict (s.evictedBy bits.length) else s).pushGroups (keptBits s.cfg bits)).respond
    true 0 (s.evictedBy bits.length)

/-- The bits of `HMReadBits(A, n)` (R186) in the present HM. -/
def State.sourceBits (s : State) (A n : Nat) : BitString := hmReadBits A n s.hm

/-- The `n` queued bits from logical offset `off` written to HM at `A`: `HMWriteBits(A, BitRead(adv(HEAD_B, off), n))` (R196, R197). -/
def State.copyOut (s : State) (off n A : Nat) : State :=
  s.setHm (hmWriteBits A (bitRead s.cfg.pB (s.posB off) n s.bqm) s.hm)

end Sys2Proof.Machine
end

