-- ==== Sys2Proof/Machine/BitQueue.lean ====
section
/-! DEFINITION. Sys2Proof/Machine/BitQueue.lean: the Bit Queue commands (spec/41_bit_queue.md R180, R191 to R199). -/

namespace Sys2Proof.Machine

/-- `BQ.PUSH8` (R191, D14). -/
def execBqPush8 (data : Nat) (cnt : BitVec 32) (s : State) : Result :=
  perform s fun s =>
    if 8 < countOperand cnt then s.raise .bqCnt8
    else if s.availB < countOperand cnt then s.respond false 0 0
    else (s.pushGroups (byteBits data (countOperand cnt))).respond true 0 0

/-- `BQ.PUSHM` (R192). -/
def execBqPushm (cnt : BitVec 32) (addr : Nat) (s : State) : Result :=
  perform s fun s =>
    if s.availB < countOperand cnt then s.respond false 0 0
    else if hmInRange s.cfg addr (countOperand cnt) then
      (s.pushGroups (s.sourceBits addr (countOperand cnt))).respond true 0 0
    else s.raise .hmRange

/-- `BQ.FPUSH8` (R193, D14). -/
def execBqFpush8 (data : Nat) (cnt : BitVec 32) (s : State) : Result :=
  perform s fun s =>
    if 8 < countOperand cnt then s.raise .bqCnt8 else s.forcePush (byteBits data (countOperand cnt))

/-- `BQ.FPUSHM` (R194): the range check comes before any eviction. -/
def execBqFpushm (cnt : BitVec 32) (addr : Nat) (s : State) : Result :=
  perform s fun s =>
    if hmInRange s.cfg addr (countOperand cnt) then s.forcePush (s.sourceBits addr (countOperand cnt))
    else s.raise .hmRange

/-- `BQ.DROP` (R195, D17). -/
def execBqDrop (cnt : BitVec 32) (s : State) : Result :=
  perform s fun s =>
    (s.evict (min (countOperand cnt) s.sizeB)).respond true 0 (min (countOperand cnt) s.sizeB)

/-- `BQ.POP` (R196): the region is sized by the clamped count. -/
def execBqPop (cnt : BitVec 32) (addr : Nat) (s : State) : Result :=
  perform s fun s =>
    if hmInRange s.cfg addr (min (countOperand cnt) s.sizeB) then
      ((s.copyOut 0 (min (countOperand cnt) s.sizeB) addr).evict (min (countOperand cnt) s.sizeB)).respond
        true 0 (min (countOperand cnt) s.sizeB)
    else s.raise .hmRange

/-- `BQ.GET` (R197, C1, D18): the sum is taken on naturals. -/
def execBqGet (idx cnt : BitVec 32) (addr : Nat) (s : State) : Result :=
  perform s fun s =>
    if s.sizeB < countOperand idx + countOperand cnt then s.respond false 0 0
    else if hmInRange s.cfg addr (countOperand cnt) then
      (s.copyOut (countOperand idx) (countOperand cnt) addr).respond true 0 (countOperand cnt)
    else s.raise .hmRange

/-- `BQ.CLEAR` (R198); `BQM` is not changed, also under zero on consume (R199). -/
def execBqClear (s : State) : Result :=
  perform s fun s => ((s.setHeadB 0).setTailB 0).respond true 0 0

end Sys2Proof.Machine
end

