-- ==== Sys2Proof/Machine/ElementQueue.lean ====
section
/-! DEFINITION. Sys2Proof/Machine/ElementQueue.lean: the Element Queue commands (spec/40_element_queue.md R120 to R133). -/

namespace Sys2Proof.Machine

/-- `EQ.PUSH` (R121). -/
def execEqPush (data : Nat) (s : State) : Result :=
  perform s fun s =>
    if s.fullE then s.respond false 0 0
    else ((s.setEqm (setRecord s.eqm s.tailE (recordOperand s.cfg data))).setTailE (adv s.cfg.pE s.tailE 1)).respond true 0 0

/-- `EQ.POP` (R122, D21). -/
def execEqPop (s : State) : Result :=
  perform s fun s => if s.emptyE then s.respond false 0 0 else s.popRecord

/-- `EQ.POPA`, the aborting form (R123). -/
def execEqPopa (s : State) : Result :=
  perform s fun s => if s.emptyE then s.raise .eqEmpty else s.popRecord

/-- `EQ.PEEK` (R124). -/
def execEqPeek (s : State) : Result :=
  perform s fun s => if s.emptyE then s.respond false 0 0 else s.respond true (recordAt s.eqm s.headE) 0

/-- `EQ.CLEAR` (R125); `EQM` is not changed (R133). -/
def execEqClear (s : State) : Result :=
  perform s fun s => ((s.setHeadE 0).setTailE 0).respond true 0 0

/-- `EQ.REMOVE` (R126): the loop runs exactly `size_E` times. -/
def execEqRemove (data : Nat) (s : State) : Result :=
  perform s fun s =>
    let out := compact s.cfg.pE (recordOperand s.cfg data) s.sizeE s.headE s.headE 0 s.eqm
    ((s.setEqm out.1).setTailE out.2.1).respond true 0 out.2.2

/-- `EQ.GET` (R127). -/
def execEqGet (idx : BitVec 32) (s : State) : Result :=
  perform s fun s =>
    if s.sizeE ≤ countOperand idx then s.raise .eqIndex else s.respondRecord (countOperand idx)

/-- `EQ.SET` (R128, D22). -/
def execEqSet (idx : BitVec 32) (data : Nat) (s : State) : Result :=
  perform s fun s =>
    if s.sizeE ≤ countOperand idx then s.raise .eqIndex
    else (s.setEqm (setRecord s.eqm (s.slotE (countOperand idx)) (recordOperand s.cfg data))).respond true 0 0

/-- `EQ.FRONT` (R129). -/
def execEqFront (s : State) : Result :=
  perform s fun s => if s.sizeE = 0 then s.raise .eqIndex else s.respond true (recordAt s.eqm s.headE) 0

/-- `EQ.BACK` (R130). -/
def execEqBack (s : State) : Result :=
  perform s fun s => if s.sizeE = 0 then s.raise .eqIndex else s.respondRecord (s.sizeE - 1)

/-- `EQ.FIND` (R131). -/
def execEqFind (data : Nat) (s : State) : Result :=
  perform s fun s => s.respond (s.findRecord (recordOperand s.cfg data)) 0 0

end Sys2Proof.Machine
end

