-- ==== Sys2Proof/Machine/StatusQueries.lean ====
section
/-! DEFINITION. Sys2Proof/Machine/StatusQueries.lean: the ten queries (spec/42_status_queries.md R260 to R270). -/

namespace Sys2Proof.Machine

/-- `EQ.CAP` (R261). -/
def execEqCap (s : State) : Result := perform s fun s => s.respond true 0 s.cfg.cE

/-- `EQ.SIZE` (R262). -/
def execEqSize (s : State) : Result := perform s fun s => s.respond true 0 s.sizeE

/-- `EQ.AVAIL` (R263). -/
def execEqAvail (s : State) : Result := perform s fun s => s.respond true 0 s.availE

/-- `EQ.EMPTY` (R264). -/
def execEqEmpty (s : State) : Result := perform s fun s => s.respond s.emptyE 0 0

/-- `EQ.FULL` (R265). -/
def execEqFull (s : State) : Result := perform s fun s => s.respond s.fullE 0 0

/-- `BQ.CAP` (R266). -/
def execBqCap (s : State) : Result := perform s fun s => s.respond true 0 s.cfg.cB

/-- `BQ.SIZE` (R267). -/
def execBqSize (s : State) : Result := perform s fun s => s.respond true 0 s.sizeB

/-- `BQ.AVAIL` (R268). -/
def execBqAvail (s : State) : Result := perform s fun s => s.respond true 0 s.availB

/-- `BQ.EMPTY` (R269). -/
def execBqEmpty (s : State) : Result := perform s fun s => s.respond s.emptyB 0 0

/-- `BQ.FULL` (R270). -/
def execBqFull (s : State) : Result := perform s fun s => s.respond s.fullB 0 0

end Sys2Proof.Machine
end

