-- ==== Sys2Proof/Machine/Dispatch.lean ====
section
/-! DEFINITION. Sys2Proof/Machine/Dispatch.lean: one arm per command (spec/30_encoding.md R95). -/

namespace Sys2Proof.Machine

def exec (i : Instr) (s : State) : Host.Outcome State Fault Refusal :=
  match i with
  | .eqPush data => Sys2Proof.Machine.execEqPush data s
  | .eqPop => Sys2Proof.Machine.execEqPop s
  | .eqPopa => Sys2Proof.Machine.execEqPopa s
  | .eqPeek => Sys2Proof.Machine.execEqPeek s
  | .eqClear => Sys2Proof.Machine.execEqClear s
  | .eqRemove data => Sys2Proof.Machine.execEqRemove data s
  | .eqGet idx => Sys2Proof.Machine.execEqGet idx s
  | .eqSet idx data => Sys2Proof.Machine.execEqSet idx data s
  | .eqFront => Sys2Proof.Machine.execEqFront s
  | .eqBack => Sys2Proof.Machine.execEqBack s
  | .eqFind data => Sys2Proof.Machine.execEqFind data s
  | .bqPush8 data cnt => Sys2Proof.Machine.execBqPush8 data cnt s
  | .bqPushm cnt addr => Sys2Proof.Machine.execBqPushm cnt addr s
  | .bqFpush8 data cnt => Sys2Proof.Machine.execBqFpush8 data cnt s
  | .bqFpushm cnt addr => Sys2Proof.Machine.execBqFpushm cnt addr s
  | .bqDrop cnt => Sys2Proof.Machine.execBqDrop cnt s
  | .bqPop cnt addr => Sys2Proof.Machine.execBqPop cnt addr s
  | .bqGet idx cnt addr => Sys2Proof.Machine.execBqGet idx cnt addr s
  | .bqClear => Sys2Proof.Machine.execBqClear s
  | .eqCap => Sys2Proof.Machine.execEqCap s
  | .eqSize => Sys2Proof.Machine.execEqSize s
  | .eqAvail => Sys2Proof.Machine.execEqAvail s
  | .eqEmpty => Sys2Proof.Machine.execEqEmpty s
  | .eqFull => Sys2Proof.Machine.execEqFull s
  | .bqCap => Sys2Proof.Machine.execBqCap s
  | .bqSize => Sys2Proof.Machine.execBqSize s
  | .bqAvail => Sys2Proof.Machine.execBqAvail s
  | .bqEmpty => Sys2Proof.Machine.execBqEmpty s
  | .bqFull => Sys2Proof.Machine.execBqFull s

end Sys2Proof.Machine
end

