-- ==== Sys2Proof/Machine/Port.lean ====
section
/-! DEFINITION. Sys2Proof/Machine/Port.lean: what the block does with one action of the host (spec/60_exceptions.md R292;
spec/70_reset_and_hazards.md R320, R321, R334), and what the host sees when it inspects the memories (spec/20_memory.md R72, R75). -/

namespace Sys2Proof.Machine

/-- A request whose `OP` is reserved (R96, R292). -/
def rejectOpcode (s : State) : Result := perform s fun s => s.raise .illegalOp

/-- `Step(req)` of R292: the command the request spells, or `Fault(ILLEGAL_OP)`. -/
def serve (req : Nat) (s : State) : Result :=
  match decode s.cfg req with
  | .ok i => exec i s
  | .error _ => rejectOpcode s

/-- One host action. A request while `rst` is asserted is neither performed nor answered (R321, U12). The host's HM writes
fall between commands, since a command is one step (R73, R330). `rst` asserted while asserted, or released while released, is no
event of the spec: what happens then is the DESIGN CHOICE of assumption 25. -/
def takeInput (x : HostInput) (s : State) : Result :=
  match x with
  | .request req => if s.rst then .next s else serve req s
  | .assertReset d => .next (s.applyReset d)
  | .releaseReset => .next (s.setRst false)
  | .writeHM addr value =>
    if addr < s.cfg.hmSize then .next (s.setHm (setByte s.hm addr value)) else .fault .hmAddress

/-- One step: the oldest host action is taken; with none to come the idle block holds its state (R306, R332, U20). A
configuration that cannot be built has no steps (R11). -/
def stepInput (s : State) : Result :=
  if s.cfg.legal then
    match s.inputs with
    | [] => .next s
    | x :: rest => takeInput x (s.setInputs rest)
  else .refused .illegalConfiguration

/-- The host inspects slot `a` of `EQM` while the block is idle (R72): nothing if there is no such slot. -/
def State.inspectEqm (s : State) (a : Nat) : Option Nat :=
  if a < s.cfg.pE then some (recordAt s.eqm a) else none

/-- The host inspects byte `a` of `BQM` while the block is idle (R72). -/
def State.inspectBqm (s : State) (a : Nat) : Option Byte :=
  if a < s.cfg.nbB then some (byteAt s.bqm a) else none

/-- The host reads byte `a` of its memory (R75). -/
def State.inspectHm (s : State) (a : Nat) : Option Byte :=
  if a < s.cfg.hmSize then some (byteAt s.hm a) else none

/-- The flat vector `RSP = {COUNT, DATA, CAUSE, FAULT, OK}` of a response (R97). -/
def Response.toRsp (c : Config) (r : Response) : Nat :=
  r.ok.toNat + r.fault.toNat * 2 + r.cause.toNat * 2 ^ 2 + r.data * 2 ^ 6 + r.count * 2 ^ (c.w + 6)

end Sys2Proof.Machine
end

