-- ==== Sys2Proof/Machine/Step.lean ====
section
/-! DEFINITION. Sys2Proof/Machine/Step.lean: the step, and the placing of a request where the next step takes it. -/

namespace Sys2Proof.Machine

/-- One host action is one step (spec/70_reset_and_hazards.md R330). -/
def step (s : State) : Host.Outcome State Fault Refusal := stepInput s

/-- `s` with the table word `w` of `nbits` bits, every REQ bit above them 0, as the host's next action, on a released block
(assumption 2). -/
def State.withFetchWord (s : State) (nbits w : Nat) : State :=
  { s with rst := false, inputs := .request (w % 2 ^ nbits) :: s.inputs }

end Sys2Proof.Machine
end

