-- ==== Sys2Proof/Machine/Text.lean ====
section
/-! DEFINITION. Sys2Proof/Machine/Text.lean: the textual form of commands and responses (spec/30_encoding.md R100, R101). Numbers are
written in decimal, one of the three forms R100 allows. No step reads it. -/

namespace Sys2Proof.Machine

/-- Operands in the order of the operand class, separated by commas (R100). -/
def operandText (xs : List Nat) : String := String.intercalate ", " (xs.map toString)

/-- One command as a line of text (R100). -/
def instrText : Instr → String
  | .eqPush data => "eq.push " ++ operandText [data]
  | .eqPop => "eq.pop"
  | .eqPopa => "eq.popa"
  | .eqPeek => "eq.peek"
  | .eqClear => "eq.clear"
  | .eqRemove data => "eq.remove " ++ operandText [data]
  | .eqGet idx => "eq.get " ++ operandText [idx.toNat]
  | .eqSet idx data => "eq.set " ++ operandText [idx.toNat, data]
  | .eqFront => "eq.front"
  | .eqBack => "eq.back"
  | .eqFind data => "eq.find " ++ operandText [data]
  | .bqPush8 data cnt => "bq.push8 " ++ operandText [data, cnt.toNat]
  | .bqPushm cnt addr => "bq.pushm " ++ operandText [cnt.toNat, addr]
  | .bqFpush8 data cnt => "bq.fpush8 " ++ operandText [data, cnt.toNat]
  | .bqFpushm cnt addr => "bq.fpushm " ++ operandText [cnt.toNat, addr]
  | .bqDrop cnt => "bq.drop " ++ operandText [cnt.toNat]
  | .bqPop cnt addr => "bq.pop " ++ operandText [cnt.toNat, addr]
  | .bqGet idx cnt addr => "bq.get " ++ operandText [idx.toNat, cnt.toNat, addr]
  | .bqClear => "bq.clear"
  | .eqCap => "eq.cap"
  | .eqSize => "eq.size"
  | .eqAvail => "eq.avail"
  | .eqEmpty => "eq.empty"
  | .eqFull => "eq.full"
  | .bqCap => "bq.cap"
  | .bqSize => "bq.size"
  | .bqAvail => "bq.avail"
  | .bqEmpty => "bq.empty"
  | .bqFull => "bq.full"

/-- A response as text, with the fault fields only when faulted (R100). -/
def responseText (r : Response) : String :=
  "-> ok=" ++ toString r.ok.toNat ++ " data=" ++ toString r.data ++ " count=" ++ toString r.count ++
    (if r.fault then " fault=1 cause=" ++ toString r.cause.toNat else "")

end Sys2Proof.Machine
end

