-- ==== Sys2Proof/Safety.lean ====
section
/-! DEFINITION. Sys2Proof/Safety.lean: the terms the statements use: the invariants of spec/10_state.md R39, R41 to R43 and R49, what
it is for a response to fit its record, the frames of the two units, and runs of commands. -/

namespace Sys2Proof.Machine

/-- A value `CAUSE` can hold (R49, R291). -/
abbrev legalCause (c : BitVec 4) : Prop := c.toNat ≤ 5

/-- The fields of a response fit the record RSP, and the faulted form is the one of R294 and R295 (R97, R98). -/
abbrev Response.wf (c : Config) (r : Response) : Prop :=
  r.data < 2 ^ c.w ∧ r.count < 2 ^ 32 ∧ legalCause r.cause ∧
    (r.fault = false → r.cause = 0) ∧ (r.fault = true → r.cause ≠ 0 ∧ r.ok = false ∧ r.data = 0 ∧ r.count = 0)

/-- What holds after reset and after every step (R39, R49): the registers hold legal values, `CAUSE` is 0 exactly while
`FAULT` is 0, every memory space is in its canonical form and within its size, every record has `W` bits, and every
response delivered fits its record. -/
structure State.Inv (s : State) : Prop where
  cfgLegal : s.cfg.legal = true
  headE : s.headE < s.cfg.pE
  tailE : s.tailE < s.cfg.pE
  headB : s.headB < s.cfg.pB
  tailB : s.tailB < s.cfg.pB
  causeLegal : legalCause s.cause
  causeNone : s.fault = false → s.cause = 0
  causeSome : s.fault = true → s.cause ≠ 0
  eqm : Memory.wf unlistedRecord s.cfg.pE s.eqm
  records : ∀ c ∈ s.eqm, c.2 < 2 ^ s.cfg.w
  bqm : Memory.wf unlistedByte s.cfg.nbB s.bqm
  hm : Memory.wf unlistedByte s.cfg.hmSize s.hm
  responses : ∀ r ∈ s.responses, r.wf s.cfg

/-- The block performs commands: it can be built, it is not faulted, and its registers are legal (R120, R180, R292). -/
abbrev State.ready (s : State) : Prop := s.cfg.legal = true ∧ s.fault = false ∧ s.indexesLegal = true

/-- Everything but the Element Queue's registers and store, HM, the fault state and the responses is the same. -/
abbrev sameButE (s t : State) : Prop :=
  t.cfg = s.cfg ∧ t.headB = s.headB ∧ t.tailB = s.tailB ∧ t.bqm = s.bqm ∧ t.rst = s.rst ∧ t.inputs = s.inputs

/-- Everything but the Bit Queue's registers and store, HM, the fault state and the responses is the same. -/
abbrev sameButB (s t : State) : Prop :=
  t.cfg = s.cfg ∧ t.headE = s.headE ∧ t.tailE = s.tailE ∧ t.eqm = s.eqm ∧ t.rst = s.rst ∧ t.inputs = s.inputs

/-- The fault state is the same (R36). -/
abbrev sameFault (s t : State) : Prop := t.fault = s.fault ∧ t.cause = s.cause

/-- The frame of an Element Queue command that completes: only its registers, its store and the responses may differ. -/
abbrev frameE (s t : State) : Prop := sameButE s t ∧ sameFault s t ∧ t.hm = s.hm

/-- The frame of a Bit Queue command that completes: only its registers, its store, HM and the responses may differ. -/
abbrev frameB (s t : State) : Prop := sameButB s t ∧ sameFault s t

/-- The answer of a command that completes: one response more, not a faulted one (R17, R97). -/
def answered (s t : State) (ok : Bool) (data count : Nat) : Prop :=
  t.responses = s.responses ++ [{ ok := ok, fault := false, cause := 0, data := data, count := count }]

/-- The reserved values of `OP` (R95, U6). -/
abbrev reservedOpcode (op : Nat) : Prop :=
  op = 0x00 ∨ (0x0C ≤ op ∧ op ≤ 0x10) ∨ (0x19 ≤ op ∧ op ≤ 0x1F) ∨ (0x25 ≤ op ∧ op ≤ 0x2F) ∨ (0x35 ≤ op ∧ op ≤ 0x3F)

/-- The column "raised by" of R291: the cause a command raises in a block that performs commands, if it raises one. A range
fault needs a non-empty region, and comes after the capacity or availability check of its command (R292). -/
def State.faultOf (s : State) : Instr → Option Cause
  | .eqPopa => if s.sizeE = 0 then some .eqEmpty else none
  | .eqGet idx => if s.sizeE ≤ idx.toNat then some .eqIndex else none
  | .eqSet idx _ => if s.sizeE ≤ idx.toNat then some .eqIndex else none
  | .eqFront => if s.sizeE = 0 then some .eqIndex else none
  | .eqBack => if s.sizeE = 0 then some .eqIndex else none
  | .bqPush8 _ cnt => if 8 < cnt.toNat then some .bqCnt8 else none
  | .bqFpush8 _ cnt => if 8 < cnt.toNat then some .bqCnt8 else none
  | .bqPushm cnt addr =>
    if cnt.toNat ≤ s.availB ∧ 0 < cnt.toNat ∧ s.cfg.hmSize < addr + ceilDiv8 cnt.toNat then some .hmRange else none
  | .bqFpushm cnt addr =>
    if 0 < cnt.toNat ∧ s.cfg.hmSize < addr + ceilDiv8 cnt.toNat then some .hmRange else none
  | .bqPop cnt addr =>
    if 0 < min cnt.toNat s.sizeB ∧ s.cfg.hmSize < addr + ceilDiv8 (min cnt.toNat s.sizeB) then some .hmRange else none
  | .bqGet idx cnt addr =>
    if idx.toNat + cnt.toNat ≤ s.sizeB ∧ 0 < cnt.toNat ∧ s.cfg.hmSize < addr + ceilDiv8 cnt.toNat then some .hmRange
    else none
  | .eqPush _ => none
  | .eqPop => none
  | .eqPeek => none
  | .eqClear => none
  | .eqRemove _ => none
  | .eqFind _ => none
  | .bqDrop _ => none
  | .bqClear => none
  | .eqCap => none
  | .eqSize => none
  | .eqAvail => none
  | .eqEmpty => none
  | .eqFull => none
  | .bqCap => none
  | .bqSize => none
  | .bqAvail => none
  | .bqEmpty => none
  | .bqFull => none

/-- The table of R290: when a command fails recoverably in a block that performs commands. -/
def State.failsOn (s : State) : Instr → Bool
  | .eqPush _ => s.sizeE == s.cfg.cE
  | .eqPop => s.headE == s.tailE
  | .eqPeek => s.headE == s.tailE
  | .bqPush8 _ cnt => decide (cnt.toNat ≤ 8) && decide (s.availB < cnt.toNat)
  | .bqPushm cnt _ => decide (s.availB < cnt.toNat)
  | .bqGet idx cnt _ => decide (s.sizeB < idx.toNat + cnt.toNat)
  | .eqPopa => false
  | .eqClear => false
  | .eqRemove _ => false
  | .eqGet _ => false
  | .eqSet _ _ => false
  | .eqFront => false
  | .eqBack => false
  | .eqFind _ => false
  | .bqFpush8 _ _ => false
  | .bqFpushm _ _ => false
  | .bqDrop _ => false
  | .bqPop _ _ => false
  | .bqClear => false
  | .eqCap => false
  | .eqSize => false
  | .eqAvail => false
  | .eqEmpty => false
  | .eqFull => false
  | .bqCap => false
  | .bqSize => false
  | .bqAvail => false
  | .bqEmpty => false
  | .bqFull => false

/-- The commands whose `OK` is a boolean result and no failure (R290). -/
abbrev booleanResult (i : Instr) : Prop :=
  (∃ data, i = .eqFind data) ∨ i = .eqEmpty ∨ i = .eqFull ∨ i = .bqEmpty ∨ i = .bqFull

/-- Two states agree on everything an Element Queue command may read or change (R12). -/
abbrev agreeE (s t : State) : Prop :=
  s.cfg = t.cfg ∧ s.headE = t.headE ∧ s.tailE = t.tailE ∧ s.eqm = t.eqm ∧ sameFault s t ∧ s.responses = t.responses

/-- Two states agree on everything a Bit Queue command may read or change (R12). -/
abbrev agreeB (s t : State) : Prop :=
  s.cfg = t.cfg ∧ s.headB = t.headB ∧ s.tailB = t.tailB ∧ s.bqm = t.bqm ∧ s.hm = t.hm ∧ sameFault s t ∧
    s.responses = t.responses

/-- Two states agree on the observation of R333: the responses, the registers, the logical contents and HM. They may differ in the
stale content of the two stores (R45). -/
abbrev sameObservation (s t : State) : Prop :=
  s.cfg = t.cfg ∧ s.headE = t.headE ∧ s.tailE = t.tailE ∧ s.headB = t.headB ∧ s.tailB = t.tailB ∧ sameFault s t ∧
    s.responses = t.responses ∧ s.queueE = t.queueE ∧ s.queueB = t.queueB ∧ s.hm = t.hm

/-- Bit position `q` is among the `n` positions from `p` on, in the ring of the Bit Queue (R181). -/
abbrev touches (c : Config) (p n q : Nat) : Prop := ∃ j < n, q = adv c.pB p j

/-- The bit string `s` of the laws of R200: what a push command pushes, low-order bit first (R191 to R194). -/
def State.pushedBits (s : State) : Instr → BitString
  | .bqPush8 data cnt => byteBits data cnt.toNat
  | .bqPushm cnt addr => hmReadBits addr cnt.toNat s.hm
  | .bqFpush8 data cnt => byteBits data cnt.toNat
  | .bqFpushm cnt addr => hmReadBits addr cnt.toNat s.hm
  | .bqDrop _ => []
  | .bqPop _ _ => []
  | .bqGet _ _ _ => []
  | .bqClear => []
  | .eqPush _ => []
  | .eqPop => []
  | .eqPopa => []
  | .eqPeek => []
  | .eqClear => []
  | .eqRemove _ => []
  | .eqGet _ => []
  | .eqSet _ _ => []
  | .eqFront => []
  | .eqBack => []
  | .eqFind _ => []
  | .eqCap => []
  | .eqSize => []
  | .eqAvail => []
  | .eqEmpty => []
  | .eqFull => []
  | .bqCap => []
  | .bqSize => []
  | .bqAvail => []
  | .bqEmpty => []
  | .bqFull => []

/-- The number of old bits a command vacates by eviction (R188, R199), which it answers as `COUNT`: `k` of DROP and POP (R195, R196),
`min(len(Q), max(0, n - (C_B - len(Q))))` of a forced push (R200 (d)). -/
def State.evictedBits (s : State) : Instr → Nat
  | .bqFpush8 _ cnt => min s.sizeB (cnt.toNat - (s.cfg.cB - s.sizeB))
  | .bqFpushm cnt _ => min s.sizeB (cnt.toNat - (s.cfg.cB - s.sizeB))
  | .bqDrop cnt => min cnt.toNat s.sizeB
  | .bqPop cnt _ => min cnt.toNat s.sizeB
  | .bqPush8 _ _ => 0
  | .bqPushm _ _ => 0
  | .bqGet _ _ _ => 0
  | .bqClear => 0
  | .eqPush _ => 0
  | .eqPop => 0
  | .eqPopa => 0
  | .eqPeek => 0
  | .eqClear => 0
  | .eqRemove _ => 0
  | .eqGet _ => 0
  | .eqSet _ _ => 0
  | .eqFront => 0
  | .eqBack => 0
  | .eqFind _ => 0
  | .eqCap => 0
  | .eqSize => 0
  | .eqAvail => 0
  | .eqEmpty => 0
  | .eqFull => 0
  | .bqCap => 0
  | .bqSize => 0
  | .bqAvail => 0
  | .bqEmpty => 0
  | .bqFull => 0

/-- The FIFO laws of the Bit Queue (R200): `Q'`, the content after a command that neither fails nor faults, from `Q`, the content
before it. -/
def State.contentAfterB (s : State) : Instr → BitString
  | .bqPush8 data cnt => s.queueB ++ s.pushedBits (.bqPush8 data cnt)
  | .bqPushm cnt addr => s.queueB ++ s.pushedBits (.bqPushm cnt addr)
  | .bqFpush8 data cnt =>
    (s.queueB ++ s.pushedBits (.bqFpush8 data cnt)).drop (s.sizeB + cnt.toNat - min s.cfg.cB (s.sizeB + cnt.toNat))
  | .bqFpushm cnt addr =>
    (s.queueB ++ s.pushedBits (.bqFpushm cnt addr)).drop (s.sizeB + cnt.toNat - min s.cfg.cB (s.sizeB + cnt.toNat))
  | .bqDrop cnt => s.queueB.drop (s.evictedBits (.bqDrop cnt))
  | .bqPop cnt addr => s.queueB.drop (s.evictedBits (.bqPop cnt addr))
  | .bqGet _ _ _ => s.queueB
  | .bqClear => []
  | .eqPush _ => s.queueB
  | .eqPop => s.queueB
  | .eqPopa => s.queueB
  | .eqPeek => s.queueB
  | .eqClear => s.queueB
  | .eqRemove _ => s.queueB
  | .eqGet _ => s.queueB
  | .eqSet _ _ => s.queueB
  | .eqFront => s.queueB
  | .eqBack => s.queueB
  | .eqFind _ => s.queueB
  | .eqCap => s.queueB
  | .eqSize => s.queueB
  | .eqAvail => s.queueB
  | .eqEmpty => s.queueB
  | .eqFull => s.queueB
  | .bqCap => s.queueB
  | .bqSize => s.queueB
  | .bqAvail => s.queueB
  | .bqEmpty => s.queueB
  | .bqFull => s.queueB

/-- One push call of the chunking-independence law (R200): the one-byte form or the multi-byte form. -/
inductive PushCall where
  | byte (data : Nat) (cnt : BitVec 32)
  | source (cnt : BitVec 32) (addr : Nat)
  deriving DecidableEq, Repr

/-- The command of a push call. -/
def PushCall.instr : PushCall → Instr
  | .byte data cnt => .bqPush8 data cnt
  | .source cnt addr => .bqPushm cnt addr

/-- The bits a push call pushes, with the host memory it reads (R191, R192). -/
def PushCall.bits (hm : Memory Byte) : PushCall → BitString
  | .byte data cnt => byteBits data cnt.toNat
  | .source cnt addr => hmReadBits addr cnt.toNat hm

/-- A push call that raises no fault: at most 8 bits of a byte, or a source in range (R191, R192). -/
abbrev PushCall.legal (c : Config) : PushCall → Prop
  | .byte _ cnt => cnt.toNat ≤ 8
  | .source cnt addr => hmInRange c addr cnt.toNat = true

/-- The state after a run of commands, each performed as one step (R333); none if the model stops. -/
def runCommands : List Instr → State → Option State
  | [], s => some s
  | i :: is, s =>
    match exec i s with
    | .next t => runCommands is t
    | .fault _ => none
    | .refused _ => none

end Sys2Proof.Machine
end

