-- ==== Sys2Proof/Certificates/Slice0/Obligations.lean ====
section
/-! DEFINITION. Sys2Proof/Certificates/Slice0/Obligations.lean: what is stated about the block for the provers. "The block performs
commands" is `State.ready`: legal configuration, `FAULT = 0`, legal registers. A statement about queue contents has the
invariant `State.Inv` as its premise, which `EveryStepKeepsTheInvariant` and `ResetStateMeetsTheInvariant` state. -/

open Sys2Proof Sys2Proof.Machine

/-! ## Encoding -/

/-- R90: `REQ = {ADDR, IDX, CNT, DATA, OP}`, each field at the bits the rule's table gives it, `70 + DW + AW` bits in all. -/
def Obligations.RequestFieldsAreTheirBits : Prop :=
  ∀ (c : Config) (v : Nat),
    (∀ k < 6, (Request.ofReq c v).op.getLsbD k = v.testBit k) ∧
    (∀ k, (Request.ofReq c v).data.testBit k = (decide (k < max c.w 8) && v.testBit (6 + k))) ∧
    (∀ k < 32, (Request.ofReq c v).cnt.getLsbD k = v.testBit (max c.w 8 + 6 + k)) ∧
    (∀ k < 32, (Request.ofReq c v).idx.getLsbD k = v.testBit (max c.w 8 + 38 + k)) ∧
    (∀ k, (Request.ofReq c v).addr.testBit k = (decide (k < c.aw) && v.testBit (max c.w 8 + 70 + k))) ∧
    reqWidth c = 70 + max c.w 8 + c.aw

/-- Decode and encode agree: the request vector of a well-formed command fits the port and decodes to it. -/
def Obligations.DecodeOfEncodeIsTheCommand : Prop :=
  ∀ (c : Config) (i : Instr), i.wellFormed c = true → encode c i < 2 ^ reqWidth c ∧ decode c (encode c i) = .ok i

/-- What is decoded is well formed, has the opcode of the vector, and carries exactly the fields its operand class reads
(R92, R99, R102). -/
def Obligations.DecodedCommandCarriesItsClassFields : Prop :=
  ∀ (c : Config) (v : Nat) (i : Instr), decode c v = .ok i →
    i.wellFormed c = true ∧ i.opcode = BitVec.ofNat 6 v ∧
    (i.operandClass.readsData = true → (encodeRequest i).data = (Request.ofReq c v).data) ∧
    (i.operandClass.readsCnt = true → (encodeRequest i).cnt = (Request.ofReq c v).cnt) ∧
    (i.operandClass.readsIdx = true → (encodeRequest i).idx = (Request.ofReq c v).idx) ∧
    (i.operandClass.readsAddr = true → (encodeRequest i).addr = (Request.ofReq c v).addr)

/-- R96: a request with a reserved `OP` raises `Fault(ILLEGAL_OP)` and has no other effect; a request with any other `OP`
spells a command, whatever its other fields are. -/
def Obligations.ReservedOpcodesFault : Prop :=
  ∀ (s : State) (req : Nat) (rest : List HostInput), s.ready → s.rst = false → s.inputs = .request req :: rest →
    (reservedOpcode (req % 64) →
      step s = .next { s with
        inputs := rest, fault := true, cause := 0x1,
        responses := s.responses ++ [{ ok := false, fault := true, cause := 0x1, data := 0, count := 0 }] }) ∧
    (¬ reservedOpcode (req % 64) → ∃ i, decode s.cfg req = .ok i)

/-- R94: two requests with one `OP` that agree on the fields of its operand class, and there on the bits of DATA that R92 uses,
have the same effect in every state. -/
def Obligations.UnusedRequestFieldsHaveNoEffect : Prop :=
  ∀ (s : State) (v v' : Nat) (i : Instr), decode s.cfg v = .ok i →
    (Request.ofReq s.cfg v).op = (Request.ofReq s.cfg v').op →
    (i.operandClass.readsCnt = true → (Request.ofReq s.cfg v).cnt = (Request.ofReq s.cfg v').cnt) →
    (i.operandClass.readsIdx = true → (Request.ofReq s.cfg v).idx = (Request.ofReq s.cfg v').idx) →
    (i.operandClass.readsAddr = true → (Request.ofReq s.cfg v).addr = (Request.ofReq s.cfg v').addr) →
    (i.operandClass = .d ∨ i.operandClass = .id →
      ∀ k < s.cfg.w, (Request.ofReq s.cfg v).data.testBit k = (Request.ofReq s.cfg v').data.testBit k) →
    (i.operandClass = .dc →
      ∀ k < min 8 (Request.ofReq s.cfg v).cnt.toNat,
        (Request.ofReq s.cfg v).data.testBit k = (Request.ofReq s.cfg v').data.testBit k) →
    serve v s = serve v' s

/-- Sanity: words of spec/95_test_vectors.md section 2.5, read by the decoder. -/
def Obligations.ListedWordsDecode : Prop :=
  decodeTableWord 112 0x2941 = some (.eqPush 0xA5) ∧
  decodeTableWord 112 0xC00000001FC8 = some (.eqSet 3 0x7F) ∧
  decodeTableWord 112 0x3FFFFFFFC00000000007 = some (.eqGet 0xFFFFFFFF) ∧
  decodeTableWord 112 0x102D1 = some (.bqPush8 11 4) ∧
  decodeTableWord 112 0x2000000004000000040017 = some (.bqGet 16 16 0x80) ∧
  decodeTableWord 112 0x37AB6FBBC0000000000000030014 = some (.bqFpushm 12 0xDEADBEEF) ∧
  decodeTableWord 8 0x34 = some .bqFull ∧
  decodeTableWord 8 0x00 = none

/-- The response record `RSP = {COUNT, DATA, CAUSE, FAULT, OK}` has each field at the bits R97 gives it, `W + 38` bits in all. -/
def Obligations.ResponseFieldsAreTheirBits : Prop :=
  ∀ (c : Config) (r : Response), r.wf c →
    (r.toRsp c).testBit 0 = r.ok ∧ (r.toRsp c).testBit 1 = r.fault ∧
    (∀ k < 4, (r.toRsp c).testBit (2 + k) = r.cause.getLsbD k) ∧
    (∀ k < c.w, (r.toRsp c).testBit (6 + k) = r.data.testBit k) ∧
    (∀ k < 32, (r.toRsp c).testBit (c.w + 6 + k) = r.count.testBit k) ∧
    r.toRsp c < 2 ^ (c.w + 38)

/-! ## The machine: steps, reset, faults -/

/-- The state after reset meets the invariant and performs commands (R39, R48). The configuration and the memory contents of
`State.reset` are the model's choice (assumptions 1, 4 and 5). -/
def Obligations.ResetStateMeetsTheInvariant : Prop :=
  State.reset.Inv ∧ State.reset.ready ∧ State.reset.sizeE = 0 ∧ State.reset.sizeB = 0 ∧
    State.reset.headE = 0 ∧ State.reset.headB = 0 ∧ State.reset.cause = 0

/-- Every step keeps the invariant (R39, R49, R98): it holds of every state a run reaches from a state that meets it. -/
def Obligations.EveryStepKeepsTheInvariant : Prop :=
  ∀ s t : State, s.Inv → step s = .next t → t.Inv

/-- From a state that meets the invariant every step answers a next state, but for a host write to an address HM does not have: so
every accepted command completes (R332). Two clauses are the model's choice: that the host write outside HM stops (assumption
13), and that with no action to come, the absence R332 excepts, the step answers the same state (assumption 14). -/
def Obligations.EveryStepAnswersButForStrayHostWrites : Prop :=
  ∀ s : State, s.Inv →
    (∀ addr value rest, s.inputs = .writeHM addr value :: rest → addr < s.cfg.hmSize) → ∃ t, step s = .next t

/-- A step whose next host action is a request that decodes runs the command on the state without that action, and nothing else. -/
def Obligations.StepRunsTheDecodedCommand : Prop :=
  ∀ (s : State) (req : Nat) (rest : List HostInput) (i : Instr),
    s.cfg.legal = true → s.rst = false → s.inputs = .request req :: rest → decode s.cfg req = .ok i →
    step s = exec i { s with inputs := rest }

/-- With no host action to come the block holds all its state (R306, U20, assumption 14). -/
def Obligations.IdleBlockHoldsItsState : Prop :=
  ∀ s : State, s.cfg.legal = true → s.inputs = [] → step s = .next s

/-- R11: a configuration outside the bounds of R10 is refused, in every step and every command. -/
def Obligations.IllegalConfigurationsAreRefused : Prop :=
  ∀ s : State,
    (s.cfg.cB < 2 ∨ s.cfg.cE < 1 ∨ 2 ^ 32 < s.cfg.cE + 1 ∨ 2 ^ 32 < s.cfg.cB + 1 ∨ s.cfg.w < 1 ∨ s.cfg.aw < 1 ∨
      32 < s.cfg.aw ∨ 2 ^ s.cfg.aw < s.cfg.hmSize) →
    step s = .refused .illegalConfiguration ∧ ∀ i, exec i s = .refused .illegalConfiguration

/-- The model's own stop (assumption 10): with a register outside its legal values every command of a block that is not faulted
stops, and so R49's unreachable encodings have no behaviour. -/
def Obligations.UnreachableRegisterValuesStop : Prop :=
  ∀ (s : State) (i : Instr), s.cfg.legal = true → s.fault = false →
    (s.cfg.cE < s.headE ∨ s.cfg.cE < s.tailE ∨ s.cfg.cB < s.headB ∨ s.cfg.cB < s.tailB) →
    exec i s = .fault .indexRange

/-- R37: no step changes the configuration constants. -/
def Obligations.NoStepChangesTheConfiguration : Prop :=
  ∀ s t : State, step s = .next t → t.cfg = s.cfg

/-- R48: reset gives the registers their values and leaves HM as it was, both queues are empty, and `EQM` and `BQM` can hold any
records and bytes whatsoever, the values held before among them. The draw is carried by the reset input (assumption 6). -/
def Obligations.EveryStoreContentIsAResetDraw : Prop :=
  ∀ (s : State) (rest : List HostInput) (E : Memory Nat) (B : Memory Byte), s.Inv →
    Memory.wf unlistedRecord s.cfg.pE E → (∀ x ∈ E, x.2 < 2 ^ s.cfg.w) → Memory.wf unlistedByte s.cfg.nbB B →
    (∃ d : ResetDraw, d.abandoned = none ∧
      step { s with inputs := .assertReset d :: rest } =
        .next { s with
          headE := 0, tailE := 0, headB := 0, tailB := 0, fault := false, cause := 0, eqm := E, bqm := B,
          rst := true, inputs := rest }) ∧
    step { s with inputs := .assertReset { eqm := [], bqm := [], abandoned := none, hm := [] } :: rest } =
      .next { s with
        headE := 0, tailE := 0, headB := 0, tailB := 0, fault := false, cause := 0, rst := true, inputs := rest }

/-- R320: reset at any time, with a command in progress or without: the registers are those of R48, the abandoned command has no
response, and HM changes at most in that command's region. What it leaves there is data of the reset input (assumption 7). In a
faulted block, or with `rst` already asserted, no command is in progress (assumption 23) and HM does not change; that reset
asserted again is a whole reset again is the model's choice (assumption 25). -/
def Obligations.ResetAbandonsTheCommandInProgress : Prop :=
  ∀ (s : State) (d : ResetDraw) (rest : List HostInput), s.cfg.legal = true → s.inputs = .assertReset d :: rest →
    ∃ t, step s = .next t ∧
      t.headE = 0 ∧ t.tailE = 0 ∧ t.headB = 0 ∧ t.tailB = 0 ∧ t.fault = false ∧ t.cause = 0 ∧
      t.sizeE = 0 ∧ t.sizeB = 0 ∧ t.cfg = s.cfg ∧ t.responses = s.responses ∧ t.inputs = rest ∧
      (d.abandoned = none ∨ s.fault = true ∨ s.rst = true → ∀ a, byteAt t.hm a = byteAt s.hm a) ∧
      ∀ req i, d.abandoned = some req → decode s.cfg req = .ok i →
        ∀ a, (a < (s.hmRegion i).1 ∨ (s.hmRegion i).1 + (s.hmRegion i).2 ≤ a) → byteAt t.hm a = byteAt s.hm a

/-- R321: a request while `rst` is asserted is neither performed nor answered; reset and then released, the block is idle and not
faulted, and accepts the next request. -/
def Obligations.RequestsDuringResetAreIgnored : Prop :=
  ∀ (s : State) (rest : List HostInput), s.cfg.legal = true →
    (∀ req, s.rst = true → s.inputs = .request req :: rest → step s = .next { s with inputs := rest }) ∧
    (s.inputs = .releaseReset :: rest → step s = .next { s with inputs := rest, rst := false }) ∧
    (∀ d req, s.inputs = .assertReset d :: .releaseReset :: .request req :: rest →
      ∃ t u, step s = .next t ∧ step t = .next u ∧ u.rst = false ∧ u.fault = false ∧ u.inputs = .request req :: rest ∧
        step u = serve req { u with inputs := rest })

/-- R297: only reset clears `FAULT` and `CAUSE`, and reset leaves both queues empty. -/
def Obligations.OnlyResetLeavesTheFaultedState : Prop :=
  ∀ s t : State, s.fault = true → step s = .next t →
    ((∀ d rest, s.inputs ≠ .assertReset d :: rest) →
      t.fault = true ∧ t.cause = s.cause ∧ t.headE = s.headE ∧ t.tailE = s.tailE ∧ t.headB = s.headB ∧ t.tailB = s.tailB ∧
        t.eqm = s.eqm ∧ t.bqm = s.bqm) ∧
    (∀ d rest, s.inputs = .assertReset d :: rest →
      t.fault = false ∧ t.cause = 0 ∧ t.sizeE = 0 ∧ t.sizeB = 0)

/-- R294: while `FAULT = 1` every request is answered with the faulted response, a reserved `OP` and every command alike, and
nothing else changes. -/
def Obligations.FaultedBlockPerformsNothing : Prop :=
  ∀ (s : State), s.cfg.legal = true → s.fault = true →
    (∀ i, exec i s = .next { s with
      responses := s.responses ++ [{ ok := false, fault := true, cause := s.cause, data := 0, count := 0 }] }) ∧
    (∀ req rest, s.rst = false → s.inputs = .request req :: rest →
      step s = .next { s with
        inputs := rest
        responses := s.responses ++ [{ ok := false, fault := true, cause := s.cause, data := 0, count := 0 }] })

/-- R293, R295: a command or a request that raises a fault sets `FAULT` and `CAUSE`, answers with the faulted response, and leaves
every register, `EQM`, `BQM` and HM exactly as they were. -/
def Obligations.FaultEntryChangesNothingElse : Prop :=
  ∀ (s t : State), s.fault = false → ((∃ i, exec i s = .next t) ∨ ∃ req, serve req s = .next t) → t.fault = true →
    ∃ c : Cause, t = { s with
      fault := true, cause := c.code
      responses := s.responses ++ [{ ok := false, fault := true, cause := c.code, data := 0, count := 0 }] }

/-- R291: which command raises which cause, and when; every other command of a block that performs commands completes without
a fault. -/
def Obligations.CommandsFaultExactlyAsTheCauseTableSays : Prop :=
  ∀ (s : State) (i : Instr), s.ready →
    (∀ c, s.faultOf i = some c → exec i s = .next { s with
      fault := true, cause := c.code
      responses := s.responses ++ [{ ok := false, fault := true, cause := c.code, data := 0, count := 0 }] }) ∧
    (s.faultOf i = none → ∃ t, exec i s = .next t ∧ sameFault s t) ∧
    (∀ req e, decode s.cfg req = .error e → serve req s = .next { s with
      fault := true, cause := 0x1
      responses := s.responses ++ [{ ok := false, fault := true, cause := 0x1, data := 0, count := 0 }] }) ∧
    Cause.illegalOp.code = 0x1 ∧ Cause.eqEmpty.code = 0x2 ∧ Cause.eqIndex.code = 0x3 ∧ Cause.bqCnt8.code = 0x4 ∧
      Cause.hmRange.code = 0x5

/-- R290: the recoverable failures are exactly those of the table; each changes no state and answers `OK = 0`, `FAULT = 0`; a
command that neither fails nor faults answers `OK = 1`, but for the five boolean results. -/
def Obligations.RecoverableFailuresAreExactlyTheTable : Prop :=
  ∀ (s : State) (i : Instr), s.ready →
    (s.failsOn i = true → exec i s = .next { s with
      responses := s.responses ++ [{ ok := false, fault := false, cause := 0, data := 0, count := 0 }] }) ∧
    (s.failsOn i = false → s.faultOf i = none → ¬ booleanResult i →
      ∃ t data count, exec i s = .next t ∧ answered s t true data count)

/-- Every command of every block that can be built completes with exactly one response, which fits its record (R97, R98, R332). -/
def Obligations.EveryCommandIsAnsweredOnce : Prop :=
  ∀ (s : State) (i : Instr), s.Inv →
    ∃ t r, exec i s = .next t ∧ t.responses = s.responses ++ [r] ∧ r.wf s.cfg ∧ t.inputs = s.inputs ∧ t.rst = s.rst

/-- A host write to HM is seen by the next command, and changes that byte alone (R73, R75); an address HM does not have stops
the model (assumption 13). -/
def Obligations.HostWritesLandBeforeTheNextCommand : Prop :=
  ∀ (s : State) (addr : Nat) (value : Byte) (rest : List HostInput), s.Inv → s.inputs = .writeHM addr value :: rest →
    (addr < s.cfg.hmSize → ∃ t, step s = .next t ∧ byteAt t.hm addr = value ∧
      (∀ a, a ≠ addr → byteAt t.hm a = byteAt s.hm a) ∧ t = { s with inputs := rest, hm := t.hm }) ∧
    (s.cfg.hmSize ≤ addr → step s = .fault .hmAddress)

/-! ## Frames and isolation -/

/-- R12: the two units share nothing but the fault state. A command of one unit (`OP[4]`, R91) leaves the other unit's registers and
store alone, and its own effect and response do not depend on them. -/
def Obligations.UnitsShareOnlyTheFaultState : Prop :=
  ∀ (s s' t : State) (i : Instr), s.indexesLegal = true → s'.indexesLegal = true → exec i s = .next t →
    (i.opcode.getLsbD 4 = false → sameButE s t ∧ t.hm = s.hm ∧
      (agreeE s s' → ∃ t', exec i s' = .next t' ∧ agreeE t t')) ∧
    (i.opcode.getLsbD 4 = true → sameButB s t ∧
      (agreeB s s' → ∃ t', exec i s' = .next t' ∧ agreeB t t'))

/-- No command changes a byte of HM outside its region (R65, R187, R334). -/
def Obligations.HostMemoryOutsideTheRegionIsUntouched : Prop :=
  ∀ (s t : State) (i : Instr) (a : Nat), exec i s = .next t →
    (a < (s.hmRegion i).1 ∨ (s.hmRegion i).1 + (s.hmRegion i).2 ≤ a) → byteAt t.hm a = byteAt s.hm a

/-- No command writes a padding bit, or any bit at or above `P_B` (R42, R63, D38). -/
def Obligations.PaddingBitsAreNeverWritten : Prop :=
  ∀ (s t : State) (i : Instr) (q : Nat), s.Inv → exec i s = .next t → s.cfg.pB ≤ q → bitAt t.bqm q = bitAt s.bqm q

/-- Stale content is invisible (R45, R333): from two states that differ only outside the logical contents of the stores, a command
gives the same response and the same observation. So no run can tell one reset draw from another. -/
def Obligations.StaleContentIsInvisible : Prop :=
  ∀ (s s' t : State) (i : Instr), s.Inv → s'.Inv → sameObservation s s' → exec i s = .next t →
    ∃ t', exec i s' = .next t' ∧ sameObservation t t'

/-- The registers fit their widths, and no narrower width holds every legal value (R32 to R35). -/
def Obligations.RegistersFitTheirWidths : Prop :=
  ∀ s : State, s.Inv →
    s.headE < 2 ^ s.cfg.iwE ∧ s.tailE < 2 ^ s.cfg.iwE ∧ s.headB < 2 ^ s.cfg.iwB ∧ s.tailB < 2 ^ s.cfg.iwB ∧
    2 ^ (s.cfg.iwE - 1) ≤ s.cfg.cE ∧ 2 ^ (s.cfg.iwB - 1) ≤ s.cfg.cB

/-- R39: the ring invariants of each unit. -/
def Obligations.RingInvariantsHold : Prop :=
  ∀ s t : State, s.Inv → (t = s ∨ step s = .next t) →
    (t.headE < t.cfg.cE + 1 ∧ t.tailE < t.cfg.cE + 1 ∧ t.sizeE ≤ t.cfg.cE ∧ (t.sizeE = 0 ↔ t.headE = t.tailE) ∧
      (t.fullE = true ↔ t.sizeE = t.cfg.cE) ∧ t.availE + t.sizeE = t.cfg.cE) ∧
    (t.headB < t.cfg.cB + 1 ∧ t.tailB < t.cfg.cB + 1 ∧ t.sizeB ≤ t.cfg.cB ∧ (t.sizeB = 0 ↔ t.headB = t.tailB) ∧
      (t.fullB = true ↔ t.sizeB = t.cfg.cB) ∧ t.availB + t.sizeB = t.cfg.cB)

/-! ## Status queries -/

/-- R260 to R265: the Element Queue queries answer by the formulas of section 3 and change nothing. -/
def Obligations.ElementQueueQueriesAnswer : Prop :=
  ∀ s : State, s.ready →
    exec .eqCap s = .next (s.respond true 0 s.cfg.cE) ∧
    exec .eqSize s = .next (s.respond true 0 ((s.tailE + s.cfg.cE + 1 - s.headE) % (s.cfg.cE + 1))) ∧
    exec .eqAvail s =
      .next (s.respond true 0 (s.cfg.cE - (s.tailE + s.cfg.cE + 1 - s.headE) % (s.cfg.cE + 1))) ∧
    exec .eqEmpty s = .next (s.respond (decide (s.headE = s.tailE)) 0 0) ∧
    exec .eqFull s =
      .next (s.respond (decide ((s.tailE + s.cfg.cE + 1 - s.headE) % (s.cfg.cE + 1) = s.cfg.cE)) 0 0)

/-- R260, R266 to R270: the Bit Queue queries, in bit units. -/
def Obligations.BitQueueQueriesAnswer : Prop :=
  ∀ s : State, s.ready →
    exec .bqCap s = .next (s.respond true 0 s.cfg.cB) ∧
    exec .bqSize s = .next (s.respond true 0 ((s.tailB + s.cfg.cB + 1 - s.headB) % (s.cfg.cB + 1))) ∧
    exec .bqAvail s =
      .next (s.respond true 0 (s.cfg.cB - (s.tailB + s.cfg.cB + 1 - s.headB) % (s.cfg.cB + 1))) ∧
    exec .bqEmpty s = .next (s.respond (decide (s.headB = s.tailB)) 0 0) ∧
    exec .bqFull s =
      .next (s.respond (decide ((s.tailB + s.cfg.cB + 1 - s.headB) % (s.cfg.cB + 1) = s.cfg.cB)) 0 0)

/-- R271: SIZE + AVAIL = CAP, FULL iff SIZE = CAP, EMPTY iff SIZE = 0, and SIZE = 0 after a CLEAR, for both units, each as the
queries of one state answer them. -/
def Obligations.QueryLawsHold : Prop :=
  ∀ s : State, s.ready →
    (∃ cap size avail empty full,
      exec .eqCap s = .next (s.respond true 0 cap) ∧ exec .eqSize s = .next (s.respond true 0 size) ∧
      exec .eqAvail s = .next (s.respond true 0 avail) ∧ exec .eqEmpty s = .next (s.respond empty 0 0) ∧
      exec .eqFull s = .next (s.respond full 0 0) ∧
      size + avail = cap ∧ (full = true ↔ size = cap) ∧ (empty = true ↔ size = 0)) ∧
    (∃ cap size avail empty full,
      exec .bqCap s = .next (s.respond true 0 cap) ∧ exec .bqSize s = .next (s.respond true 0 size) ∧
      exec .bqAvail s = .next (s.respond true 0 avail) ∧ exec .bqEmpty s = .next (s.respond empty 0 0) ∧
      exec .bqFull s = .next (s.respond full 0 0) ∧
      size + avail = cap ∧ (full = true ↔ size = cap) ∧ (empty = true ↔ size = 0)) ∧
    (∃ t, exec .eqClear s = .next t ∧ exec .eqSize t = .next (t.respond true 0 0)) ∧
    (∃ t, exec .bqClear s = .next t ∧ exec .bqSize t = .next (t.respond true 0 0))

/-! ## Element Queue commands -/

/-- R121, R134 (a): a push appends the record `DATA[W-1:0]` at the tail, and fails on a full queue with nothing written. -/
def Obligations.EqPushAppendsTheRecord : Prop :=
  ∀ (s : State) (data : Nat), s.Inv → s.fault = false →
    (s.sizeE = s.cfg.cE → exec (.eqPush data) s = .next (s.respond false 0 0)) ∧
    (s.sizeE ≠ s.cfg.cE → ∃ t, exec (.eqPush data) s = .next t ∧ answered s t true 0 0 ∧ frameE s t ∧
      t.headE = s.headE ∧ t.tailE = (s.tailE + 1) % (s.cfg.cE + 1) ∧
      recordAt t.eqm s.tailE = data % 2 ^ s.cfg.w ∧ (∀ a, a ≠ s.tailE → recordAt t.eqm a = recordAt s.eqm a) ∧
      t.queueE = s.queueE ++ [data % 2 ^ s.cfg.w])

/-- R122, R123, R134 (b): POP and POPA take the oldest record, and the store keeps it; on an empty queue POP fails with `DATA = 0`
and POPA raises `EQ_EMPTY`. -/
def Obligations.EqPopTakesTheOldestRecord : Prop :=
  ∀ (s : State), s.Inv → s.fault = false →
    (s.headE = s.tailE →
      exec .eqPop s = .next (s.respond false 0 0) ∧
      exec .eqPopa s = .next { s with
        fault := true, cause := 0x2
        responses := s.responses ++ [{ ok := false, fault := true, cause := 0x2, data := 0, count := 0 }] }) ∧
    (s.headE ≠ s.tailE → ∃ t v, exec .eqPop s = .next t ∧ exec .eqPopa s = .next t ∧ answered s t true v 0 ∧
      frameE s t ∧ t.headE = (s.headE + 1) % (s.cfg.cE + 1) ∧ t.tailE = s.tailE ∧ t.eqm = s.eqm ∧
      v = recordAt s.eqm s.headE ∧ s.queueE = v :: t.queueE)

/-- R124, R127, R129, R130, R134 (d): PEEK and FRONT read record 0 of the content, BACK its last record, GET record IDX, and none
changes any state but the response; on an empty queue PEEK fails, FRONT and BACK raise `EQ_INDEX`; GET raises it for every
IDX not below the size, compared as a natural. -/
def Obligations.EqReadsReturnQueuedRecords : Prop :=
  ∀ (s : State), s.ready →
    (∀ v, s.queueE.head? = some v →
      exec .eqPeek s = .next (s.respond true v 0) ∧ exec .eqFront s = .next (s.respond true v 0)) ∧
    (∀ v, s.queueE.getLast? = some v → exec .eqBack s = .next (s.respond true v 0)) ∧
    (∀ (idx : BitVec 32) v, s.queueE[idx.toNat]? = some v → exec (.eqGet idx) s = .next (s.respond true v 0)) ∧
    (s.headE = s.tailE → exec .eqPeek s = .next (s.respond false 0 0) ∧
      exec .eqFront s = .next (s.raise .eqIndex) ∧ exec .eqBack s = .next (s.raise .eqIndex)) ∧
    (∀ idx : BitVec 32, s.sizeE ≤ idx.toNat → exec (.eqGet idx) s = .next (s.raise .eqIndex))

/-- R128, R134 (e): SET replaces record IDX of the content and no other record of the store; an IDX not below the size
raises `EQ_INDEX`. -/
def Obligations.EqSetReplacesOneRecord : Prop :=
  ∀ (s : State) (idx : BitVec 32) (data : Nat), s.Inv → s.fault = false →
    (s.sizeE ≤ idx.toNat → exec (.eqSet idx data) s = .next (s.raise .eqIndex)) ∧
    (idx.toNat < s.sizeE → ∃ t, exec (.eqSet idx data) s = .next t ∧ answered s t true 0 0 ∧ frameE s t ∧
      t.headE = s.headE ∧ t.tailE = s.tailE ∧
      (∀ a, recordAt t.eqm a =
        if a = (s.headE + idx.toNat) % (s.cfg.cE + 1) then data % 2 ^ s.cfg.w else recordAt s.eqm a) ∧
      t.queueE = s.queueE.set idx.toNat (data % 2 ^ s.cfg.w))

/-- R126, R134 (c): REMOVE keeps the records that are not equal to the value, in order, counts the others, leaves `HEAD_E`, and
changes no slot but those of the survivors. -/
def Obligations.EqRemoveKeepsTheOtherRecordsInOrder : Prop :=
  ∀ (s : State) (data : Nat), s.Inv → s.fault = false →
    ∃ t, exec (.eqRemove data) s = .next t ∧ frameE s t ∧ t.headE = s.headE ∧
      t.queueE = s.queueE.filter (fun v => decide (v ≠ data % 2 ^ s.cfg.w)) ∧
      answered s t true 0 (s.queueE.count (data % 2 ^ s.cfg.w)) ∧
      t.tailE = (s.headE + t.queueE.length) % (s.cfg.cE + 1) ∧
      ∀ a, (∀ j < t.queueE.length, a ≠ (s.headE + j) % (s.cfg.cE + 1)) → recordAt t.eqm a = recordAt s.eqm a

/-- R131, R132: FIND answers whether some queued record equals the value bit for bit, and changes nothing else. -/
def Obligations.EqFindReportsMembership : Prop :=
  ∀ (s : State) (data : Nat), s.ready →
    exec (.eqFind data) s = .next (s.respond (decide (data % 2 ^ s.cfg.w ∈ s.queueE)) 0 0)

/-- R125, R198: CLEAR sets its unit's head and tail to 0 and changes nothing else: neither store, also under zero on consume. -/
def Obligations.ClearEmptiesItsUnitAlone : Prop :=
  ∀ (s : State), s.ready →
    (exec .eqClear s = .next { s with
      headE := 0, tailE := 0
      responses := s.responses ++ [{ ok := true, fault := false, cause := 0, data := 0, count := 0 }] }) ∧
    (exec .bqClear s = .next { s with
      headB := 0, tailB := 0
      responses := s.responses ++ [{ ok := true, fault := false, cause := 0, data := 0, count := 0 }] })

/-- R133: POP, POPA and CLEAR write no record of `EQM`, and REMOVE leaves every slot it vacates as it was. -/
def Obligations.ElementQueueClearsNoVacatedRecord : Prop :=
  ∀ (s t : State), s.Inv →
    (∀ i, i = .eqPop ∨ i = .eqPopa ∨ i = .eqClear → exec i s = .next t → t.eqm = s.eqm) ∧
    (∀ data, exec (.eqRemove data) s = .next t → ∀ j, t.sizeE ≤ j → j < s.sizeE →
      recordAt t.eqm ((s.headE + j) % (s.cfg.cE + 1)) = recordAt s.eqm ((s.headE + j) % (s.cfg.cE + 1)))

/-! ## Bit Queue commands -/

/-- R191, R192, R200 (a): a push appends its bits, low-order bit first, at the tail; only the bits pushed change in `BQM`, and HM not at
all. PUSH8 takes the low CNT bits of the byte, PUSHM CNT bits of HM from bit 0 of byte ADDR on. Without room it fails and
changes nothing. -/
def Obligations.BqPushAppendsTheBits : Prop :=
  ∀ (s : State) (cnt : BitVec 32), s.Inv → s.fault = false →
    (∀ (i : Instr) (bits : BitString),
      ((∃ data, i = .bqPush8 data cnt ∧ cnt.toNat ≤ 8 ∧ bits = (List.range cnt.toNat).map data.testBit) ∨
        (∃ addr, i = .bqPushm cnt addr ∧ (cnt.toNat = 0 ∨ addr + (cnt.toNat + 7) / 8 ≤ s.cfg.hmSize) ∧
          bits = (List.range cnt.toNat).map (fun j => (byteAt s.hm (addr + j / 8)).getLsbD (j % 8)))) →
      cnt.toNat ≤ s.availB →
      ∃ t, exec i s = .next t ∧ answered s t true 0 0 ∧ frameB s t ∧ t.hm = s.hm ∧
        t.headB = s.headB ∧ t.tailB = (s.tailB + cnt.toNat) % (s.cfg.cB + 1) ∧ t.queueB = s.queueB ++ bits ∧
        ∀ q, ¬ touches s.cfg s.tailB cnt.toNat q → bitAt t.bqm q = bitAt s.bqm q) ∧
    (∀ data, 8 < cnt.toNat → exec (.bqPush8 data cnt) s = .next (s.raise .bqCnt8)) ∧
    (∀ addr, cnt.toNat ≤ s.availB → 0 < cnt.toNat → s.cfg.hmSize < addr + (cnt.toNat + 7) / 8 →
      exec (.bqPushm cnt addr) s = .next (s.raise .hmRange)) ∧
    (∀ data, cnt.toNat ≤ 8 → s.availB < cnt.toNat → exec (.bqPush8 data cnt) s = .next (s.respond false 0 0)) ∧
    (∀ addr, s.availB < cnt.toNat → exec (.bqPushm cnt addr) s = .next (s.respond false 0 0))

/-- R190, R193, R194, R200 (d): a forced push never fails; it keeps the newest `C_B` bits of the old content followed by the new bits,
answers with the number of old bits evicted, and changes `BQM` only at evicted positions under zero on consume and at the
positions it pushes. More than 8 bits of a byte, or a source out of range, raise their fault before any eviction. -/
def Obligations.BqForcePushKeepsTheNewestBits : Prop :=
  ∀ (s : State) (cnt : BitVec 32), s.Inv → s.fault = false →
    (∀ (i : Instr) (bits : BitString),
      ((∃ data, i = .bqFpush8 data cnt ∧ cnt.toNat ≤ 8 ∧ bits = (List.range cnt.toNat).map data.testBit) ∨
        (∃ addr, i = .bqFpushm cnt addr ∧ (cnt.toNat = 0 ∨ addr + (cnt.toNat + 7) / 8 ≤ s.cfg.hmSize) ∧
          bits = (List.range cnt.toNat).map (fun j => (byteAt s.hm (addr + j / 8)).getLsbD (j % 8)))) →
      ∃ t evicted, exec i s = .next t ∧ evicted = min s.sizeB (cnt.toNat - (s.cfg.cB - s.sizeB)) ∧
        answered s t true 0 evicted ∧ frameB s t ∧ t.hm = s.hm ∧
        t.headB = (s.headB + evicted) % (s.cfg.cB + 1) ∧
        t.tailB = (s.tailB + min cnt.toNat s.cfg.cB) % (s.cfg.cB + 1) ∧
        t.queueB = (s.queueB ++ bits).drop (s.sizeB + cnt.toNat - s.cfg.cB) ∧
        ∀ q, ¬ touches s.cfg s.tailB (min cnt.toNat s.cfg.cB) q →
          bitAt t.bqm q = if s.cfg.zoc = true ∧ touches s.cfg s.headB evicted q then false else bitAt s.bqm q) ∧
    (∀ data, 8 < cnt.toNat → exec (.bqFpush8 data cnt) s = .next (s.raise .bqCnt8)) ∧
    (∀ addr, 0 < cnt.toNat → s.cfg.hmSize < addr + (cnt.toNat + 7) / 8 →
      exec (.bqFpushm cnt addr) s = .next (s.raise .hmRange))

/-- R188, R195, R200 (c): DROP discards the `min(CNT, size)` oldest bits and answers their number; under zero on consume exactly the
vacated bits are cleared, and otherwise `BQM` is not written. -/
def Obligations.BqDropDiscardsTheOldestBits : Prop :=
  ∀ (s : State) (cnt : BitVec 32), s.Inv → s.fault = false →
    ∃ t, exec (.bqDrop cnt) s = .next t ∧ answered s t true 0 (min cnt.toNat s.sizeB) ∧ frameB s t ∧ t.hm = s.hm ∧
      t.headB = (s.headB + min cnt.toNat s.sizeB) % (s.cfg.cB + 1) ∧ t.tailB = s.tailB ∧
      t.queueB = s.queueB.drop cnt.toNat ∧ (s.cfg.zoc = false → t.bqm = s.bqm) ∧
      ∀ q, bitAt t.bqm q =
        if s.cfg.zoc = true ∧ touches s.cfg s.headB (min cnt.toNat s.sizeB) q then false else bitAt s.bqm q

/-- R187, R196, R200 (b): POP moves the `k = min(CNT, size)` oldest bits to HM from bit 0 of byte ADDR on and answers `k`; every other bit of HM
keeps its value; the vacated bits are cleared exactly as DROP clears them. A region of `k` bits out of range raises `HM_RANGE`. -/
def Obligations.BqPopMovesTheOldestBitsToHostMemory : Prop :=
  ∀ (s : State) (cnt : BitVec 32) (addr : Nat), s.Inv → s.fault = false →
    ((min cnt.toNat s.sizeB = 0 ∨ addr + (min cnt.toNat s.sizeB + 7) / 8 ≤ s.cfg.hmSize) →
      ∃ t, exec (.bqPop cnt addr) s = .next t ∧ answered s t true 0 (min cnt.toNat s.sizeB) ∧ frameB s t ∧
        t.headB = (s.headB + min cnt.toNat s.sizeB) % (s.cfg.cB + 1) ∧ t.tailB = s.tailB ∧
        s.queueB = hmReadBits addr (min cnt.toNat s.sizeB) t.hm ++ t.queueB ∧
        (∀ q, ¬ (8 * addr ≤ q ∧ q < 8 * addr + min cnt.toNat s.sizeB) → bitAt t.hm q = bitAt s.hm q) ∧
        (∀ q, bitAt t.bqm q =
          if s.cfg.zoc = true ∧ touches s.cfg s.headB (min cnt.toNat s.sizeB) q then false else bitAt s.bqm q)) ∧
    (0 < min cnt.toNat s.sizeB → s.cfg.hmSize < addr + (min cnt.toNat s.sizeB + 7) / 8 →
      exec (.bqPop cnt addr) s = .next (s.raise .hmRange))

/-- R197, R200 (e): GET copies CNT queued bits from logical offset IDX to HM and changes no other bit of HM and nothing of the queue;
it fails iff `IDX + CNT` is more than the size, on naturals; then the region is checked. -/
def Obligations.BqGetCopiesQueuedBits : Prop :=
  ∀ (s : State) (idx cnt : BitVec 32) (addr : Nat), s.Inv → s.fault = false →
    (s.sizeB < idx.toNat + cnt.toNat → exec (.bqGet idx cnt addr) s = .next (s.respond false 0 0)) ∧
    (idx.toNat + cnt.toNat ≤ s.sizeB → 0 < cnt.toNat → s.cfg.hmSize < addr + (cnt.toNat + 7) / 8 →
      exec (.bqGet idx cnt addr) s = .next (s.raise .hmRange)) ∧
    (idx.toNat + cnt.toNat ≤ s.sizeB → (cnt.toNat = 0 ∨ addr + (cnt.toNat + 7) / 8 ≤ s.cfg.hmSize) →
      ∃ t, exec (.bqGet idx cnt addr) s = .next t ∧ answered s t true 0 cnt.toNat ∧ frameB s t ∧
        t.headB = s.headB ∧ t.tailB = s.tailB ∧ t.bqm = s.bqm ∧
        hmReadBits addr cnt.toNat t.hm = (s.queueB.drop idx.toNat).take cnt.toNat ∧
        ∀ q, ¬ (8 * addr ≤ q ∧ q < 8 * addr + cnt.toNat) → bitAt t.hm q = bitAt s.hm q)

/-- R199: CLEAR and GET leave `BQM` as it is; DROP and POP leave it as it is with `ZOC = 0`, and clear every bit they vacate with
`ZOC = 1`. Of all commands, none takes a bit of `BQM` from 1 to 0 but by eviction with `ZOC = 1`, at a position that the command
vacates, or by a push, at a position where the bit pushed is 0. -/
def Obligations.OnlyEvictionAndPushedZerosClearBits : Prop :=
  ∀ (s t : State) (i : Instr), s.Inv → exec i s = .next t →
    ((i = .bqClear ∨ ∃ idx cnt addr, i = .bqGet idx cnt addr) → t.bqm = s.bqm) ∧
    ((∃ cnt, i = .bqDrop cnt ∨ ∃ addr, i = .bqPop cnt addr) →
      (s.cfg.zoc = false → t.bqm = s.bqm) ∧
      (s.cfg.zoc = true → ∀ q, touches s.cfg s.headB (s.sizeB - t.sizeB) q → bitAt t.bqm q = false)) ∧
    ∀ q, bitAt s.bqm q = true → bitAt t.bqm q = false →
      (s.cfg.zoc = true ∧ touches s.cfg s.headB (s.evictedBits i) q) ∨
      ∃ j, q = adv s.cfg.pB s.tailB j ∧ (keptBits s.cfg (s.pushedBits i))[j]? = some false

/-- R185, R331: every chunk has 1 to 8 bits, lies inside one byte, does not cross the wrap; the lengths sum to `n`; each chunk starts
where the one before it ends; a chunk shorter than 8 bits is the first, or ends at the wrap, or is the last; there are at most
`ceil(n/8) + 2` chunks. -/
def Obligations.ChunksStayInsideBytesAndTheRing : Prop :=
  ∀ P p0 n : Nat, p0 < P → n < P →
    (∀ x ∈ chunks P p0 n, 1 ≤ x.2 ∧ x.2 ≤ 8 ∧ x.1 % 8 + x.2 ≤ 8 ∧ x.1 + x.2 ≤ P) ∧
    ((chunks P p0 n).map Prod.snd).sum = n ∧
    (∀ j x, (chunks P p0 n)[j]? = some x →
      x.1 = (p0 + (((chunks P p0 n).map Prod.snd).take j).sum) % P ∧
      (x.2 < 8 → j = 0 ∨ x.1 + x.2 = P ∨ j + 1 = (chunks P p0 n).length)) ∧
    (chunks P p0 n).length ≤ (n + 7) / 8 + 2

/-- R200 (f): a bit sequence pushed by any sequence of push calls, one-byte and multi-byte, and then popped by any sequence of POP calls to
disjoint regions, comes back unchanged. The pop sizes sum to the bits pushed; what a POP that asks for more than is queued does is
in `BqPopMovesTheOldestBitsToHostMemory`. -/
def Obligations.ChunkingIndependence : Prop :=
  ∀ (s : State) (pushes : List PushCall) (pops : List (BitVec 32 × Nat)), s.Inv → s.fault = false → s.sizeB = 0 →
    (∀ p ∈ pushes, p.legal s.cfg) → ((pushes.map (·.bits s.hm)).flatten.length ≤ s.cfg.cB) →
    (pops.map (·.1.toNat)).sum = (pushes.map (·.bits s.hm)).flatten.length →
    (∀ r ∈ pops, r.1.toNat = 0 ∨ r.2 + ceilDiv8 r.1.toNat ≤ s.cfg.hmSize) →
    (pops.Pairwise (fun a b => a.1.toNat = 0 ∨ b.1.toNat = 0 ∨
      a.2 + ceilDiv8 a.1.toNat ≤ b.2 ∨ b.2 + ceilDiv8 b.1.toNat ≤ a.2)) →
    ∃ t, runCommands (pushes.map (·.instr) ++ pops.map (fun r => .bqPop r.1 r.2)) s = some t ∧
      t.fault = false ∧ t.sizeB = 0 ∧
      (pops.map (fun r => hmReadBits r.2 r.1.toNat t.hm)).flatten = (pushes.map (·.bits s.hm)).flatten

/-- R69: a query, PEEK, GET, FRONT, BACK or FIND, or BQ.GET, repeated at once answers the same and has no cumulative effect. -/
def Obligations.ReadsHaveNoCumulativeEffect : Prop :=
  ∀ (s t : State) (i : Instr), s.Inv → s.fault = false →
    (i.opcode.getLsbD 5 = true ∨ i = .eqPeek ∨ (∃ idx, i = .eqGet idx) ∨ i = .eqFront ∨ i = .eqBack ∨
      (∃ data, i = .eqFind data) ∨ ∃ idx cnt addr, i = .bqGet idx cnt addr) →
    exec i s = .next t →
    ∃ r, t.responses = s.responses ++ [r] ∧ exec i t = .next { t with responses := t.responses ++ [r] }

/-- R101: the pseudo-commands are the commands they expand to; `bq.discard` empties the queue and answers how many bits it held, and
`bq.peek` reads the oldest bits without consuming them. -/
def Obligations.PseudoCommandsExpand : Prop :=
  (∀ d, Instr.bqPushbyte d = .bqPush8 d 8 ∧ Instr.bqFpushbyte d = .bqFpush8 d 8) ∧
  (∀ cnt addr, Instr.bqPeek cnt addr = .bqGet 0 cnt addr) ∧ Instr.bqDiscard = .bqDrop 0xFFFFFFFF ∧
  (∀ s : State, s.Inv → s.fault = false →
    (∃ t, exec Instr.bqDiscard s = .next t ∧ t.sizeB = 0 ∧ answered s t true 0 s.sizeB) ∧
    (∀ (cnt : BitVec 32) addr, cnt.toNat ≤ s.sizeB → addr + ceilDiv8 cnt.toNat ≤ s.cfg.hmSize →
      ∃ t, exec (Instr.bqPeek cnt addr) s = .next t ∧ t.queueB = s.queueB ∧
        hmReadBits addr cnt.toNat t.hm = s.queueB.take cnt.toNat))

/-- R200 (a) to (e) and (g): a command that neither fails nor faults takes the content `Q` to the `Q'` of `State.contentAfterB`. POP
writes to HM exactly the bits it takes, GET the bits it reads, DROP, POP and a forced push answer the number of bits that left,
and the invariants are kept. A command of the other unit leaves `Q` as it is. R200 (f) is `ChunkingIndependence`. -/
def Obligations.BitQueueFollowsItsFifoLaws : Prop :=
  ∀ (s : State) (i : Instr), s.Inv → s.fault = false → s.faultOf i = none → s.failsOn i = false →
    ∃ t, exec i s = .next t ∧ t.queueB = s.contentAfterB i ∧ t.Inv ∧
      ((∃ data cnt, i = .bqPush8 data cnt ∨ i = .bqFpush8 data cnt) ∨
        (∃ cnt addr, i = .bqPushm cnt addr ∨ i = .bqFpushm cnt addr ∨ i = .bqPop cnt addr) ∨ (∃ cnt, i = .bqDrop cnt) →
        answered s t true 0 (s.evictedBits i)) ∧
      (∀ cnt addr, i = .bqPop cnt addr → s.queueB = hmReadBits addr (s.evictedBits i) t.hm ++ t.queueB) ∧
      (∀ idx cnt addr, i = .bqGet idx cnt addr →
        answered s t true 0 cnt.toNat ∧ t.headB = s.headB ∧ t.tailB = s.tailB ∧ t.bqm = s.bqm ∧
        hmReadBits addr cnt.toNat t.hm = (s.queueB.drop idx.toNat).take cnt.toNat)
end

