-- ==== Sys2Proof/Laws/Memory.lean ====
section
/-! SUPPORT. Sys2Proof/Laws/Memory.lean: a read after a write, and that every memory operation keeps the canonical form. -/

namespace Sys2Proof.Machine

variable {α : Type} [DecidableEq α] {z : α} {size : Nat}

/-- The addresses rise strictly. -/
abbrev Memory.Sorted (m : Memory α) : Prop := m.Pairwise (fun c d => c.1 < d.1)

omit [DecidableEq α] in
theorem Memory.read_eq_unlisted {m : Memory α} {a : Nat} (h : ∀ c ∈ m, c.1 ≠ a) : Memory.read z m a = z := by
  induction m with
  | nil => rfl
  | cons c m ih =>
    simp only [Memory.read]
    rw [if_neg (h c (by simp)), ih fun d hd => h d (by simp [hd])]

omit [DecidableEq α] in
theorem Memory.read_below {m : Memory α} {a : Nat} (h : ∀ c ∈ m, a < c.1) : Memory.read z m a = z :=
  Memory.read_eq_unlisted fun c hc => (h c hc).ne'

/-- A write leaves every other unit alone. -/
theorem Memory.read_write_other {m : Memory α} {a b : Nat} {v : α} (h : b ≠ a) :
    Memory.read z (Memory.write z m a v) b = Memory.read z m b := by
  induction m with
  | nil => simp only [Memory.write]; split <;> simp [Memory.read, h.symm]
  | cons c m ih =>
    obtain ⟨k, x⟩ := c
    simp only [Memory.write]
    split
    · split <;> simp [Memory.read, h.symm]
    · split
      · rename_i hk
        subst hk
        split <;> simp [Memory.read, h.symm]
      · simp [Memory.read, ih]

/-- A read after a write to the same unit gives the value written. -/
theorem Memory.read_write_same {m : Memory α} {a : Nat} {v : α} (hm : m.Sorted) :
    Memory.read z (Memory.write z m a v) a = v := by
  induction m with
  | nil => simp only [Memory.write]; split <;> simp_all [Memory.read]
  | cons c m ih =>
    obtain ⟨k, x⟩ := c
    obtain ⟨hk, hm⟩ := List.pairwise_cons.1 hm
    simp only [Memory.write]
    split
    · rename_i hlt
      split
      · rename_i hv
        subst hv
        refine Memory.read_below fun d hd => ?_
        rcases List.mem_cons.1 hd with rfl | hd
        · exact hlt
        · exact hlt.trans (hk d hd)
      · simp [Memory.read]
    · split
      · rename_i hak
        subst hak
        split
        · rename_i hv
          subst hv
          exact Memory.read_below fun d hd => hk d hd
        · simp [Memory.read]
      · rename_i hne
        simp [Memory.read, Ne.symm hne, ih hm]

theorem Memory.read_write {m : Memory α} {a b : Nat} {v : α} (hm : m.Sorted) :
    Memory.read z (Memory.write z m a v) b = if b = a then v else Memory.read z m b := by
  split
  · rename_i h
    rw [h, Memory.read_write_same hm]
  · rename_i h
    exact Memory.read_write_other h

/-- What a write can list: what was listed before, or the value written. -/
theorem Memory.mem_write {m : Memory α} {a : Nat} {v : α} {c : Nat × α} (hc : c ∈ Memory.write z m a v) :
    c ∈ m ∨ (c = (a, v) ∧ v ≠ z) := by
  induction m with
  | nil => simp only [Memory.write] at hc; split at hc <;> simp_all
  | cons d m ih =>
    obtain ⟨k, x⟩ := d
    simp only [Memory.write] at hc
    split at hc
    · split at hc
      · exact .inl hc
      · rcases List.mem_cons.1 hc with rfl | hc
        · exact .inr ⟨rfl, ‹_›⟩
        · exact .inl hc
    · split at hc
      · split at hc
        · exact .inl (List.mem_cons_of_mem _ hc)
        · rcases List.mem_cons.1 hc with rfl | hc
          · exact .inr ⟨rfl, ‹_›⟩
          · exact .inl (List.mem_cons_of_mem _ hc)
      · rcases List.mem_cons.1 hc with rfl | hc
        · exact .inl (by simp)
        · exact (ih hc).imp_left (List.mem_cons_of_mem _)

theorem Memory.sorted_write {m : Memory α} {a : Nat} {v : α} (hm : m.Sorted) : (Memory.write z m a v).Sorted := by
  induction m with
  | nil => simp only [Memory.write]; split <;> simp [Memory.Sorted]
  | cons d m ih =>
    obtain ⟨k, x⟩ := d
    obtain ⟨hk, hm'⟩ := List.pairwise_cons.1 hm
    simp only [Memory.write]
    split
    · rename_i hlt
      split
      · exact hm
      · refine List.pairwise_cons.2 ⟨fun c hc => ?_, hm⟩
        rcases List.mem_cons.1 hc with rfl | hc
        · exact hlt
        · exact hlt.trans (hk c hc)
    · split
      · rename_i h
        subst h
        split
        · exact hm'
        · exact List.pairwise_cons.2 ⟨hk, hm'⟩
      · refine List.pairwise_cons.2 ⟨fun c hc => ?_, ih hm'⟩
        rcases Memory.mem_write hc with hc | ⟨rfl, -⟩
        · exact hk c hc
        · simp only; omega

/-- A write inside the space keeps the canonical form. -/
theorem Memory.wf_write {m : Memory α} {a : Nat} {v : α} (ha : a < size) (hm : Memory.wf z size m) :
    Memory.wf z size (Memory.write z m a v) := by
  refine ⟨Memory.sorted_write hm.1, fun c hc => ?_⟩
  rcases Memory.mem_write hc with hc | ⟨rfl, hv⟩
  · exact hm.2 c hc
  · exact ⟨hv, ha⟩

/-- An overlay inside the space keeps the canonical form. -/
theorem Memory.wf_overlay {m : Memory α} {cells : List (Nat × α)} (hc : ∀ c ∈ cells, c.1 < size)
    (hm : Memory.wf z size m) : Memory.wf z size (Memory.overlay z m cells) := by
  induction cells generalizing m with
  | nil => exact hm
  | cons c cells ih =>
    exact ih (fun d hd => hc d (by simp [hd])) (Memory.wf_write (hc c (by simp)) hm)

theorem Memory.mem_overlay {m : Memory α} {cells : List (Nat × α)} {c : Nat × α}
    (hc : c ∈ Memory.overlay z m cells) : c ∈ m ∨ c ∈ cells := by
  induction cells generalizing m with
  | nil => exact .inl hc
  | cons d cells ih =>
    rcases ih hc with h | h
    · rcases Memory.mem_write h with h | ⟨rfl, -⟩
      · exact .inl h
      · exact .inr (by simp)
    · exact .inr (List.mem_cons_of_mem _ h)

/-- An overlay leaves every unit it does not list alone. -/
theorem Memory.read_overlay_other {m : Memory α} {cells : List (Nat × α)} {a : Nat} (h : ∀ c ∈ cells, c.1 ≠ a) :
    Memory.read z (Memory.overlay z m cells) a = Memory.read z m a := by
  induction cells generalizing m with
  | nil => rfl
  | cons c cells ih =>
    rw [Memory.overlay, ih fun d hd => h d (by simp [hd]), Memory.read_write_other (h c (by simp)).symm]

/-- An overlay with no two cells at one address gives each listed unit its value. -/
theorem Memory.read_overlay_listed {m : Memory α} {cells : List (Nat × α)} {a : Nat} {v : α} (hm : m.Sorted)
    (hn : (cells.map Prod.fst).Nodup) (h : (a, v) ∈ cells) : Memory.read z (Memory.overlay z m cells) a = v := by
  induction cells generalizing m with
  | nil => simp at h
  | cons c cells ih =>
    obtain ⟨hc, hn⟩ := List.nodup_cons.1 hn
    rcases List.mem_cons.1 h with rfl | h
    · rw [Memory.overlay, Memory.read_overlay_other, Memory.read_write_same hm]
      exact fun d hd hda => hc (List.mem_map.2 ⟨d, hd, hda⟩)
    · exact ih (Memory.sorted_write hm) hn h

omit [DecidableEq α] in
theorem Memory.read_mem {m : Memory α} {c : Nat × α} (hm : m.Sorted) (hc : c ∈ m) : Memory.read z m c.1 = c.2 := by
  induction m with
  | nil => simp at hc
  | cons d m ih =>
    obtain ⟨hd, hm⟩ := List.pairwise_cons.1 hm
    rcases List.mem_cons.1 hc with rfl | hc
    · simp [Memory.read]
    · simp [Memory.read, (hd c hc).ne, ih hm hc]

omit [DecidableEq α] in
theorem Memory.mem_of_read {m : Memory α} {a : Nat} (h : Memory.read z m a ≠ z) : (a, Memory.read z m a) ∈ m := by
  induction m with
  | nil => exact absurd rfl h
  | cons c m ih =>
    obtain ⟨k, x⟩ := c
    by_cases hk : k = a
    · subst hk
      simp [Memory.read]
    · simp only [Memory.read, if_neg hk] at h ⊢
      exact List.mem_cons_of_mem _ (ih h)

omit [DecidableEq α] in
theorem Memory.mem_iff_read {m : Memory α} (hm : Memory.wf z size m) (c : Nat × α) :
    c ∈ m ↔ Memory.read z m c.1 = c.2 ∧ c.2 ≠ z := by
  refine ⟨fun h => ⟨Memory.read_mem hm.1 h, (hm.2 c h).1⟩, fun ⟨hr, hz⟩ => ?_⟩
  have := Memory.mem_of_read (m := m) (a := c.1) (by rw [hr]; exact hz)
  rwa [hr] at this

omit [DecidableEq α] in
/-- Two canonical spaces that read the same everywhere are the same data. -/
theorem Memory.ext {m m' : Memory α} {size' : Nat} (hm : Memory.wf z size m) (hm' : Memory.wf z size' m')
    (h : ∀ a, Memory.read z m a = Memory.read z m' a) : m = m' := by
  have nodup : ∀ {l : Memory α}, l.Sorted → l.Nodup := fun hl =>
    List.Pairwise.imp (fun hlt he => by rw [he] at hlt; exact lt_irrefl _ hlt) hl
  have hp : m.Perm m' := (List.perm_ext_iff_of_nodup (nodup hm.1) (nodup hm'.1)).2 fun c => by
    rw [Memory.mem_iff_read hm, Memory.mem_iff_read hm', h]
  exact hp.eq_of_pairwise (fun a b _ _ h1 h2 => absurd h1 (not_lt.2 h2.le)) hm.1 hm'.1

end Sys2Proof.Machine
end

