-- ==== Sys2Proof/Laws/Ring.lean ====
section
/-! SUPPORT. Sys2Proof/Laws/Ring.lean: the arithmetic of the ring: `adv` and `ringSize` are inverse to each other on legal values. -/

namespace Sys2Proof.Machine

variable {P p q j k n : Nat}

theorem adv_lt (hP : 0 < P) : adv P p k < P := Nat.mod_lt _ hP

theorem adv_zero (hp : p < P) : adv P p 0 = p := Nat.mod_eq_of_lt hp

theorem adv_adv : adv P (adv P p j) k = adv P p (j + k) := by
  simp [adv, Nat.add_assoc]

theorem adv_of_lt (h : p + k < P) : adv P p k = p + k := Nat.mod_eq_of_lt h

theorem adv_of_ge (h : P ≤ p + k) (hlt : p + k < 2 * P) : adv P p k = p + k - P := by
  rw [adv, Nat.mod_eq_sub_mod h, Nat.mod_eq_of_lt (by omega)]

/-- The step of a cursor by less than a turn, without the remainder. -/
theorem adv_eq (hp : p < P) (hk : k ≤ P) : adv P p k = if p + k < P then p + k else p + k - P := by
  split
  · exact adv_of_lt ‹_›
  · exact adv_of_ge (by omega) (by omega)

theorem ringSize_lt (hP : 0 < P) : ringSize P p q < P := Nat.mod_lt _ hP

/-- The distance from one legal position to another, without the remainder. -/
theorem ringSize_eq (hp : p < P) (hq : q < P) : ringSize P p q = if p ≤ q then q - p else q + P - p := by
  rw [ringSize]
  split
  · rw [Nat.mod_eq_sub_mod (by omega), Nat.mod_eq_of_lt (by omega)]; omega
  · rw [Nat.mod_eq_of_lt (by omega)]

theorem ringSize_adv (hp : p < P) (hk : k < P) : ringSize P p (adv P p k) = k := by
  rw [ringSize_eq hp (adv_lt (by omega)), adv_eq hp hk.le]
  split_ifs <;> omega

theorem adv_ringSize (hp : p < P) (hq : q < P) : adv P p (ringSize P p q) = q := by
  rw [adv_eq hp (ringSize_lt (by omega)).le, ringSize_eq hp hq]
  split_ifs <;> omega

theorem adv_inj (hp : p < P) (hj : j < P) (hk : k < P) (h : adv P p j = adv P p k) : j = k := by
  rw [← ringSize_adv hp hj, h, ringSize_adv hp hk]

theorem ringSize_self (hp : p < P) : ringSize P p p = 0 := by
  rw [ringSize_eq hp hp]; simp

theorem ringSize_eq_zero (hp : p < P) (hq : q < P) : ringSize P p q = 0 ↔ p = q := by
  rw [ringSize_eq hp hq]; split_ifs <;> omega

/-- The distance from a start moved forward by no more than it. -/
theorem ringSize_adv_left (hp : p < P) (hq : q < P) (hk : k ≤ ringSize P p q) :
    ringSize P (adv P p k) q = ringSize P p q - k := by
  have hlt := ringSize_lt (p := p) (q := q) (P := P) (by omega)
  rw [ringSize_eq hp hq] at *
  rw [adv_eq hp (by omega)]
  split_ifs at * <;> rw [ringSize_eq (by omega) hq] <;> split_ifs <;> omega

/-- The distance from a start moved forward past the end: the whole turn that is left. -/
theorem ringSize_adv_past (hp : p < P) (hq : q < P) (hk : ringSize P p q < k) (hkP : k ≤ P) :
    ringSize P (adv P p k) q = ringSize P p q + P - k := by
  rw [ringSize_eq hp hq] at *
  rw [adv_eq hp hkP]
  split_ifs at * <;> rw [ringSize_eq (by omega) hq] <;> split_ifs <;> omega

/-- The distance to an end moved forward without passing the start. -/
theorem ringSize_adv_right (hp : p < P) (hq : q < P) (hk : ringSize P p q + k < P) :
    ringSize P p (adv P q k) = ringSize P p q + k := by
  rw [ringSize_eq hp hq] at *
  rw [adv_eq hq (by split_ifs at hk <;> omega)]
  split_ifs at * <;> rw [ringSize_eq hp (by omega)] <;> split_ifs <;> omega

end Sys2Proof.Machine
end

