-- ==== Sys2Proof/Laws/Bits.lean ====
section
/-! SUPPORT. Sys2Proof/Laws/Bits.lean: what the byte-range helpers, the chunked write and read and the host-memory transfers do, bit by
bit. -/

namespace Sys2Proof.Machine

variable {P p p0 q n L H A : Nat} {s : BitString} {m hm : Memory Byte}

theorem getLsbD_rangeMask (hL : L ≤ H) (q : Nat) :
    (rangeMask L H).getLsbD q = (decide (q < 8) && decide (L ≤ q) && decide (q ≤ H)) := by
  simp only [rangeMask, BitVec.getLsbD_shiftLeft, BitVec.getLsbD_ofNat, Nat.testBit_two_pow_sub_one]
  by_cases h8 : q < 8 <;> by_cases h1 : L ≤ q <;> by_cases h2 : q ≤ H <;> simp [h8, h1, h2] <;> omega

/-- `SetBitRange` changes the bits of the range and no other (R19). -/
theorem getLsbD_setBitRange (b v : Byte) (hL : L ≤ H) (q : Nat) :
    (setBitRange b L H v).getLsbD q = if q < 8 ∧ L ≤ q ∧ q ≤ H then v.getLsbD (q - L) else b.getLsbD q := by
  simp only [setBitRange, BitVec.getLsbD_or, BitVec.getLsbD_and, BitVec.getLsbD_not, BitVec.getLsbD_shiftLeft,
    getLsbD_rangeMask hL]
  by_cases h8 : q < 8 <;> by_cases h1 : L ≤ q <;> by_cases h2 : q ≤ H <;>
    simp [h8, h1, h2, Nat.not_lt.2] <;> simp_all

/-- `GetBitRange` reads the bits of the range (R19). -/
theorem getLsbD_getBitRange (b : Byte) (hL : L ≤ H) (hH : H < 8) (q : Nat) :
    (getBitRange b L H).getLsbD q = (decide (q ≤ H - L) && b.getLsbD (L + q)) := by
  simp only [getBitRange, BitVec.getLsbD_and, BitVec.getLsbD_ushiftRight, BitVec.getLsbD_ofNat,
    Nat.testBit_two_pow_sub_one]
  by_cases h : q ≤ H - L
  · simp [h, Nat.lt_succ_of_le h, show q < 8 by omega]
  · simp [h]

theorem testBit_packBits (s : BitString) (k : Nat) : (packBits s).testBit k = s.getD k false := by
  induction s generalizing k with
  | nil => simp [packBits]
  | cons b s ih =>
    cases k with
    | zero => cases b <;> simp [packBits, Nat.testBit_zero]
    | succ k =>
      have : (b.toNat + 2 * packBits s) / 2 = packBits s := by cases b <;> (simp; try omega)
      rw [packBits, Nat.testBit_succ, this, ih]; simp

theorem packBits_lt (s : BitString) : packBits s < 2 ^ s.length := by
  induction s with
  | nil => simp [packBits]
  | cons b s ih => rw [packBits, List.length_cons, Nat.pow_succ]; cases b <;> simp <;> omega

theorem length_lowBits (c : Nat) (v : Byte) : (lowBits c v).length = c := by simp [lowBits]

theorem getElem_lowBits (c : Nat) (v : Byte) (j : Nat) (h : j < (lowBits c v).length) :
    (lowBits c v)[j] = v.getLsbD j := by simp [lowBits]

theorem byteAt_setByte (h : m.Sorted) (a b : Nat) (v : Byte) :
    byteAt (setByte m a v) b = if b = a then v else byteAt m b := Memory.read_write h

theorem byteAt_setByte_other {a b : Nat} (v : Byte) (h : b ≠ a) : byteAt (setByte m a v) b = byteAt m b :=
  Memory.read_write_other h

theorem sorted_setByte (h : m.Sorted) (a : Nat) (v : Byte) : (setByte m a v).Sorted := Memory.sorted_write h

/-- One masked write inside a byte sets the bits of the chunk and no other. -/
theorem bitAt_setChunk (h : m.Sorted) (c : Nat) (hc : 0 < c) (hp : p % 8 + c ≤ 8) (v : Byte) (q : Nat) :
    bitAt (setByte m (p / 8) (setBitRange (byteAt m (p / 8)) (p % 8) (p % 8 + c - 1) v)) q =
      if p ≤ q ∧ q < p + c then v.getLsbD (q - p) else bitAt m q := by
  unfold bitAt
  rw [byteAt_setByte h]
  by_cases hq : q / 8 = p / 8
  · rw [if_pos hq, getLsbD_setBitRange _ _ (by omega)]
    by_cases hr : p ≤ q ∧ q < p + c
    · rw [if_pos hr, if_pos (by omega)]; congr 1; omega
    · rw [if_neg hr, if_neg (by omega), hq]
  · rw [if_neg hq, if_neg (by omega)]

theorem chunkLen_pos (hp : p < P) {rem : Nat} (hr : 0 < rem) : 0 < chunkLen P p rem := by
  simp only [chunkLen]; omega

theorem chunkLen_le_rem {rem : Nat} : chunkLen P p rem ≤ rem := by simp only [chunkLen]; omega

theorem chunkLen_in_byte {rem : Nat} : p % 8 + chunkLen P p rem ≤ 8 := by simp only [chunkLen]; omega

theorem chunkLen_before_wrap (hp : p < P) {rem : Nat} : p + chunkLen P p rem ≤ P := by simp only [chunkLen]; omega

theorem sorted_writeChunks (cs : List (Nat × Nat)) (h : m.Sorted) : (writeChunks cs s m).Sorted := by
  induction cs generalizing s m with
  | nil => exact h
  | cons c cs ih => obtain ⟨p, c⟩ := c; exact ih (sorted_setByte h _ _)

theorem sorted_bitWrite (h : m.Sorted) : (bitWrite P p0 s m).Sorted := sorted_writeChunks _ h

theorem wf_writeChunks {size : Nat} (cs : List (Nat × Nat)) (hc : ∀ c ∈ cs, c.1 / 8 < size)
    (h : Memory.wf unlistedByte size m) : Memory.wf unlistedByte size (writeChunks cs s m) := by
  induction cs generalizing s m with
  | nil => exact h
  | cons c cs ih =>
    obtain ⟨p, c⟩ := c
    exact ih (fun d hd => hc d (by simp [hd])) (Memory.wf_write (hc (p, c) (by simp)) h)

theorem chunksFrom_start_lt (hp : p < P) {fuel rem : Nat} : ∀ c ∈ chunksFrom P fuel p rem, c.1 < P := by
  induction fuel generalizing p rem with
  | zero => simp [chunksFrom]
  | succ fuel ih =>
    intro c hc
    simp only [chunksFrom] at hc
    split at hc
    · simp at hc
    · rcases List.mem_cons.1 hc with rfl | hc
      · exact hp
      · exact ih (adv_lt (by omega)) c hc

/-- A chunked write keeps the canonical form of `BQM`. -/
theorem wf_bitWrite (hp : p0 < P) (h : Memory.wf unlistedByte (ceilDiv8 P) m) :
    Memory.wf unlistedByte (ceilDiv8 P) (bitWrite P p0 s m) :=
  wf_writeChunks _ (fun c hc => by have := chunksFrom_start_lt hp c hc; simp only [ceilDiv8]; omega) h

theorem bitAt_writeChunks {fuel : Nat} (hp : p < P) (hf : s.length ≤ fuel) (hs : s.length < P) (h : m.Sorted) (q : Nat) :
    bitAt (writeChunks (chunksFrom P fuel p s.length) s m) q =
      if q < P ∧ ringSize P p q < s.length then s.getD (ringSize P p q) false else bitAt m q := by
  induction fuel generalizing p s m with
  | zero => simp [chunksFrom, writeChunks, show s.length = 0 by omega]
  | succ fuel ih =>
    rw [chunksFrom]
    split
    · rename_i h0
      simp [writeChunks, h0]
    · rename_i h0
      have hc1 := chunkLen_pos (rem := s.length) hp (by omega)
      have hc2 := chunkLen_le_rem (P := P) (p := p) (rem := s.length)
      have hc3 := chunkLen_in_byte (P := P) (p := p) (rem := s.length)
      have hc4 := chunkLen_before_wrap hp (rem := s.length)
      generalize chunkLen P p s.length = c at *
      have hl : s.length - c = (s.drop c).length := by simp
      rw [writeChunks, hl, ih (adv_lt (by omega)) (by simp; omega) (by simp; omega) (sorted_setByte h _ _)]
      have hd : (s.drop c).length = s.length - c := by simp
      by_cases hq : q < P
      · have hrs := ringSize_eq hp hq
        have hadv := adv_eq (k := c) hp (by omega)
        have hrs' := ringSize_eq (adv_lt (p := p) (k := c) (P := P) (by omega)) hq
        rw [bitAt_setChunk h c hc1 hc3]
        by_cases hin : p ≤ q ∧ q < p + c
        · rw [if_neg, if_pos hin, if_pos ⟨hq, by rw [hrs, if_pos hin.1]; omega⟩]
          · rw [BitVec.getLsbD_ofNat, testBit_packBits, hrs, if_pos hin.1]
            have : q - p < 8 := by omega
            simp [this, List.getD_eq_getElem?_getD, show q - p < c by omega]
          · rintro ⟨-, hlt⟩
            rw [hd, hrs', hadv] at hlt
            split_ifs at hlt <;> omega
        · rw [if_neg hin]
          have key : ringSize P p q = ringSize P (adv P p c) q + c := by
            rw [hrs, hrs', hadv]
            split_ifs <;> omega
          simp only [key, hd, hq, true_and]
          by_cases hlt : ringSize P (adv P p c) q < s.length - c
          · rw [if_pos hlt, if_pos (by omega)]
            simp [List.getD_eq_getElem?_getD, Nat.add_comm]
          · rw [if_neg hlt, if_neg (by omega)]
      · rw [if_neg (by simp [hq]), if_neg (by simp [hq]), bitAt_setChunk h c hc1 hc3, if_neg (by omega)]

/-- The effect of `BitWrite` (R182): position `adv(p0, j)` receives `s_j`, and every other bit keeps its value. The
logical offset of position `q` from `p0` is `ringSize P p0 q`. -/
theorem bitAt_bitWrite (hp : p0 < P) (hs : s.length < P) (h : m.Sorted) (q : Nat) :
    bitAt (bitWrite P p0 s m) q =
      if q < P ∧ ringSize P p0 q < s.length then s.getD (ringSize P p0 q) false else bitAt m q :=
  bitAt_writeChunks hp le_rfl hs h q

theorem readChunks_chunksFrom {fuel : Nat} (hp : p < P) (hf : n ≤ fuel) :
    readChunks m (chunksFrom P fuel p n) = (List.range n).map (fun j => bitAt m (adv P p j)) := by
  induction fuel generalizing p n with
  | zero => simp [chunksFrom, readChunks, show n = 0 by omega]
  | succ fuel ih =>
    rw [chunksFrom]
    split
    · rename_i h0
      simp [readChunks, h0]
    · rename_i h0
      have hc1 := chunkLen_pos (rem := n) hp (by omega)
      have hc2 := chunkLen_le_rem (P := P) (p := p) (rem := n)
      have hc3 := chunkLen_in_byte (P := P) (p := p) (rem := n)
      have hc4 := chunkLen_before_wrap hp (rem := n)
      generalize chunkLen P p n = c at *
      rw [readChunks, ih (adv_lt (by omega)) (by omega)]
      conv_rhs => rw [show n = c + (n - c) by omega, List.range_add, List.map_append]
      congr 1
      · refine List.ext_getElem (by simp [lowBits]) fun j h1 h2 => ?_
        have hj : j < c := by simpa [lowBits] using h1
        have hadv : adv P p j = p + j := adv_of_lt (by omega)
        rw [getElem_lowBits, getLsbD_getBitRange _ (by omega) (by omega)]
        simp only [List.getElem_map, List.getElem_range, hadv, bitAt]
        rw [show (p + j) / 8 = p / 8 by omega, show (p + j) % 8 = p % 8 + j by omega]
        simp [show j ≤ p % 8 + c - 1 - p % 8 by omega]
      · simp [adv_adv]

/-- The effect of `BitRead` (R183): `s_j = bitAt(adv(p0, j))`. -/
theorem bitRead_eq (hp : p0 < P) : bitRead P p0 n m = (List.range n).map (fun j => bitAt m (adv P p0 j)) :=
  readChunks_chunksFrom hp le_rfl

theorem length_bitRead (hp : p0 < P) : (bitRead P p0 n m).length = n := by simp [bitRead_eq hp]

/-- The bits of a host-memory source are the bits from bit 0 of byte `A` on (R64, R186). -/
theorem hmReadBits_eq : hmReadBits A n hm = (List.range n).map (fun j => bitAt hm (8 * A + j)) := by
  refine List.map_congr_left fun j _ => ?_
  simp only [bitAt]
  rw [show (8 * A + j) / 8 = A + j / 8 by omega, show (8 * A + j) % 8 = j % 8 by omega]

theorem length_hmReadBits : (hmReadBits A n hm).length = n := by simp [hmReadBits]

theorem sorted_hmWriteLoop (k : Nat) (h : hm.Sorted) : (hmWriteLoop k A s hm).Sorted := by
  induction k generalizing A s hm with
  | zero => exact h
  | succ k ih => exact ih (sorted_setByte h _ _)

theorem sorted_hmWriteBits (h : hm.Sorted) : (hmWriteBits A s hm).Sorted := sorted_hmWriteLoop _ h

theorem wf_hmWriteLoop {size : Nat} (k : Nat) (hk : k = 0 ∨ A + k ≤ size) (h : Memory.wf unlistedByte size hm) :
    Memory.wf unlistedByte size (hmWriteLoop k A s hm) := by
  induction k generalizing A s hm with
  | zero => exact h
  | succ k ih => exact ih (by omega) (Memory.wf_write (by omega) h)

/-- A transfer to a region in range keeps the canonical form of HM. -/
theorem wf_hmWriteBits {size : Nat} (hr : s.length = 0 ∨ A + ceilDiv8 s.length ≤ size)
    (h : Memory.wf unlistedByte size hm) : Memory.wf unlistedByte size (hmWriteBits A s hm) := by
  refine wf_hmWriteLoop _ ?_ h
  rcases hr with h0 | hr
  · left; simp [h0, ceilDiv8]
  · exact .inr hr

theorem bitAt_hmWriteLoop (k : Nat) (hk : k = ceilDiv8 s.length) (h : hm.Sorted) (q : Nat) :
    bitAt (hmWriteLoop k A s hm) q =
      if 8 * A ≤ q ∧ q < 8 * A + s.length then s.getD (q - 8 * A) false else bitAt hm q := by
  induction k generalizing A s hm with
  | zero =>
    have : s.length = 0 := by simp only [ceilDiv8] at hk; omega
    simp [hmWriteLoop, this]; intros; omega
  | succ k ih =>
    have hs : 0 < s.length := by by_contra h0; simp [show s.length = 0 by omega, ceilDiv8] at hk
    have hk' : k = ceilDiv8 (s.drop 8).length := by simp only [ceilDiv8, List.length_drop] at *; omega
    have ht : (s.take 8).length = min 8 s.length := by simp
    rw [hmWriteLoop, ih hk' (sorted_setByte h _ _)]
    have key := bitAt_setChunk (p := 8 * A) h (min 8 s.length) (by omega) (by omega)
      (BitVec.ofNat 8 (packBits (s.take 8))) q
    rw [show 8 * A / 8 = A by omega, show 8 * A % 8 = 0 by omega, Nat.zero_add] at key
    rw [ht, key]
    by_cases h1 : 8 * (A + 1) ≤ q ∧ q < 8 * (A + 1) + (s.drop 8).length
    · rw [if_pos h1]
      simp only [List.length_drop] at h1
      rw [if_pos (by omega)]
      simp only [List.getD_eq_getElem?_getD, List.getElem?_drop]
      congr 2; omega
    · rw [if_neg h1]
      simp only [List.length_drop] at h1
      by_cases h2 : 8 * A ≤ q ∧ q < 8 * A + min 8 s.length
      · rw [if_pos h2, if_pos (by omega), BitVec.getLsbD_ofNat, testBit_packBits]
        simp [List.getD_eq_getElem?_getD, show q - 8 * A < 8 by omega]
      · rw [if_neg h2, if_neg (by omega)]

/-- The effect of `HMWriteBits` (R187): bit `j` of the region receives `s_j`, and every other bit of HM keeps its value. -/
theorem bitAt_hmWriteBits (h : hm.Sorted) (q : Nat) :
    bitAt (hmWriteBits A s hm) q =
      if 8 * A ≤ q ∧ q < 8 * A + s.length then s.getD (q - 8 * A) false else bitAt hm q :=
  bitAt_hmWriteLoop _ rfl h q

/-- Bytes outside the region are not touched (R187), whatever the form of the memory. -/
theorem byteAt_hmWriteLoop_outside (k a : Nat) (ha : a < A ∨ A + k ≤ a) : byteAt (hmWriteLoop k A s hm) a = byteAt hm a := by
  induction k generalizing A s hm with
  | zero => rfl
  | succ k ih => rw [hmWriteLoop, ih (by omega), byteAt_setByte_other _ (by omega)]

theorem byteAt_hmWriteBits_outside (a : Nat) (ha : a < A ∨ A + ceilDiv8 s.length ≤ a) :
    byteAt (hmWriteBits A s hm) a = byteAt hm a := byteAt_hmWriteLoop_outside _ a ha

/-- A byte is its eight bits. -/
theorem byteAt_eq_of_bitAt {m m' : Memory Byte} {a : Nat} (h : ∀ k < 8, bitAt m (8 * a + k) = bitAt m' (8 * a + k)) :
    byteAt m a = byteAt m' a := by
  refine BitVec.eq_of_getLsbD_eq fun k hk => ?_
  have := h k hk
  simpa [bitAt, show (8 * a + k) / 8 = a by omega, show (8 * a + k) % 8 = k by omega] using this

/-- Two canonical byte spaces with the same bits are the same data. -/
theorem Memory.ext_bits {m m' : Memory Byte} {size size' : Nat} (h : Memory.wf unlistedByte size m)
    (h' : Memory.wf unlistedByte size' m') (hb : ∀ q, bitAt m q = bitAt m' q) : m = m' :=
  Memory.ext h h' fun _ => byteAt_eq_of_bitAt fun _ _ => hb _

end Sys2Proof.Machine
end

