-- ==== Sys2Proof/Laws/State.lean ====
section
/-! SUPPORT. Sys2Proof/Laws/State.lean: one lemma per field per update, and per field of the operations that are one or two updates. -/

namespace Sys2Proof.Machine

@[simp] theorem State.setHeadE_cfg (s : State) (v : Nat) : (s.setHeadE v).cfg = s.cfg := rfl
@[simp] theorem State.setHeadE_headE (s : State) (v : Nat) : (s.setHeadE v).headE = v := rfl
@[simp] theorem State.setHeadE_tailE (s : State) (v : Nat) : (s.setHeadE v).tailE = s.tailE := rfl
@[simp] theorem State.setHeadE_headB (s : State) (v : Nat) : (s.setHeadE v).headB = s.headB := rfl
@[simp] theorem State.setHeadE_tailB (s : State) (v : Nat) : (s.setHeadE v).tailB = s.tailB := rfl
@[simp] theorem State.setHeadE_fault (s : State) (v : Nat) : (s.setHeadE v).fault = s.fault := rfl
@[simp] theorem State.setHeadE_cause (s : State) (v : Nat) : (s.setHeadE v).cause = s.cause := rfl
@[simp] theorem State.setHeadE_eqm (s : State) (v : Nat) : (s.setHeadE v).eqm = s.eqm := rfl
@[simp] theorem State.setHeadE_bqm (s : State) (v : Nat) : (s.setHeadE v).bqm = s.bqm := rfl
@[simp] theorem State.setHeadE_hm (s : State) (v : Nat) : (s.setHeadE v).hm = s.hm := rfl
@[simp] theorem State.setHeadE_rst (s : State) (v : Nat) : (s.setHeadE v).rst = s.rst := rfl
@[simp] theorem State.setHeadE_inputs (s : State) (v : Nat) : (s.setHeadE v).inputs = s.inputs := rfl
@[simp] theorem State.setHeadE_responses (s : State) (v : Nat) : (s.setHeadE v).responses = s.responses := rfl

@[simp] theorem State.setTailE_cfg (s : State) (v : Nat) : (s.setTailE v).cfg = s.cfg := rfl
@[simp] theorem State.setTailE_headE (s : State) (v : Nat) : (s.setTailE v).headE = s.headE := rfl
@[simp] theorem State.setTailE_tailE (s : State) (v : Nat) : (s.setTailE v).tailE = v := rfl
@[simp] theorem State.setTailE_headB (s : State) (v : Nat) : (s.setTailE v).headB = s.headB := rfl
@[simp] theorem State.setTailE_tailB (s : State) (v : Nat) : (s.setTailE v).tailB = s.tailB := rfl
@[simp] theorem State.setTailE_fault (s : State) (v : Nat) : (s.setTailE v).fault = s.fault := rfl
@[simp] theorem State.setTailE_cause (s : State) (v : Nat) : (s.setTailE v).cause = s.cause := rfl
@[simp] theorem State.setTailE_eqm (s : State) (v : Nat) : (s.setTailE v).eqm = s.eqm := rfl
@[simp] theorem State.setTailE_bqm (s : State) (v : Nat) : (s.setTailE v).bqm = s.bqm := rfl
@[simp] theorem State.setTailE_hm (s : State) (v : Nat) : (s.setTailE v).hm = s.hm := rfl
@[simp] theorem State.setTailE_rst (s : State) (v : Nat) : (s.setTailE v).rst = s.rst := rfl
@[simp] theorem State.setTailE_inputs (s : State) (v : Nat) : (s.setTailE v).inputs = s.inputs := rfl
@[simp] theorem State.setTailE_responses (s : State) (v : Nat) : (s.setTailE v).responses = s.responses := rfl

@[simp] theorem State.setHeadB_cfg (s : State) (v : Nat) : (s.setHeadB v).cfg = s.cfg := rfl
@[simp] theorem State.setHeadB_headE (s : State) (v : Nat) : (s.setHeadB v).headE = s.headE := rfl
@[simp] theorem State.setHeadB_tailE (s : State) (v : Nat) : (s.setHeadB v).tailE = s.tailE := rfl
@[simp] theorem State.setHeadB_headB (s : State) (v : Nat) : (s.setHeadB v).headB = v := rfl
@[simp] theorem State.setHeadB_tailB (s : State) (v : Nat) : (s.setHeadB v).tailB = s.tailB := rfl
@[simp] theorem State.setHeadB_fault (s : State) (v : Nat) : (s.setHeadB v).fault = s.fault := rfl
@[simp] theorem State.setHeadB_cause (s : State) (v : Nat) : (s.setHeadB v).cause = s.cause := rfl
@[simp] theorem State.setHeadB_eqm (s : State) (v : Nat) : (s.setHeadB v).eqm = s.eqm := rfl
@[simp] theorem State.setHeadB_bqm (s : State) (v : Nat) : (s.setHeadB v).bqm = s.bqm := rfl
@[simp] theorem State.setHeadB_hm (s : State) (v : Nat) : (s.setHeadB v).hm = s.hm := rfl
@[simp] theorem State.setHeadB_rst (s : State) (v : Nat) : (s.setHeadB v).rst = s.rst := rfl
@[simp] theorem State.setHeadB_inputs (s : State) (v : Nat) : (s.setHeadB v).inputs = s.inputs := rfl
@[simp] theorem State.setHeadB_responses (s : State) (v : Nat) : (s.setHeadB v).responses = s.responses := rfl

@[simp] theorem State.setTailB_cfg (s : State) (v : Nat) : (s.setTailB v).cfg = s.cfg := rfl
@[simp] theorem State.setTailB_headE (s : State) (v : Nat) : (s.setTailB v).headE = s.headE := rfl
@[simp] theorem State.setTailB_tailE (s : State) (v : Nat) : (s.setTailB v).tailE = s.tailE := rfl
@[simp] theorem State.setTailB_headB (s : State) (v : Nat) : (s.setTailB v).headB = s.headB := rfl
@[simp] theorem State.setTailB_tailB (s : State) (v : Nat) : (s.setTailB v).tailB = v := rfl
@[simp] theorem State.setTailB_fault (s : State) (v : Nat) : (s.setTailB v).fault = s.fault := rfl
@[simp] theorem State.setTailB_cause (s : State) (v : Nat) : (s.setTailB v).cause = s.cause := rfl
@[simp] theorem State.setTailB_eqm (s : State) (v : Nat) : (s.setTailB v).eqm = s.eqm := rfl
@[simp] theorem State.setTailB_bqm (s : State) (v : Nat) : (s.setTailB v).bqm = s.bqm := rfl
@[simp] theorem State.setTailB_hm (s : State) (v : Nat) : (s.setTailB v).hm = s.hm := rfl
@[simp] theorem State.setTailB_rst (s : State) (v : Nat) : (s.setTailB v).rst = s.rst := rfl
@[simp] theorem State.setTailB_inputs (s : State) (v : Nat) : (s.setTailB v).inputs = s.inputs := rfl
@[simp] theorem State.setTailB_responses (s : State) (v : Nat) : (s.setTailB v).responses = s.responses := rfl

@[simp] theorem State.setFault_cfg (s : State) (f : Bool) (c : BitVec 4) : (s.setFault f c).cfg = s.cfg := rfl
@[simp] theorem State.setFault_headE (s : State) (f : Bool) (c : BitVec 4) : (s.setFault f c).headE = s.headE := rfl
@[simp] theorem State.setFault_tailE (s : State) (f : Bool) (c : BitVec 4) : (s.setFault f c).tailE = s.tailE := rfl
@[simp] theorem State.setFault_headB (s : State) (f : Bool) (c : BitVec 4) : (s.setFault f c).headB = s.headB := rfl
@[simp] theorem State.setFault_tailB (s : State) (f : Bool) (c : BitVec 4) : (s.setFault f c).tailB = s.tailB := rfl
@[simp] theorem State.setFault_fault (s : State) (f : Bool) (c : BitVec 4) : (s.setFault f c).fault = f := rfl
@[simp] theorem State.setFault_cause (s : State) (f : Bool) (c : BitVec 4) : (s.setFault f c).cause = c := rfl
@[simp] theorem State.setFault_eqm (s : State) (f : Bool) (c : BitVec 4) : (s.setFault f c).eqm = s.eqm := rfl
@[simp] theorem State.setFault_bqm (s : State) (f : Bool) (c : BitVec 4) : (s.setFault f c).bqm = s.bqm := rfl
@[simp] theorem State.setFault_hm (s : State) (f : Bool) (c : BitVec 4) : (s.setFault f c).hm = s.hm := rfl
@[simp] theorem State.setFault_rst (s : State) (f : Bool) (c : BitVec 4) : (s.setFault f c).rst = s.rst := rfl
@[simp] theorem State.setFault_inputs (s : State) (f : Bool) (c : BitVec 4) : (s.setFault f c).inputs = s.inputs := rfl
@[simp] theorem State.setFault_responses (s : State) (f : Bool) (c : BitVec 4) : (s.setFault f c).responses = s.responses := rfl

@[simp] theorem State.setEqm_cfg (s : State) (m : Memory Nat) : (s.setEqm m).cfg = s.cfg := rfl
@[simp] theorem State.setEqm_headE (s : State) (m : Memory Nat) : (s.setEqm m).headE = s.headE := rfl
@[simp] theorem State.setEqm_tailE (s : State) (m : Memory Nat) : (s.setEqm m).tailE = s.tailE := rfl
@[simp] theorem State.setEqm_headB (s : State) (m : Memory Nat) : (s.setEqm m).headB = s.headB := rfl
@[simp] theorem State.setEqm_tailB (s : State) (m : Memory Nat) : (s.setEqm m).tailB = s.tailB := rfl
@[simp] theorem State.setEqm_fault (s : State) (m : Memory Nat) : (s.setEqm m).fault = s.fault := rfl
@[simp] theorem State.setEqm_cause (s : State) (m : Memory Nat) : (s.setEqm m).cause = s.cause := rfl
@[simp] theorem State.setEqm_eqm (s : State) (m : Memory Nat) : (s.setEqm m).eqm = m := rfl
@[simp] theorem State.setEqm_bqm (s : State) (m : Memory Nat) : (s.setEqm m).bqm = s.bqm := rfl
@[simp] theorem State.setEqm_hm (s : State) (m : Memory Nat) : (s.setEqm m).hm = s.hm := rfl
@[simp] theorem State.setEqm_rst (s : State) (m : Memory Nat) : (s.setEqm m).rst = s.rst := rfl
@[simp] theorem State.setEqm_inputs (s : State) (m : Memory Nat) : (s.setEqm m).inputs = s.inputs := rfl
@[simp] theorem State.setEqm_responses (s : State) (m : Memory Nat) : (s.setEqm m).responses = s.responses := rfl

@[simp] theorem State.setBqm_cfg (s : State) (m : Memory Byte) : (s.setBqm m).cfg = s.cfg := rfl
@[simp] theorem State.setBqm_headE (s : State) (m : Memory Byte) : (s.setBqm m).headE = s.headE := rfl
@[simp] theorem State.setBqm_tailE (s : State) (m : Memory Byte) : (s.setBqm m).tailE = s.tailE := rfl
@[simp] theorem State.setBqm_headB (s : State) (m : Memory Byte) : (s.setBqm m).headB = s.headB := rfl
@[simp] theorem State.setBqm_tailB (s : State) (m : Memory Byte) : (s.setBqm m).tailB = s.tailB := rfl
@[simp] theorem State.setBqm_fault (s : State) (m : Memory Byte) : (s.setBqm m).fault = s.fault := rfl
@[simp] theorem State.setBqm_cause (s : State) (m : Memory Byte) : (s.setBqm m).cause = s.cause := rfl
@[simp] theorem State.setBqm_eqm (s : State) (m : Memory Byte) : (s.setBqm m).eqm = s.eqm := rfl
@[simp] theorem State.setBqm_bqm (s : State) (m : Memory Byte) : (s.setBqm m).bqm = m := rfl
@[simp] theorem State.setBqm_hm (s : State) (m : Memory Byte) : (s.setBqm m).hm = s.hm := rfl
@[simp] theorem State.setBqm_rst (s : State) (m : Memory Byte) : (s.setBqm m).rst = s.rst := rfl
@[simp] theorem State.setBqm_inputs (s : State) (m : Memory Byte) : (s.setBqm m).inputs = s.inputs := rfl
@[simp] theorem State.setBqm_responses (s : State) (m : Memory Byte) : (s.setBqm m).responses = s.responses := rfl

@[simp] theorem State.setHm_cfg (s : State) (m : Memory Byte) : (s.setHm m).cfg = s.cfg := rfl
@[simp] theorem State.setHm_headE (s : State) (m : Memory Byte) : (s.setHm m).headE = s.headE := rfl
@[simp] theorem State.setHm_tailE (s : State) (m : Memory Byte) : (s.setHm m).tailE = s.tailE := rfl
@[simp] theorem State.setHm_headB (s : State) (m : Memory Byte) : (s.setHm m).headB = s.headB := rfl
@[simp] theorem State.setHm_tailB (s : State) (m : Memory Byte) : (s.setHm m).tailB = s.tailB := rfl
@[simp] theorem State.setHm_fault (s : State) (m : Memory Byte) : (s.setHm m).fault = s.fault := rfl
@[simp] theorem State.setHm_cause (s : State) (m : Memory Byte) : (s.setHm m).cause = s.cause := rfl
@[simp] theorem State.setHm_eqm (s : State) (m : Memory Byte) : (s.setHm m).eqm = s.eqm := rfl
@[simp] theorem State.setHm_bqm (s : State) (m : Memory Byte) : (s.setHm m).bqm = s.bqm := rfl
@[simp] theorem State.setHm_hm (s : State) (m : Memory Byte) : (s.setHm m).hm = m := rfl
@[simp] theorem State.setHm_rst (s : State) (m : Memory Byte) : (s.setHm m).rst = s.rst := rfl
@[simp] theorem State.setHm_inputs (s : State) (m : Memory Byte) : (s.setHm m).inputs = s.inputs := rfl
@[simp] theorem State.setHm_responses (s : State) (m : Memory Byte) : (s.setHm m).responses = s.responses := rfl

@[simp] theorem State.setRst_cfg (s : State) (b : Bool) : (s.setRst b).cfg = s.cfg := rfl
@[simp] theorem State.setRst_headE (s : State) (b : Bool) : (s.setRst b).headE = s.headE := rfl
@[simp] theorem State.setRst_tailE (s : State) (b : Bool) : (s.setRst b).tailE = s.tailE := rfl
@[simp] theorem State.setRst_headB (s : State) (b : Bool) : (s.setRst b).headB = s.headB := rfl
@[simp] theorem State.setRst_tailB (s : State) (b : Bool) : (s.setRst b).tailB = s.tailB := rfl
@[simp] theorem State.setRst_fault (s : State) (b : Bool) : (s.setRst b).fault = s.fault := rfl
@[simp] theorem State.setRst_cause (s : State) (b : Bool) : (s.setRst b).cause = s.cause := rfl
@[simp] theorem State.setRst_eqm (s : State) (b : Bool) : (s.setRst b).eqm = s.eqm := rfl
@[simp] theorem State.setRst_bqm (s : State) (b : Bool) : (s.setRst b).bqm = s.bqm := rfl
@[simp] theorem State.setRst_hm (s : State) (b : Bool) : (s.setRst b).hm = s.hm := rfl
@[simp] theorem State.setRst_rst (s : State) (b : Bool) : (s.setRst b).rst = b := rfl
@[simp] theorem State.setRst_inputs (s : State) (b : Bool) : (s.setRst b).inputs = s.inputs := rfl
@[simp] theorem State.setRst_responses (s : State) (b : Bool) : (s.setRst b).responses = s.responses := rfl

@[simp] theorem State.setInputs_cfg (s : State) (xs : List HostInput) : (s.setInputs xs).cfg = s.cfg := rfl
@[simp] theorem State.setInputs_headE (s : State) (xs : List HostInput) : (s.setInputs xs).headE = s.headE := rfl
@[simp] theorem State.setInputs_tailE (s : State) (xs : List HostInput) : (s.setInputs xs).tailE = s.tailE := rfl
@[simp] theorem State.setInputs_headB (s : State) (xs : List HostInput) : (s.setInputs xs).headB = s.headB := rfl
@[simp] theorem State.setInputs_tailB (s : State) (xs : List HostInput) : (s.setInputs xs).tailB = s.tailB := rfl
@[simp] theorem State.setInputs_fault (s : State) (xs : List HostInput) : (s.setInputs xs).fault = s.fault := rfl
@[simp] theorem State.setInputs_cause (s : State) (xs : List HostInput) : (s.setInputs xs).cause = s.cause := rfl
@[simp] theorem State.setInputs_eqm (s : State) (xs : List HostInput) : (s.setInputs xs).eqm = s.eqm := rfl
@[simp] theorem State.setInputs_bqm (s : State) (xs : List HostInput) : (s.setInputs xs).bqm = s.bqm := rfl
@[simp] theorem State.setInputs_hm (s : State) (xs : List HostInput) : (s.setInputs xs).hm = s.hm := rfl
@[simp] theorem State.setInputs_rst (s : State) (xs : List HostInput) : (s.setInputs xs).rst = s.rst := rfl
@[simp] theorem State.setInputs_inputs (s : State) (xs : List HostInput) : (s.setInputs xs).inputs = xs := rfl
@[simp] theorem State.setInputs_responses (s : State) (xs : List HostInput) : (s.setInputs xs).responses = s.responses := rfl

@[simp] theorem State.deliver_cfg (s : State) (r : Response) : (s.deliver r).cfg = s.cfg := rfl
@[simp] theorem State.deliver_headE (s : State) (r : Response) : (s.deliver r).headE = s.headE := rfl
@[simp] theorem State.deliver_tailE (s : State) (r : Response) : (s.deliver r).tailE = s.tailE := rfl
@[simp] theorem State.deliver_headB (s : State) (r : Response) : (s.deliver r).headB = s.headB := rfl
@[simp] theorem State.deliver_tailB (s : State) (r : Response) : (s.deliver r).tailB = s.tailB := rfl
@[simp] theorem State.deliver_fault (s : State) (r : Response) : (s.deliver r).fault = s.fault := rfl
@[simp] theorem State.deliver_cause (s : State) (r : Response) : (s.deliver r).cause = s.cause := rfl
@[simp] theorem State.deliver_eqm (s : State) (r : Response) : (s.deliver r).eqm = s.eqm := rfl
@[simp] theorem State.deliver_bqm (s : State) (r : Response) : (s.deliver r).bqm = s.bqm := rfl
@[simp] theorem State.deliver_hm (s : State) (r : Response) : (s.deliver r).hm = s.hm := rfl
@[simp] theorem State.deliver_rst (s : State) (r : Response) : (s.deliver r).rst = s.rst := rfl
@[simp] theorem State.deliver_inputs (s : State) (r : Response) : (s.deliver r).inputs = s.inputs := rfl
@[simp] theorem State.deliver_responses (s : State) (r : Response) : (s.deliver r).responses = s.responses ++ [r] := rfl

@[simp] theorem State.respond_cfg (s : State) (ok : Bool) (data count : Nat) : (s.respond ok data count).cfg = s.cfg := rfl
@[simp] theorem State.respond_headE (s : State) (ok : Bool) (data count : Nat) : (s.respond ok data count).headE = s.headE := rfl
@[simp] theorem State.respond_tailE (s : State) (ok : Bool) (data count : Nat) : (s.respond ok data count).tailE = s.tailE := rfl
@[simp] theorem State.respond_headB (s : State) (ok : Bool) (data count : Nat) : (s.respond ok data count).headB = s.headB := rfl
@[simp] theorem State.respond_tailB (s : State) (ok : Bool) (data count : Nat) : (s.respond ok data count).tailB = s.tailB := rfl
@[simp] theorem State.respond_fault (s : State) (ok : Bool) (data count : Nat) : (s.respond ok data count).fault = s.fault := rfl
@[simp] theorem State.respond_cause (s : State) (ok : Bool) (data count : Nat) : (s.respond ok data count).cause = s.cause := rfl
@[simp] theorem State.respond_eqm (s : State) (ok : Bool) (data count : Nat) : (s.respond ok data count).eqm = s.eqm := rfl
@[simp] theorem State.respond_bqm (s : State) (ok : Bool) (data count : Nat) : (s.respond ok data count).bqm = s.bqm := rfl
@[simp] theorem State.respond_hm (s : State) (ok : Bool) (data count : Nat) : (s.respond ok data count).hm = s.hm := rfl
@[simp] theorem State.respond_rst (s : State) (ok : Bool) (data count : Nat) : (s.respond ok data count).rst = s.rst := rfl
@[simp] theorem State.respond_inputs (s : State) (ok : Bool) (data count : Nat) : (s.respond ok data count).inputs = s.inputs := rfl
@[simp] theorem State.respond_responses (s : State) (ok : Bool) (data count : Nat) : (s.respond ok data count).responses = s.responses ++ [{ ok := ok, fault := false, cause := 0, data := data, count := count }] := rfl

@[simp] theorem State.raise_cfg (s : State) (c : Cause) : (s.raise c).cfg = s.cfg := rfl
@[simp] theorem State.raise_headE (s : State) (c : Cause) : (s.raise c).headE = s.headE := rfl
@[simp] theorem State.raise_tailE (s : State) (c : Cause) : (s.raise c).tailE = s.tailE := rfl
@[simp] theorem State.raise_headB (s : State) (c : Cause) : (s.raise c).headB = s.headB := rfl
@[simp] theorem State.raise_tailB (s : State) (c : Cause) : (s.raise c).tailB = s.tailB := rfl
@[simp] theorem State.raise_fault (s : State) (c : Cause) : (s.raise c).fault = true := rfl
@[simp] theorem State.raise_cause (s : State) (c : Cause) : (s.raise c).cause = c.code := rfl
@[simp] theorem State.raise_eqm (s : State) (c : Cause) : (s.raise c).eqm = s.eqm := rfl
@[simp] theorem State.raise_bqm (s : State) (c : Cause) : (s.raise c).bqm = s.bqm := rfl
@[simp] theorem State.raise_hm (s : State) (c : Cause) : (s.raise c).hm = s.hm := rfl
@[simp] theorem State.raise_rst (s : State) (c : Cause) : (s.raise c).rst = s.rst := rfl
@[simp] theorem State.raise_inputs (s : State) (c : Cause) : (s.raise c).inputs = s.inputs := rfl
@[simp] theorem State.raise_responses (s : State) (c : Cause) : (s.raise c).responses = s.responses ++ [faultedResponse c.code] := rfl

@[simp] theorem State.answerFaulted_cfg (s : State) : (s.answerFaulted).cfg = s.cfg := rfl
@[simp] theorem State.answerFaulted_headE (s : State) : (s.answerFaulted).headE = s.headE := rfl
@[simp] theorem State.answerFaulted_tailE (s : State) : (s.answerFaulted).tailE = s.tailE := rfl
@[simp] theorem State.answerFaulted_headB (s : State) : (s.answerFaulted).headB = s.headB := rfl
@[simp] theorem State.answerFaulted_tailB (s : State) : (s.answerFaulted).tailB = s.tailB := rfl
@[simp] theorem State.answerFaulted_fault (s : State) : (s.answerFaulted).fault = s.fault := rfl
@[simp] theorem State.answerFaulted_cause (s : State) : (s.answerFaulted).cause = s.cause := rfl
@[simp] theorem State.answerFaulted_eqm (s : State) : (s.answerFaulted).eqm = s.eqm := rfl
@[simp] theorem State.answerFaulted_bqm (s : State) : (s.answerFaulted).bqm = s.bqm := rfl
@[simp] theorem State.answerFaulted_hm (s : State) : (s.answerFaulted).hm = s.hm := rfl
@[simp] theorem State.answerFaulted_rst (s : State) : (s.answerFaulted).rst = s.rst := rfl
@[simp] theorem State.answerFaulted_inputs (s : State) : (s.answerFaulted).inputs = s.inputs := rfl
@[simp] theorem State.answerFaulted_responses (s : State) : (s.answerFaulted).responses = s.responses ++ [faultedResponse s.cause] := rfl

@[simp] theorem State.pushGroup_cfg (s : State) (b : BitString) : (s.pushGroup b).cfg = s.cfg := rfl
@[simp] theorem State.pushGroup_headE (s : State) (b : BitString) : (s.pushGroup b).headE = s.headE := rfl
@[simp] theorem State.pushGroup_tailE (s : State) (b : BitString) : (s.pushGroup b).tailE = s.tailE := rfl
@[simp] theorem State.pushGroup_headB (s : State) (b : BitString) : (s.pushGroup b).headB = s.headB := rfl
@[simp] theorem State.pushGroup_tailB (s : State) (b : BitString) : (s.pushGroup b).tailB = adv s.cfg.pB s.tailB b.length := rfl
@[simp] theorem State.pushGroup_fault (s : State) (b : BitString) : (s.pushGroup b).fault = s.fault := rfl
@[simp] theorem State.pushGroup_cause (s : State) (b : BitString) : (s.pushGroup b).cause = s.cause := rfl
@[simp] theorem State.pushGroup_eqm (s : State) (b : BitString) : (s.pushGroup b).eqm = s.eqm := rfl
@[simp] theorem State.pushGroup_bqm (s : State) (b : BitString) : (s.pushGroup b).bqm = bitWrite s.cfg.pB s.tailB b s.bqm := rfl
@[simp] theorem State.pushGroup_hm (s : State) (b : BitString) : (s.pushGroup b).hm = s.hm := rfl
@[simp] theorem State.pushGroup_rst (s : State) (b : BitString) : (s.pushGroup b).rst = s.rst := rfl
@[simp] theorem State.pushGroup_inputs (s : State) (b : BitString) : (s.pushGroup b).inputs = s.inputs := rfl
@[simp] theorem State.pushGroup_responses (s : State) (b : BitString) : (s.pushGroup b).responses = s.responses := rfl

@[simp] theorem State.copyOut_cfg (s : State) (off n A : Nat) : (s.copyOut off n A).cfg = s.cfg := rfl
@[simp] theorem State.copyOut_headE (s : State) (off n A : Nat) : (s.copyOut off n A).headE = s.headE := rfl
@[simp] theorem State.copyOut_tailE (s : State) (off n A : Nat) : (s.copyOut off n A).tailE = s.tailE := rfl
@[simp] theorem State.copyOut_headB (s : State) (off n A : Nat) : (s.copyOut off n A).headB = s.headB := rfl
@[simp] theorem State.copyOut_tailB (s : State) (off n A : Nat) : (s.copyOut off n A).tailB = s.tailB := rfl
@[simp] theorem State.copyOut_fault (s : State) (off n A : Nat) : (s.copyOut off n A).fault = s.fault := rfl
@[simp] theorem State.copyOut_cause (s : State) (off n A : Nat) : (s.copyOut off n A).cause = s.cause := rfl
@[simp] theorem State.copyOut_eqm (s : State) (off n A : Nat) : (s.copyOut off n A).eqm = s.eqm := rfl
@[simp] theorem State.copyOut_bqm (s : State) (off n A : Nat) : (s.copyOut off n A).bqm = s.bqm := rfl
@[simp] theorem State.copyOut_hm (s : State) (off n A : Nat) : (s.copyOut off n A).hm = hmWriteBits A (bitRead s.cfg.pB (s.posB off) n s.bqm) s.hm := rfl
@[simp] theorem State.copyOut_rst (s : State) (off n A : Nat) : (s.copyOut off n A).rst = s.rst := rfl
@[simp] theorem State.copyOut_inputs (s : State) (off n A : Nat) : (s.copyOut off n A).inputs = s.inputs := rfl
@[simp] theorem State.copyOut_responses (s : State) (off n A : Nat) : (s.copyOut off n A).responses = s.responses := rfl

end Sys2Proof.Machine
end

