-- ==== Sys2Proof/Laws/Ops.lean ====
section
/-! SUPPORT. Sys2Proof/Laws/Ops.lean: what each shared operation does: the checks before a command, fault entry, reset, eviction,
group-wise push, forced push, the compaction loop, and the transfer to host memory. -/

namespace Sys2Proof.Machine

variable {s t : State}

theorem pE_eq (c : Config) : c.pE = c.cE + 1 := rfl
theorem pB_eq (c : Config) : c.pB = c.cB + 1 := rfl
theorem nbB_eq (c : Config) : c.nbB = ceilDiv8 c.pB := rfl

theorem indexesLegal_iff : s.indexesLegal = true ↔
    s.headE < s.cfg.pE ∧ s.tailE < s.cfg.pE ∧ s.headB < s.cfg.pB ∧ s.tailB < s.cfg.pB := by
  simp [State.indexesLegal, and_assoc]

theorem State.Inv.indexesLegal (h : s.Inv) : s.indexesLegal = true :=
  indexesLegal_iff.2 ⟨h.headE, h.tailE, h.headB, h.tailB⟩

theorem State.Inv.ready (h : s.Inv) (hf : s.fault = false) : s.ready := ⟨h.cfgLegal, hf, h.indexesLegal⟩

/-- A block that performs commands performs this one. -/
theorem perform_ready (f : State → State) (h : s.ready) : perform s f = .next (f s) := by
  simp [perform, h.1, h.2.1, h.2.2]

theorem perform_faulted (f : State → State) (hl : s.cfg.legal = true) (hf : s.fault = true) :
    perform s f = .next s.answerFaulted := by
  simp [perform, hl, hf]

theorem perform_illegal (f : State → State) (hl : s.cfg.legal = false) :
    perform s f = .refused .illegalConfiguration := by
  simp [perform, hl]

/-- The two ways a command has a next state: the faulted answer, or the command performed. -/
theorem perform_cases {f : State → State} (h : perform s f = .next t) :
    (s.cfg.legal = true ∧ s.fault = true ∧ t = s.answerFaulted) ∨ (s.ready ∧ t = f s) := by
  unfold perform at h
  split at h
  · rename_i hl
    split at h
    · rename_i hf
      exact .inl ⟨hl, hf, by simpa using h.symm⟩
    · rename_i hf
      split at h
      · rename_i hi
        exact .inr ⟨⟨hl, by simpa using hf, hi⟩, by simpa using h.symm⟩
      · simp at h
  · simp at h

/-- The `n` positions from `p` on, by their offset from `p`. -/
theorem touches_iff {c : Config} {p n q : Nat} (hp : p < c.pB) (hn : n ≤ c.cB) :
    touches c p n q ↔ q < c.pB ∧ ringSize c.pB p q < n := by
  have hP : c.pB = c.cB + 1 := rfl
  constructor
  · rintro ⟨j, hj, rfl⟩
    exact ⟨adv_lt (by omega), by rw [ringSize_adv hp (by omega)]; exact hj⟩
  · rintro ⟨h1, h2⟩
    exact ⟨_, h2, (adv_ringSize hp h1).symm⟩

theorem sizeE_lt (s : State) : s.sizeE < s.cfg.pE := ringSize_lt (by simp [Config.pE])
theorem sizeB_lt (s : State) : s.sizeB < s.cfg.pB := ringSize_lt (by simp [Config.pB])
theorem sizeE_le (s : State) : s.sizeE ≤ s.cfg.cE := Nat.lt_succ_iff.1 (sizeE_lt s)
theorem sizeB_le (s : State) : s.sizeB ≤ s.cfg.cB := Nat.lt_succ_iff.1 (sizeB_lt s)

/-- Fault entry as one record update (R295). -/
theorem State.raise_eq (s : State) (c : Cause) : s.raise c = { s with
    fault := true, cause := c.code
    responses := s.responses ++ [{ ok := false, fault := true, cause := c.code, data := 0, count := 0 }] } := rfl

/-- The range check of R65, as a proposition. -/
theorem hmInRange_iff {c : Config} {A n : Nat} : hmInRange c A n = true ↔ n = 0 ∨ A + ceilDiv8 n ≤ c.hmSize := by
  simp [hmInRange]

/-- A unit with legal registers is empty exactly when its size is 0 (R39). -/
theorem sizeE_eq_zero (h : s.indexesLegal = true) : s.sizeE = 0 ↔ s.headE = s.tailE :=
  ringSize_eq_zero (indexesLegal_iff.1 h).1 (indexesLegal_iff.1 h).2.1

theorem sizeB_eq_zero (h : s.indexesLegal = true) : s.sizeB = 0 ↔ s.headB = s.tailB :=
  ringSize_eq_zero (indexesLegal_iff.1 h).2.2.1 (indexesLegal_iff.1 h).2.2.2

@[simp] theorem length_queueE (s : State) : s.queueE.length = s.sizeE := by simp [State.queueE]
@[simp] theorem length_queueB (s : State) : s.queueB.length = s.sizeB := by simp [State.queueB]

@[simp] theorem State.evict_cfg (s : State) (k : Nat) : (s.evict k).cfg = s.cfg := by unfold State.evict; split <;> rfl
@[simp] theorem State.evict_headE (s : State) (k : Nat) : (s.evict k).headE = s.headE := by unfold State.evict; split <;> rfl
@[simp] theorem State.evict_tailE (s : State) (k : Nat) : (s.evict k).tailE = s.tailE := by unfold State.evict; split <;> rfl
@[simp] theorem State.evict_headB (s : State) (k : Nat) : (s.evict k).headB = adv s.cfg.pB s.headB k := rfl
@[simp] theorem State.evict_tailB (s : State) (k : Nat) : (s.evict k).tailB = s.tailB := by unfold State.evict; split <;> rfl
@[simp] theorem State.evict_fault (s : State) (k : Nat) : (s.evict k).fault = s.fault := by unfold State.evict; split <;> rfl
@[simp] theorem State.evict_cause (s : State) (k : Nat) : (s.evict k).cause = s.cause := by unfold State.evict; split <;> rfl
@[simp] theorem State.evict_eqm (s : State) (k : Nat) : (s.evict k).eqm = s.eqm := by unfold State.evict; split <;> rfl
@[simp] theorem State.evict_hm (s : State) (k : Nat) : (s.evict k).hm = s.hm := by unfold State.evict; split <;> rfl
@[simp] theorem State.evict_rst (s : State) (k : Nat) : (s.evict k).rst = s.rst := by unfold State.evict; split <;> rfl
@[simp] theorem State.evict_inputs (s : State) (k : Nat) : (s.evict k).inputs = s.inputs := by unfold State.evict; split <;> rfl
@[simp] theorem State.evict_responses (s : State) (k : Nat) : (s.evict k).responses = s.responses := by
  unfold State.evict; split <;> rfl
@[simp] theorem State.evict_bqm (s : State) (k : Nat) :
    (s.evict k).bqm = if s.cfg.zoc then bitZero s.cfg.pB s.headB k s.bqm else s.bqm := by unfold State.evict; split <;> rfl

/-- Eviction clears the vacated bits under zero on consume and no other bit (R188, R199). -/
theorem bitAt_evict (hB : s.headB < s.cfg.pB) {k : Nat} (hk : k < s.cfg.pB) (h : s.bqm.Sorted) (q : Nat) :
    bitAt (s.evict k).bqm q =
      if s.cfg.zoc = true ∧ q < s.cfg.pB ∧ ringSize s.cfg.pB s.headB q < k then false else bitAt s.bqm q := by
  rw [State.evict_bqm]
  split
  · rename_i hz
    rw [bitZero, bitAt_bitWrite hB (by simpa [zeros] using hk) h]
    simp only [zeros, List.length_replicate, hz, true_and]
    split
    · simp [List.getD_eq_getElem?_getD, List.getElem?_replicate]; split <;> rfl
    · rfl
  · rename_i hz
    simp [hz]

theorem wf_evict (hB : s.headB < s.cfg.pB) (k : Nat) (h : Memory.wf unlistedByte s.cfg.nbB s.bqm) :
    Memory.wf unlistedByte s.cfg.nbB (s.evict k).bqm := by
  rw [State.evict_bqm]
  split
  · exact wf_bitWrite hB h
  · exact h

/-- Two chunked writes one after the other are one chunked write (R185, R189). -/
theorem bitWrite_append {P p : Nat} {a b : BitString} {m : Memory Byte} (hp : p < P) (hl : a.length + b.length < P)
    (h : Memory.wf unlistedByte (ceilDiv8 P) m) :
    bitWrite P (adv P p a.length) b (bitWrite P p a m) = bitWrite P p (a ++ b) m := by
  have hp' : adv P p a.length < P := adv_lt (by omega)
  refine Memory.ext_bits (wf_bitWrite hp' (wf_bitWrite hp h)) (wf_bitWrite hp h) fun q => ?_
  rw [bitAt_bitWrite hp' (by omega) (sorted_bitWrite h.1), bitAt_bitWrite hp (by omega) h.1,
    bitAt_bitWrite hp (by simp; omega) h.1]
  by_cases hq : q < P
  · simp only [hq, true_and, List.length_append]
    by_cases hd : ringSize P p q < a.length
    · rw [ringSize_adv_past hp hq hd (by omega), if_neg (by omega), if_pos hd, if_pos (by omega)]
      simp [List.getD_eq_getElem?_getD, List.getElem?_append_left hd]
    · rw [ringSize_adv_left hp hq (by omega), if_neg hd]
      by_cases hb : ringSize P p q - a.length < b.length
      · rw [if_pos hb, if_pos (by omega)]
        simp [List.getD_eq_getElem?_getD, List.getElem?_append_right (show a.length ≤ ringSize P p q by omega)]
      · rw [if_neg hb, if_neg (by omega)]
  · simp [hq]

theorem bitWrite_nil {P p : Nat} {m : Memory Byte} : bitWrite P p [] m = m := rfl

theorem pushLoop_eq (k : Nat) (bits : BitString) (s : State) (hk : k = ceilDiv8 bits.length) (hT : s.tailB < s.cfg.pB)
    (hl : bits.length < s.cfg.pB) (h : Memory.wf unlistedByte s.cfg.nbB s.bqm) :
    pushLoop k bits s =
      (s.setBqm (bitWrite s.cfg.pB s.tailB bits s.bqm)).setTailB (adv s.cfg.pB s.tailB bits.length) := by
  induction k generalizing bits s with
  | zero =>
    have : bits = [] := by
      simp only [ceilDiv8] at hk
      exact List.length_eq_zero_iff.1 (by omega)
    subst this
    simp [pushLoop, bitWrite_nil, adv_zero hT, State.setBqm, State.setTailB]
  | succ k ih =>
    have hP : 0 < s.cfg.pB := by simp [Config.pB]
    have hlen : (bits.take 8).length + (bits.drop 8).length = bits.length := by simp; omega
    rw [pushLoop, ih (bits.drop 8) (s.pushGroup (bits.take 8)) (by simp only [ceilDiv8, List.length_drop] at *; omega)
      (by simpa using adv_lt hP) (by simp only [State.pushGroup_cfg, List.length_drop]; omega)
      (wf_bitWrite hT h)]
    simp only [State.pushGroup_cfg, State.pushGroup_tailB, State.pushGroup_bqm]
    rw [bitWrite_append hT (by omega) h, List.take_append_drop, adv_adv, hlen]
    rfl

/-- The effect of `PushGroups` (R189): the bits are written at the tail, and the tail advances by their number. -/
theorem pushGroups_eq {bits : BitString} (hT : s.tailB < s.cfg.pB) (hl : bits.length < s.cfg.pB)
    (h : Memory.wf unlistedByte s.cfg.nbB s.bqm) :
    s.pushGroups bits =
      (s.setBqm (bitWrite s.cfg.pB s.tailB bits s.bqm)).setTailB (adv s.cfg.pB s.tailB bits.length) :=
  pushLoop_eq _ bits s rfl hT hl h

/-- What a group-wise push leaves unchanged, whatever the state. -/
theorem pushLoop_frame (k : Nat) (bits : BitString) (s : State) :
    frameB s (pushLoop k bits s) ∧ (pushLoop k bits s).headB = s.headB ∧ (pushLoop k bits s).hm = s.hm ∧
      (pushLoop k bits s).responses = s.responses := by
  induction k generalizing bits s with
  | zero => simp [pushLoop, frameB, sameButB, sameFault]
  | succ k ih =>
    have := ih (bits.drop 8) (s.pushGroup (bits.take 8))
    simpa [pushLoop, frameB, sameButB, sameFault] using this

@[simp] theorem State.pushGroups_cfg (s : State) (b : BitString) : (s.pushGroups b).cfg = s.cfg := (pushLoop_frame _ b s).1.1.1
@[simp] theorem State.pushGroups_headE (s : State) (b : BitString) : (s.pushGroups b).headE = s.headE :=
  (pushLoop_frame _ b s).1.1.2.1
@[simp] theorem State.pushGroups_tailE (s : State) (b : BitString) : (s.pushGroups b).tailE = s.tailE :=
  (pushLoop_frame _ b s).1.1.2.2.1
@[simp] theorem State.pushGroups_eqm (s : State) (b : BitString) : (s.pushGroups b).eqm = s.eqm :=
  (pushLoop_frame _ b s).1.1.2.2.2.1
@[simp] theorem State.pushGroups_rst (s : State) (b : BitString) : (s.pushGroups b).rst = s.rst :=
  (pushLoop_frame _ b s).1.1.2.2.2.2.1
@[simp] theorem State.pushGroups_inputs (s : State) (b : BitString) : (s.pushGroups b).inputs = s.inputs :=
  (pushLoop_frame _ b s).1.1.2.2.2.2.2
@[simp] theorem State.pushGroups_fault (s : State) (b : BitString) : (s.pushGroups b).fault = s.fault :=
  (pushLoop_frame _ b s).1.2.1
@[simp] theorem State.pushGroups_cause (s : State) (b : BitString) : (s.pushGroups b).cause = s.cause :=
  (pushLoop_frame _ b s).1.2.2
@[simp] theorem State.pushGroups_headB (s : State) (b : BitString) : (s.pushGroups b).headB = s.headB := (pushLoop_frame _ b s).2.1
@[simp] theorem State.pushGroups_hm (s : State) (b : BitString) : (s.pushGroups b).hm = s.hm := (pushLoop_frame _ b s).2.2.1
@[simp] theorem State.pushGroups_responses (s : State) (b : BitString) : (s.pushGroups b).responses = s.responses :=
  (pushLoop_frame _ b s).2.2.2

theorem length_keptBits (c : Config) (bits : BitString) : (keptBits c bits).length = min bits.length c.cB := by
  unfold keptBits
  split
  · simp; omega
  · omega

/-- The clamped count of an eviction never passes the queue (R190). -/
theorem evictedBy_le (s : State) (n : Nat) : s.evictedBy n ≤ s.sizeB := by
  unfold State.evictedBy; split
  · exact min_le_right _ _
  · exact Nat.zero_le _

theorem evictedBy_eq (s : State) (n : Nat) : s.evictedBy n = min s.sizeB (n - s.availB) := by
  unfold State.evictedBy; split <;> omega

/-- What a forced push leaves unchanged, and its answer, whatever the state. -/
theorem forcePush_frame (s : State) (bits : BitString) :
    frameB s (s.forcePush bits) ∧ (s.forcePush bits).hm = s.hm ∧
      answered s (s.forcePush bits) true 0 (s.evictedBy bits.length) := by
  unfold State.forcePush answered
  split <;> simp [frameB, sameButB, sameFault]

/-- What eviction leaves unchanged. -/
theorem evict_frame (s : State) (k : Nat) :
    frameB s (s.evict k) ∧ (s.evict k).tailB = s.tailB ∧ (s.evict k).hm = s.hm ∧ (s.evict k).responses = s.responses := by
  simp [frameB, sameButB, sameFault]

/-- The loop invariant of the compaction (R126). The records still to walk are those of the `n` slots from `r`; the write
cursor `w` is `g` slots behind `r`. The survivors are written one after the other from `w` on, and no other slot changes. -/
theorem compact_spec {P value : Nat} (n g removed : Nat) (w : Nat) (m : Memory Nat) (hw : w < P) (hg : g + n < P)
    (h : m.Sorted) :
    let L := (List.range n).map (fun j => recordAt m (adv P w (g + j)))
    let K := L.filter (fun x => !eqElem x value)
    let out := compact P value n (adv P w g) w removed m
    out.2.1 = adv P w K.length ∧ out.2.2 = removed + (n - K.length) ∧ out.1.Sorted ∧
      ∀ a, recordAt out.1 a =
        if a < P ∧ ringSize P w a < K.length then K.getD (ringSize P w a) 0 else recordAt m a := by
  induction n generalizing g removed w m with
  | zero => simp [compact, adv_zero hw, h]
  | succ n ih =>
    intro L K out
    have hL : L = recordAt m (adv P w g) :: (List.range n).map (fun j => recordAt m (adv P w (g + 1 + j))) := by
      simp only [L, List.range_succ_eq_map, List.map_cons, List.map_map, Nat.add_zero, List.cons.injEq, true_and]
      exact List.map_congr_left fun j _ => by simp [Nat.add_comm, Nat.add_left_comm]
    by_cases he : eqElem (recordAt m (adv P w g)) value = true
    · have hK : K = ((List.range n).map (fun j => recordAt m (adv P w (g + 1 + j)))).filter (fun x => !eqElem x value) := by
        simp only [K, hL]; rw [List.filter_cons_of_neg (by simp [he])]
      have hlen : K.length ≤ n := by rw [hK]; exact (List.length_filter_le _ _).trans (by simp)
      have hout : out = compact P value n (adv P w (g + 1)) w (removed + 1) m := by
        simp only [out, compact, he, if_true, adv_adv]
      obtain ⟨h1, h2, h3, h4⟩ := ih (g + 1) (removed + 1) w m hw (by omega) h
      rw [hout]
      refine ⟨by rw [h1, hK], by rw [h2, ← hK]; omega, h3, fun a => by rw [h4, hK]⟩
    · have he' : eqElem (recordAt m (adv P w g)) value = false := by simpa using he
      let m' := setRecord m w (recordAt m (adv P w g))
      have hm' : m'.Sorted := Memory.sorted_write h
      have hread : ∀ a, recordAt m' a = if a = w then recordAt m (adv P w g) else recordAt m a :=
        fun a => Memory.read_write h
      have hw' : adv P w 1 < P := adv_lt (by omega)
      have htail : (List.range n).map (fun j => recordAt m' (adv P (adv P w 1) (g + j))) =
          (List.range n).map (fun j => recordAt m (adv P w (g + 1 + j))) := by
        refine List.map_congr_left fun j hj => ?_
        rw [adv_adv, show 1 + (g + j) = g + 1 + j by omega, hread, if_neg]
        intro e
        have hj := List.mem_range.1 hj
        have := adv_inj hw (j := g + 1 + j) (k := 0) (by omega) (by omega) (by rw [e, adv_zero hw])
        omega
      have hK : K = recordAt m (adv P w g) ::
          ((List.range n).map (fun j => recordAt m (adv P w (g + 1 + j)))).filter (fun x => !eqElem x value) := by
        simp only [K, hL]; rw [List.filter_cons_of_pos (by simp [he'])]
      have hout : out = compact P value n (adv P (adv P w 1) g) (adv P w 1) removed m' := by
        simp only [out, compact, he', Bool.false_eq_true, if_false, adv_adv, m', Nat.add_comm]
      obtain ⟨h1, h2, h3, h4⟩ := ih g removed (adv P w 1) m' hw' (by omega) hm'
      rw [htail] at h1 h2 h4
      rw [hout]
      refine ⟨by rw [h1, hK, adv_adv]; simp [Nat.add_comm], by rw [h2, hK]; simp, h3, fun a => ?_⟩
      rw [h4, hread, hK]
      set K' := List.filter (fun x => !eqElem x value)
        ((List.range n).map (fun j => recordAt m (adv P w (g + 1 + j)))) with hK'
      have hlen : K'.length ≤ n := by
        have := List.length_filter_le (fun x => !eqElem x value)
          ((List.range n).map (fun j => recordAt m (adv P w (g + 1 + j))))
        simpa [hK'] using this
      clear_value K'
      by_cases ha : a < P
      · simp only [ha, true_and, List.length_cons]
        by_cases haw : a = w
        · have h0 : ringSize P w a = 0 := by rw [haw]; exact ringSize_self hw
          rw [ringSize_adv_past hw ha (by omega) (by omega), h0, if_neg (by omega), if_pos haw, if_pos (by omega)]
          rfl
        · have h1 : 1 ≤ ringSize P w a := by
            have := (ringSize_eq_zero hw ha).not.2 (Ne.symm haw); omega
          rw [ringSize_adv_left hw ha h1, if_neg haw]
          by_cases hd : ringSize P w a - 1 < K'.length
          · rw [if_pos hd, if_pos (by omega)]
            obtain ⟨d, hd'⟩ := Nat.exists_eq_add_of_le' h1
            simp [hd', List.getD_eq_getElem?_getD]
          · rw [if_neg hd, if_neg (by omega)]
      · have : a ≠ w := by omega
        simp [ha, this]

end Sys2Proof.Machine
end

