-- ==== Sys2Proof/Laws/Commands.lean ====
section
/-! SUPPORT. Sys2Proof/Laws/Commands.lean: what each command answers in a block that performs commands (`State.ready`), one lemma per
command; a block that is faulted answers by `exec_faulted`, whatever the command. -/

namespace Sys2Proof.Machine

variable {s t : State}

/-- Every command is the checks of R292 followed by its own effect. -/
theorem exec_perform (i : Instr) : ∃ f : State → State, ∀ s, exec i s = perform s f := by
  cases i <;> exact ⟨_, fun _ => rfl⟩

/-- A faulted block answers every command alike (R294). -/
theorem exec_faulted (i : Instr) (hl : s.cfg.legal = true) (hf : s.fault = true) : exec i s = .next s.answerFaulted := by
  obtain ⟨f, h⟩ := exec_perform i
  rw [h, perform_faulted _ hl hf]

/-- The two ways a command has a next state. -/
theorem exec_cases {i : Instr} (h : exec i s = .next t) :
    (s.cfg.legal = true ∧ s.fault = true ∧ t = s.answerFaulted) ∨ s.ready := by
  obtain ⟨f, hf⟩ := exec_perform i
  rw [hf] at h
  exact (perform_cases h).imp_right And.left

theorem exec_eqPush (data : Nat) (h : s.ready) : exec (.eqPush data) s =
    .next (if s.fullE then s.respond false 0 0
      else
        ((s.setEqm (setRecord s.eqm s.tailE (recordOperand s.cfg data))).setTailE (adv s.cfg.pE s.tailE 1)).respond
          true 0 0) := by
  rw [exec, execEqPush, perform_ready _ h]

theorem exec_eqPop (h : s.ready) : exec .eqPop s =
    .next (if s.emptyE then s.respond false 0 0 else s.popRecord) := by
  rw [exec, execEqPop, perform_ready _ h]

theorem exec_eqPopa (h : s.ready) : exec .eqPopa s =
    .next (if s.emptyE then s.raise .eqEmpty else s.popRecord) := by
  rw [exec, execEqPopa, perform_ready _ h]

theorem exec_eqPeek (h : s.ready) : exec .eqPeek s =
    .next (if s.emptyE then s.respond false 0 0 else s.respond true (recordAt s.eqm s.headE) 0) := by
  rw [exec, execEqPeek, perform_ready _ h]

theorem exec_eqClear (h : s.ready) : exec .eqClear s =
    .next (((s.setHeadE 0).setTailE 0).respond true 0 0) := by
  rw [exec, execEqClear, perform_ready _ h]

theorem exec_eqRemove (data : Nat) (h : s.ready) : exec (.eqRemove data) s =
    .next (let out := compact s.cfg.pE (recordOperand s.cfg data) s.sizeE s.headE s.headE 0 s.eqm
      ((s.setEqm out.1).setTailE out.2.1).respond true 0 out.2.2) := by
  rw [exec, execEqRemove, perform_ready _ h]

theorem exec_eqGet (idx : BitVec 32) (h : s.ready) : exec (.eqGet idx) s =
    .next (if s.sizeE ≤ idx.toNat then s.raise .eqIndex else s.respondRecord idx.toNat) := by
  rw [exec, execEqGet, perform_ready _ h]

theorem exec_eqSet (idx : BitVec 32) (data : Nat) (h : s.ready) : exec (.eqSet idx data) s =
    .next (if s.sizeE ≤ idx.toNat then s.raise .eqIndex
      else (s.setEqm (setRecord s.eqm (s.slotE idx.toNat) (recordOperand s.cfg data))).respond true 0 0) := by
  rw [exec, execEqSet, perform_ready _ h]

theorem exec_eqFront (h : s.ready) : exec .eqFront s =
    .next (if s.sizeE = 0 then s.raise .eqIndex else s.respond true (recordAt s.eqm s.headE) 0) := by
  rw [exec, execEqFront, perform_ready _ h]

theorem exec_eqBack (h : s.ready) : exec .eqBack s =
    .next (if s.sizeE = 0 then s.raise .eqIndex else s.respondRecord (s.sizeE - 1)) := by
  rw [exec, execEqBack, perform_ready _ h]

theorem exec_eqFind (data : Nat) (h : s.ready) : exec (.eqFind data) s =
    .next (s.respond (s.findRecord (recordOperand s.cfg data)) 0 0) := by
  rw [exec, execEqFind, perform_ready _ h]

theorem exec_bqPush8 (data : Nat) (cnt : BitVec 32) (h : s.ready) : exec (.bqPush8 data cnt) s =
    .next (if 8 < cnt.toNat then s.raise .bqCnt8 else if s.availB < cnt.toNat then s.respond false 0 0
      else (s.pushGroups (byteBits data cnt.toNat)).respond true 0 0) := by
  rw [exec, execBqPush8, perform_ready _ h]

theorem exec_bqPushm (cnt : BitVec 32) (addr : Nat) (h : s.ready) : exec (.bqPushm cnt addr) s =
    .next (if s.availB < cnt.toNat then s.respond false 0 0
      else if hmInRange s.cfg addr cnt.toNat then
        (s.pushGroups (s.sourceBits addr cnt.toNat)).respond true 0 0
      else s.raise .hmRange) := by
  rw [exec, execBqPushm, perform_ready _ h]

theorem exec_bqFpush8 (data : Nat) (cnt : BitVec 32) (h : s.ready) : exec (.bqFpush8 data cnt) s =
    .next (if 8 < cnt.toNat then s.raise .bqCnt8 else s.forcePush (byteBits data cnt.toNat)) := by
  rw [exec, execBqFpush8, perform_ready _ h]

theorem exec_bqFpushm (cnt : BitVec 32) (addr : Nat) (h : s.ready) : exec (.bqFpushm cnt addr) s =
    .next (if hmInRange s.cfg addr cnt.toNat then s.forcePush (s.sourceBits addr cnt.toNat)
      else s.raise .hmRange) := by
  rw [exec, execBqFpushm, perform_ready _ h]

theorem exec_bqDrop (cnt : BitVec 32) (h : s.ready) : exec (.bqDrop cnt) s =
    .next ((s.evict (min cnt.toNat s.sizeB)).respond true 0 (min cnt.toNat s.sizeB)) := by
  rw [exec, execBqDrop, perform_ready _ h]

theorem exec_bqPop (cnt : BitVec 32) (addr : Nat) (h : s.ready) : exec (.bqPop cnt addr) s =
    .next (if hmInRange s.cfg addr (min cnt.toNat s.sizeB) then
        ((s.copyOut 0 (min cnt.toNat s.sizeB) addr).evict (min cnt.toNat s.sizeB)).respond
          true 0 (min cnt.toNat s.sizeB)
      else s.raise .hmRange) := by
  rw [exec, execBqPop, perform_ready _ h]

theorem exec_bqGet (idx cnt : BitVec 32) (addr : Nat) (h : s.ready) : exec (.bqGet idx cnt addr) s =
    .next (if s.sizeB < idx.toNat + cnt.toNat then s.respond false 0 0
      else if hmInRange s.cfg addr cnt.toNat then
        (s.copyOut idx.toNat cnt.toNat addr).respond true 0 cnt.toNat
      else s.raise .hmRange) := by
  rw [exec, execBqGet, perform_ready _ h]

theorem exec_bqClear (h : s.ready) : exec .bqClear s =
    .next (((s.setHeadB 0).setTailB 0).respond true 0 0) := by
  rw [exec, execBqClear, perform_ready _ h]

theorem exec_eqCap (h : s.ready) : exec .eqCap s =
    .next (s.respond true 0 s.cfg.cE) := by
  rw [exec, execEqCap, perform_ready _ h]

theorem exec_eqSize (h : s.ready) : exec .eqSize s =
    .next (s.respond true 0 s.sizeE) := by
  rw [exec, execEqSize, perform_ready _ h]

theorem exec_eqAvail (h : s.ready) : exec .eqAvail s =
    .next (s.respond true 0 s.availE) := by
  rw [exec, execEqAvail, perform_ready _ h]

theorem exec_eqEmpty (h : s.ready) : exec .eqEmpty s =
    .next (s.respond s.emptyE 0 0) := by
  rw [exec, execEqEmpty, perform_ready _ h]

theorem exec_eqFull (h : s.ready) : exec .eqFull s =
    .next (s.respond s.fullE 0 0) := by
  rw [exec, execEqFull, perform_ready _ h]

theorem exec_bqCap (h : s.ready) : exec .bqCap s =
    .next (s.respond true 0 s.cfg.cB) := by
  rw [exec, execBqCap, perform_ready _ h]

theorem exec_bqSize (h : s.ready) : exec .bqSize s =
    .next (s.respond true 0 s.sizeB) := by
  rw [exec, execBqSize, perform_ready _ h]

theorem exec_bqAvail (h : s.ready) : exec .bqAvail s =
    .next (s.respond true 0 s.availB) := by
  rw [exec, execBqAvail, perform_ready _ h]

theorem exec_bqEmpty (h : s.ready) : exec .bqEmpty s =
    .next (s.respond s.emptyB 0 0) := by
  rw [exec, execBqEmpty, perform_ready _ h]

theorem exec_bqFull (h : s.ready) : exec .bqFull s =
    .next (s.respond s.fullB 0 0) := by
  rw [exec, execBqFull, perform_ready _ h]

end Sys2Proof.Machine
end

