-- ==== Sys2Proof/Laws/Invariant.lean ====
section
/-! SUPPORT. Sys2Proof/Laws/Invariant.lean: each shared operation keeps `State.Inv` (spec/10_state.md R39, R49). -/

namespace Sys2Proof.Machine

variable {s : State}

/-- The bounds of R10, as naturals. -/
theorem legal_bounds {c : Config} (h : c.legal = true) :
    2 ≤ c.cB ∧ 1 ≤ c.cE ∧ c.cE + 1 ≤ 2 ^ 32 ∧ c.cB + 1 ≤ 2 ^ 32 ∧ 1 ≤ c.w ∧ 1 ≤ c.aw ∧ c.aw ≤ 32 ∧ c.hmSize ≤ 2 ^ c.aw := by
  simp only [Config.legal, Bool.and_eq_true, decide_eq_true_eq] at h
  omega

/-- A response that fits its record keeps the invariant. -/
theorem State.Inv.deliver (h : s.Inv) {r : Response} (hr : r.wf s.cfg) : (s.deliver r).Inv := by
  refine ⟨h.cfgLegal, h.headE, h.tailE, h.headB, h.tailB, h.causeLegal, h.causeNone, h.causeSome, h.eqm, h.records, h.bqm, h.hm, ?_⟩
  intro x hx
  simp only [State.deliver_responses, List.mem_append, List.mem_singleton] at hx
  rcases hx with hx | rfl
  · exact h.responses x hx
  · exact hr

theorem State.Inv.respond (h : s.Inv) {ok : Bool} {data count : Nat} (hd : data < 2 ^ s.cfg.w) (hc : count < 2 ^ 32) :
    (s.respond ok data count).Inv :=
  h.deliver ⟨hd, hc, by show (0 : BitVec 4).toNat ≤ 5; decide, fun _ => rfl, fun e => by simp at e⟩

/-- Every cause a command raises has a code of R291, and none has the code 0. -/
theorem cause_code_legal (c : Cause) : legalCause c.code ∧ c.code ≠ 0 := by cases c <;> decide

/-- Fault entry keeps the invariant. -/
theorem State.Inv.raise (h : s.Inv) (c : Cause) : (s.raise c).Inv := by
  have hc := cause_code_legal c
  have h' : (s.setFault true c.code).Inv :=
    ⟨h.cfgLegal, h.headE, h.tailE, h.headB, h.tailB, hc.1, fun e => by simp at e, fun _ => hc.2, h.eqm, h.records, h.bqm, h.hm, h.responses⟩
  refine h'.deliver ⟨?_, Nat.two_pow_pos _, hc.1, fun e => ?_, fun _ => ⟨hc.2, rfl, rfl, rfl⟩⟩
  · exact Nat.two_pow_pos _
  · simp [faultedResponse] at e

/-- The answer of a faulted block keeps the invariant. -/
theorem State.Inv.answerFaulted (h : s.Inv) (hf : s.fault = true) : s.answerFaulted.Inv := by
  refine h.deliver ⟨Nat.two_pow_pos _, Nat.two_pow_pos _, h.causeLegal, fun e => ?_, fun _ => ⟨h.causeSome hf, rfl, rfl, rfl⟩⟩
  simp [faultedResponse] at e

theorem State.Inv.setHeadE (h : s.Inv) {v : Nat} (hv : v < s.cfg.pE) : (s.setHeadE v).Inv :=
  ⟨h.cfgLegal, hv, h.tailE, h.headB, h.tailB, h.causeLegal, h.causeNone, h.causeSome, h.eqm, h.records, h.bqm, h.hm, h.responses⟩
theorem State.Inv.setTailE (h : s.Inv) {v : Nat} (hv : v < s.cfg.pE) : (s.setTailE v).Inv :=
  ⟨h.cfgLegal, h.headE, hv, h.headB, h.tailB, h.causeLegal, h.causeNone, h.causeSome, h.eqm, h.records, h.bqm, h.hm, h.responses⟩
theorem State.Inv.setHeadB (h : s.Inv) {v : Nat} (hv : v < s.cfg.pB) : (s.setHeadB v).Inv :=
  ⟨h.cfgLegal, h.headE, h.tailE, hv, h.tailB, h.causeLegal, h.causeNone, h.causeSome, h.eqm, h.records, h.bqm, h.hm, h.responses⟩
theorem State.Inv.setTailB (h : s.Inv) {v : Nat} (hv : v < s.cfg.pB) : (s.setTailB v).Inv :=
  ⟨h.cfgLegal, h.headE, h.tailE, h.headB, hv, h.causeLegal, h.causeNone, h.causeSome, h.eqm, h.records, h.bqm, h.hm, h.responses⟩
theorem State.Inv.setEqm (h : s.Inv) {m : Memory Nat} (hm : Memory.wf unlistedRecord s.cfg.pE m)
    (hr : ∀ c ∈ m, c.2 < 2 ^ s.cfg.w) : (s.setEqm m).Inv :=
  ⟨h.cfgLegal, h.headE, h.tailE, h.headB, h.tailB, h.causeLegal, h.causeNone, h.causeSome, hm, hr, h.bqm, h.hm, h.responses⟩
theorem State.Inv.setBqm (h : s.Inv) {m : Memory Byte} (hm : Memory.wf unlistedByte s.cfg.nbB m) : (s.setBqm m).Inv :=
  ⟨h.cfgLegal, h.headE, h.tailE, h.headB, h.tailB, h.causeLegal, h.causeNone, h.causeSome, h.eqm, h.records, hm, h.hm, h.responses⟩
theorem State.Inv.setHm (h : s.Inv) {m : Memory Byte} (hm : Memory.wf unlistedByte s.cfg.hmSize m) : (s.setHm m).Inv :=
  ⟨h.cfgLegal, h.headE, h.tailE, h.headB, h.tailB, h.causeLegal, h.causeNone, h.causeSome, h.eqm, h.records, h.bqm, hm, h.responses⟩
theorem State.Inv.setInputs (h : s.Inv) (xs : List HostInput) : (s.setInputs xs).Inv :=
  ⟨h.cfgLegal, h.headE, h.tailE, h.headB, h.tailB, h.causeLegal, h.causeNone, h.causeSome, h.eqm, h.records, h.bqm, h.hm, h.responses⟩
theorem State.Inv.setRst (h : s.Inv) (b : Bool) : (s.setRst b).Inv :=
  ⟨h.cfgLegal, h.headE, h.tailE, h.headB, h.tailB, h.causeLegal, h.causeNone, h.causeSome, h.eqm, h.records, h.bqm, h.hm, h.responses⟩

/-- Every record read has `W` bits. -/
theorem State.Inv.recordAt_lt (h : s.Inv) (a : Nat) : recordAt s.eqm a < 2 ^ s.cfg.w := by
  by_cases hz : recordAt s.eqm a = unlistedRecord
  · rw [hz]; exact Nat.two_pow_pos _
  · exact h.records _ (Memory.mem_of_read hz)

/-- A record written keeps the store canonical, within its size, and its records `W` bits wide. -/
theorem State.Inv.setRecord (h : s.Inv) {a v : Nat} (ha : a < s.cfg.pE) (hv : v < 2 ^ s.cfg.w) :
    (s.setEqm (setRecord s.eqm a v)).Inv :=
  h.setEqm (Memory.wf_write ha h.eqm) fun c hc => by
    rcases Memory.mem_write hc with e | ⟨e, -⟩
    · exact h.records c e
    · simpa [e] using hv

theorem recordOperand_lt (c : Config) (data : Nat) : recordOperand c data < 2 ^ c.w := Nat.mod_lt _ (Nat.two_pow_pos _)

/-- The compaction loop keeps the store canonical and its records in width; its write cursor stays a slot. -/
theorem wf_compact {P value W : Nat} (n r w removed : Nat) (m : Memory Nat) (hw : w < P)
    (h : Memory.wf unlistedRecord P m) (hr : ∀ c ∈ m, c.2 < 2 ^ W) :
    Memory.wf unlistedRecord P (compact P value n r w removed m).1 ∧
      (∀ c ∈ (compact P value n r w removed m).1, c.2 < 2 ^ W) ∧ (compact P value n r w removed m).2.1 < P ∧
      (compact P value n r w removed m).2.2 ≤ removed + n := by
  induction n generalizing r w removed m with
  | zero => exact ⟨h, hr, hw, Nat.le_refl _⟩
  | succ n ih =>
    rw [compact]
    split
    · obtain ⟨h1, h2, h3, h4⟩ := ih (adv P r 1) w (removed + 1) m hw h hr
      exact ⟨h1, h2, h3, by omega⟩
    · obtain ⟨h1, h2, h3, h4⟩ := ih (adv P r 1) (adv P w 1) removed (Machine.setRecord m w (recordAt m r)) (adv_lt (by omega))
        (Memory.wf_write hw h) fun c hc => by
          rcases Memory.mem_write hc with e | ⟨e, hz⟩
          · exact hr c e
          · rw [e]; exact hr (r, recordAt m r) (Memory.mem_of_read hz)
      exact ⟨h1, h2, h3, by omega⟩

/-- Eviction keeps the invariant. -/
theorem State.Inv.evict (h : s.Inv) (k : Nat) : (s.evict k).Inv := by
  have hP : 0 < s.cfg.pB := by have := h.headB; omega
  unfold State.evict
  refine State.Inv.setHeadB ?_ ?_
  · split
    · exact h.setBqm (wf_bitWrite h.headB h.bqm)
    · exact h
  · split <;> exact adv_lt hP

theorem State.Inv.pushGroup (h : s.Inv) (bits : BitString) : (s.pushGroup bits).Inv :=
  (h.setBqm (wf_bitWrite h.tailB h.bqm)).setTailB (adv_lt (by have := h.headB; show 0 < s.cfg.pB; omega))

/-- A group-wise push keeps the invariant. -/
theorem State.Inv.pushGroups (h : s.Inv) (bits : BitString) : (s.pushGroups bits).Inv := by
  unfold State.pushGroups
  generalize ceilDiv8 bits.length = k
  induction k generalizing bits s with
  | zero => exact h
  | succ k ih => exact ih (h.pushGroup _) _

/-- A forced push keeps the invariant. -/
theorem State.Inv.forcePush (h : s.Inv) {bits : BitString} : (s.forcePush bits).Inv := by
  have hl := legal_bounds h.cfgLegal
  have := sizeB_le s
  have := evictedBy_le s bits.length
  unfold State.forcePush
  refine State.Inv.respond ?_ (Nat.two_pow_pos _) (by omega)
  split
  · exact (h.evict _).pushGroups _
  · exact h.pushGroups _

/-- A transfer to a region in range keeps the invariant. -/
theorem State.Inv.copyOut (h : s.Inv) {off n A : Nat} (hr : hmInRange s.cfg A n = true) : (s.copyOut off n A).Inv := by
  refine h.setHm (wf_hmWriteBits ?_ h.hm)
  have hp : s.posB off < s.cfg.pB := adv_lt (by have := h.headB; omega)
  rw [length_bitRead hp]
  simpa [hmInRange] using hr

theorem mem_drawnRecords {c : Config} {cells : List (Nat × Nat)} {x : Nat × Nat} (h : x ∈ drawnRecords c cells) :
   x.1 < c.pE ∧ x.2 < 2 ^ c.w := by
  simp only [drawnRecords, List.mem_map, List.mem_filter, decide_eq_true_eq] at h
  obtain ⟨y, ⟨-, hy⟩, rfl⟩ := h
  exact ⟨hy, Nat.mod_lt _ (Nat.two_pow_pos _)⟩

theorem mem_drawnBytes {lo len size : Nat} {cells : List Host.Cell} {x : Host.Cell} (h : x ∈ drawnBytes lo len size cells) :
   lo ≤ x.1 ∧ x.1 < lo + len ∧ x.1 < size := by
  simp only [drawnBytes, List.mem_filter, Bool.and_eq_true, decide_eq_true_eq] at h
  exact ⟨h.2.1.1, h.2.1.2, h.2.2⟩

/-- Reset keeps the invariant, whatever the draw. -/
theorem State.Inv.applyReset (h : s.Inv) (d : ResetDraw) : (s.applyReset d).Inv := by
  have hP : 0 < s.cfg.pE := by have := h.headE; omega
  have hPB : 0 < s.cfg.pB := by have := h.headB; omega
  refine ⟨h.cfgLegal, hP, hP, hPB, hPB, by show (0:BitVec 4).toNat ≤ 5; decide, fun _ => rfl, fun e => by simp [State.applyReset] at e, ?_, ?_, ?_, ?_, h.responses⟩
  · exact Memory.wf_overlay (fun c hc => (mem_drawnRecords hc).1) h.eqm
  · intro c hc
    rcases Memory.mem_overlay hc with e | e
    · exact h.records c e
    · exact (mem_drawnRecords e).2
  · exact Memory.wf_overlay (fun c hc => (mem_drawnBytes hc).2.2) h.bqm
  · exact Memory.wf_overlay (fun c hc => (mem_drawnBytes hc).2.2) h.hm

end Sys2Proof.Machine
end

