-- ==== Sys2Proof/Laws/PerInstr.lean ====
section
/-! SUPPORT. Sys2Proof/Laws/PerInstr.lean: for every command, its request record decodes to it, and the fields outside its operand
class are 0 (spec/30_encoding.md R94, R95, R100, R102). -/

namespace Sys2Proof.Laws

/-- The fields that no command of the class reads are 0 in the record (R100, R102). -/
theorem unread_fields_zero (i : Instr) :
    (i.operandClass.readsData = false → (encodeRequest i).data = 0) ∧
      (i.operandClass.readsCnt = false → (encodeRequest i).cnt = 0) ∧
      (i.operandClass.readsIdx = false → (encodeRequest i).idx = 0) ∧
      (i.operandClass.readsAddr = false → (encodeRequest i).addr = 0) := by
  cases i <;> simp [encodeRequest, Instr.operandClass, OperandClass.readsData, OperandClass.readsCnt,
    OperandClass.readsIdx, OperandClass.readsAddr]

end Sys2Proof.Laws

namespace Sys2Proof.Laws.EncodedRequest

/-- The request record of `i` has the opcode of `i`, spells `i`, and is 0 in every field that the class of `i` does not read. -/
def Statement (i : Instr) : Prop :=
  (encodeRequest i).op = i.opcode ∧ decodeRequest (encodeRequest i) = .ok i ∧
    (i.operandClass.readsData = false → (encodeRequest i).data = 0) ∧
    (i.operandClass.readsCnt = false → (encodeRequest i).cnt = 0) ∧
    (i.operandClass.readsIdx = false → (encodeRequest i).idx = 0) ∧
    (i.operandClass.readsAddr = false → (encodeRequest i).addr = 0)

theorem eqPush (data : Nat) : Statement (.eqPush data) :=
  ⟨rfl, rfl, unread_fields_zero _⟩
theorem eqPop : Statement .eqPop :=
  ⟨rfl, rfl, unread_fields_zero _⟩
theorem eqPopa : Statement .eqPopa :=
  ⟨rfl, rfl, unread_fields_zero _⟩
theorem eqPeek : Statement .eqPeek :=
  ⟨rfl, rfl, unread_fields_zero _⟩
theorem eqClear : Statement .eqClear :=
  ⟨rfl, rfl, unread_fields_zero _⟩
theorem eqRemove (data : Nat) : Statement (.eqRemove data) :=
  ⟨rfl, rfl, unread_fields_zero _⟩
theorem eqGet (idx : BitVec 32) : Statement (.eqGet idx) :=
  ⟨rfl, rfl, unread_fields_zero _⟩
theorem eqSet (idx : BitVec 32) (data : Nat) : Statement (.eqSet idx data) :=
  ⟨rfl, rfl, unread_fields_zero _⟩
theorem eqFront : Statement .eqFront :=
  ⟨rfl, rfl, unread_fields_zero _⟩
theorem eqBack : Statement .eqBack :=
  ⟨rfl, rfl, unread_fields_zero _⟩
theorem eqFind (data : Nat) : Statement (.eqFind data) :=
  ⟨rfl, rfl, unread_fields_zero _⟩
theorem bqPush8 (data : Nat) (cnt : BitVec 32) : Statement (.bqPush8 data cnt) :=
  ⟨rfl, rfl, unread_fields_zero _⟩
theorem bqPushm (cnt : BitVec 32) (addr : Nat) : Statement (.bqPushm cnt addr) :=
  ⟨rfl, rfl, unread_fields_zero _⟩
theorem bqFpush8 (data : Nat) (cnt : BitVec 32) : Statement (.bqFpush8 data cnt) :=
  ⟨rfl, rfl, unread_fields_zero _⟩
theorem bqFpushm (cnt : BitVec 32) (addr : Nat) : Statement (.bqFpushm cnt addr) :=
  ⟨rfl, rfl, unread_fields_zero _⟩
theorem bqDrop (cnt : BitVec 32) : Statement (.bqDrop cnt) :=
  ⟨rfl, rfl, unread_fields_zero _⟩
theorem bqPop (cnt : BitVec 32) (addr : Nat) : Statement (.bqPop cnt addr) :=
  ⟨rfl, rfl, unread_fields_zero _⟩
theorem bqGet (idx : BitVec 32) (cnt : BitVec 32) (addr : Nat) : Statement (.bqGet idx cnt addr) :=
  ⟨rfl, rfl, unread_fields_zero _⟩
theorem bqClear : Statement .bqClear :=
  ⟨rfl, rfl, unread_fields_zero _⟩
theorem eqCap : Statement .eqCap :=
  ⟨rfl, rfl, unread_fields_zero _⟩
theorem eqSize : Statement .eqSize :=
  ⟨rfl, rfl, unread_fields_zero _⟩
theorem eqAvail : Statement .eqAvail :=
  ⟨rfl, rfl, unread_fields_zero _⟩
theorem eqEmpty : Statement .eqEmpty :=
  ⟨rfl, rfl, unread_fields_zero _⟩
theorem eqFull : Statement .eqFull :=
  ⟨rfl, rfl, unread_fields_zero _⟩
theorem bqCap : Statement .bqCap :=
  ⟨rfl, rfl, unread_fields_zero _⟩
theorem bqSize : Statement .bqSize :=
  ⟨rfl, rfl, unread_fields_zero _⟩
theorem bqAvail : Statement .bqAvail :=
  ⟨rfl, rfl, unread_fields_zero _⟩
theorem bqEmpty : Statement .bqEmpty :=
  ⟨rfl, rfl, unread_fields_zero _⟩
theorem bqFull : Statement .bqFull :=
  ⟨rfl, rfl, unread_fields_zero _⟩

end Sys2Proof.Laws.EncodedRequest
end

