-- ==== Sys2Proof/Laws/Queues.lean ====
section
/-! SUPPORT. Sys2Proof/Laws/Queues.lean: what each shared operation does to the logical contents (spec/10_state.md R44): the FIFO
laws of spec/40_element_queue.md R134 and spec/41_bit_queue.md R200, operation by operation. -/

namespace Sys2Proof.Machine

variable {s t : State}

/-- The tail is the head advanced by the size. -/
theorem adv_sizeE (h : s.Inv) : adv s.cfg.pE s.headE s.sizeE = s.tailE := adv_ringSize h.headE h.tailE
theorem adv_sizeB (h : s.Inv) : adv s.cfg.pB s.headB s.sizeB = s.tailB := adv_ringSize h.headB h.tailB

theorem getElem?_queueE (s : State) (i : Nat) :
    s.queueE[i]? = if i < s.sizeE then some (recordAt s.eqm (s.slotE i)) else none := by
  simp only [State.queueE, List.getElem?_map]
  split <;> simp_all

theorem getElem?_queueB (s : State) (i : Nat) :
    s.queueB[i]? = if i < s.sizeB then some (bitAt s.bqm (s.posB i)) else none := by
  simp only [State.queueB, List.getElem?_map]
  split <;> simp_all

/-- The logical content is a function of the registers and the store. -/
theorem queueE_congr (h0 : t.cfg = s.cfg) (h1 : t.headE = s.headE) (h2 : t.tailE = s.tailE) (h3 : t.eqm = s.eqm) :
    t.queueE = s.queueE := by
  simp only [State.queueE, State.sizeE, State.slotE, h0, h1, h2, h3]

theorem queueB_congr (h0 : t.cfg = s.cfg) (h1 : t.headB = s.headB) (h2 : t.tailB = s.tailB) (h3 : t.bqm = s.bqm) :
    t.queueB = s.queueB := by
  simp only [State.queueB, State.sizeB, State.posB, h0, h1, h2, h3]

/-! ## Element Queue -/

/-- A push (R121) appends one record. -/
theorem queueE_push (h : s.Inv) (hs : s.sizeE < s.cfg.cE) (v : Nat) :
    ((s.setEqm (setRecord s.eqm s.tailE v)).setTailE (adv s.cfg.pE s.tailE 1)).queueE = s.queueE ++ [v] := by
  have hz : ((s.setEqm (setRecord s.eqm s.tailE v)).setTailE (adv s.cfg.pE s.tailE 1)).sizeE = s.sizeE + 1 :=
    ringSize_adv_right h.headE h.tailE (by show s.sizeE + 1 < s.cfg.cE + 1; omega)
  unfold State.queueE
  rw [hz, List.range_succ, List.map_append]
  have hr : ∀ a, recordAt (setRecord s.eqm s.tailE v) a = if a = s.tailE then v else recordAt s.eqm a :=
    fun a => Memory.read_write h.eqm.1
  congr 1
  · refine List.map_congr_left fun i hi => ?_
    have hi := List.mem_range.1 hi
    show recordAt (setRecord s.eqm s.tailE v) (adv s.cfg.pE s.headE i) = _
    rw [hr, if_neg]
    · rfl
    · rw [← adv_sizeE h]
      intro e
      have := adv_inj h.headE (j := i) (k := s.sizeE) (by have := sizeE_lt s; omega) (sizeE_lt s) e
      omega
  · show [recordAt (setRecord s.eqm s.tailE v) (adv s.cfg.pE s.headE s.sizeE)] = _
    rw [hr, adv_sizeE h, if_pos rfl]

/-- Advancing the head past one record (R122) takes the oldest one. -/
theorem queueE_pop (h : s.Inv) (hs : s.headE ≠ s.tailE) :
    s.queueE = recordAt s.eqm s.headE :: (s.setHeadE (adv s.cfg.pE s.headE 1)).queueE := by
  have hz : 1 ≤ s.sizeE := by have := (sizeE_eq_zero h.indexesLegal).not.2 hs; omega
  have hz' : (s.setHeadE (adv s.cfg.pE s.headE 1)).sizeE = s.sizeE - 1 := ringSize_adv_left h.headE h.tailE hz
  unfold State.queueE
  rw [hz']
  obtain ⟨n, hn⟩ := Nat.exists_eq_add_of_le' hz
  rw [hn, List.range_succ_eq_map, List.map_cons, List.map_map, Nat.add_sub_cancel]
  congr 1
  · show recordAt s.eqm (adv s.cfg.pE s.headE 0) = _
    rw [adv_zero h.headE]
  · refine List.map_congr_left fun i _ => ?_
    show recordAt s.eqm (adv s.cfg.pE s.headE (i + 1)) = recordAt s.eqm (adv s.cfg.pE (adv s.cfg.pE s.headE 1) i)
    rw [adv_adv, Nat.add_comm]

/-- A record set (R128) replaces that record of the content. -/
theorem queueE_set (h : s.Inv) {i : Nat} (hi : i < s.sizeE) (v : Nat) :
    (s.setEqm (setRecord s.eqm (s.slotE i) v)).queueE = s.queueE.set i v := by
  refine List.ext_getElem? fun j => ?_
  have hr : ∀ a, recordAt (setRecord s.eqm (s.slotE i) v) a = if a = s.slotE i then v else recordAt s.eqm a :=
    fun a => Memory.read_write h.eqm.1
  rw [List.getElem?_set, getElem?_queueE, getElem?_queueE, length_queueE]
  show (if j < s.sizeE then some (recordAt (setRecord s.eqm (s.slotE i) v) (s.slotE j)) else none) = _
  rw [hr]
  have hl := sizeE_lt s
  by_cases hij : i = j
  · subst hij; simp [hi]
  · rw [if_neg hij]
    by_cases hj : j < s.sizeE
    · rw [if_pos hj, if_pos hj, if_neg]
      intro e
      exact hij (adv_inj h.headE (by omega) (by omega) e).symm
    · rw [if_neg hj, if_neg hj]

/-- The compaction (R126) keeps the records that differ from the value, in order. -/
theorem queueE_compact (h : s.Inv) (value : Nat) :
    let out := compact s.cfg.pE value s.sizeE s.headE s.headE 0 s.eqm
    ((s.setEqm out.1).setTailE out.2.1).queueE = s.queueE.filter (fun v => !eqElem v value) ∧
      out.2.2 = s.sizeE - (s.queueE.filter (fun v => !eqElem v value)).length ∧
      out.2.1 = adv s.cfg.pE s.headE (s.queueE.filter (fun v => !eqElem v value)).length ∧
      ∀ a, (∀ j < (s.queueE.filter (fun v => !eqElem v value)).length, a ≠ adv s.cfg.pE s.headE j) →
        recordAt out.1 a = recordAt s.eqm a := by
  intro out
  have hc := compact_spec (value := value) s.sizeE 0 0 s.headE s.eqm h.headE (by have := sizeE_lt s; omega) h.eqm.1
  simp only [Nat.zero_add, adv_zero h.headE] at hc
  have hq : (List.range s.sizeE).map (fun j => recordAt s.eqm (adv s.cfg.pE s.headE j)) = s.queueE := rfl
  rw [hq] at hc
  obtain ⟨h1, h2, -, h4⟩ := hc
  have hlen : (s.queueE.filter (fun v => !eqElem v value)).length ≤ s.sizeE :=
    (List.length_filter_le _ _).trans_eq (length_queueE s)
  have hl := sizeE_lt s
  have hz : ((s.setEqm out.1).setTailE out.2.1).sizeE = (s.queueE.filter (fun v => !eqElem v value)).length := by
    show ringSize s.cfg.pE s.headE out.2.1 = _
    rw [h1, ringSize_adv h.headE (by omega)]
  refine ⟨?_, h2, h1, fun a ha => ?_⟩
  · refine List.ext_getElem? fun j => ?_
    rw [getElem?_queueE, hz]
    by_cases hj : j < (s.queueE.filter (fun v => !eqElem v value)).length
    · rw [if_pos hj]
      show some (recordAt out.1 (adv s.cfg.pE s.headE j)) = _
      rw [h4, if_pos ⟨adv_lt (by omega), by rw [ringSize_adv h.headE (by omega)]; exact hj⟩,
        ringSize_adv h.headE (by omega), List.getElem?_eq_getElem hj, List.getD_eq_getElem?_getD,
        List.getElem?_eq_getElem hj]
      rfl
    · rw [if_neg hj, List.getElem?_eq_none (by omega)]
  · rw [h4, if_neg]
    rintro ⟨hP, hlt⟩
    exact ha _ hlt (adv_ringSize h.headE hP).symm

/-- FIND (R131) is membership in the content. -/
theorem findRecord_eq (s : State) (value : Nat) : s.findRecord value = decide (value ∈ s.queueE) := by
  rw [Bool.eq_iff_iff, decide_eq_true_iff]
  simp [State.findRecord, State.queueE, eqElem]

/-! ## Bit Queue -/

theorem sizeB_evict (h : s.Inv) {k : Nat} (hk : k ≤ s.sizeB) : (s.evict k).sizeB = s.sizeB - k := by
  show ringSize (s.evict k).cfg.pB (s.evict k).headB (s.evict k).tailB = _
  rw [State.evict_cfg, State.evict_headB, State.evict_tailB]
  exact ringSize_adv_left h.headB h.tailB hk

/-- Eviction (R188) discards the oldest bits of the content. -/
theorem queueB_evict (h : s.Inv) {k : Nat} (hk : k ≤ s.sizeB) : (s.evict k).queueB = s.queueB.drop k := by
  have hl := sizeB_lt s
  refine List.ext_getElem? fun j => ?_
  rw [List.getElem?_drop, getElem?_queueB, getElem?_queueB, sizeB_evict h hk]
  by_cases hj : k + j < s.sizeB
  · rw [if_pos (by omega), if_pos hj]
    have e : (s.evict k).posB j = s.posB (k + j) := by simp [State.posB, adv_adv]
    rw [e, bitAt_evict h.headB (by omega) h.bqm.1, if_neg]
    rintro ⟨-, -, hlt⟩
    rw [State.posB, ringSize_adv h.headB (by omega)] at hlt
    omega
  · rw [if_neg (by omega), if_neg hj]

theorem sizeB_pushGroups (h : s.Inv) {bits : BitString} (hl : bits.length ≤ s.availB) :
    (s.pushGroups bits).sizeB = s.sizeB + bits.length := by
  have hz := sizeB_le s
  have hP : s.cfg.pB = s.cfg.cB + 1 := rfl
  simp only [State.availB] at hl
  rw [pushGroups_eq h.tailB (by omega) h.bqm]
  exact ringSize_adv_right h.headB h.tailB (by show s.sizeB + bits.length < s.cfg.pB; omega)

/-- Which bits a group-wise push changes (R189). -/
theorem bitAt_pushGroups (h : s.Inv) {bits : BitString} (hl : bits.length ≤ s.cfg.cB) (q : Nat) :
    bitAt (s.pushGroups bits).bqm q =
      if q < s.cfg.pB ∧ ringSize s.cfg.pB s.tailB q < bits.length then bits.getD (ringSize s.cfg.pB s.tailB q) false
      else bitAt s.bqm q := by
  have hP : s.cfg.pB = s.cfg.cB + 1 := rfl
  rw [pushGroups_eq h.tailB (by omega) h.bqm]
  exact bitAt_bitWrite h.tailB (by omega) h.bqm.1 q

/-- A group-wise push (R189) appends its bits to the content. -/
theorem queueB_pushGroups (h : s.Inv) {bits : BitString} (hl : bits.length ≤ s.availB) :
    (s.pushGroups bits).queueB = s.queueB ++ bits := by
  have hz := sizeB_le s
  have hP : s.cfg.pB = s.cfg.cB + 1 := rfl
  have hav : s.availB = s.cfg.cB - s.sizeB := rfl
  refine List.ext_getElem? fun j => ?_
  rw [getElem?_queueB, sizeB_pushGroups h hl]
  have e : (s.pushGroups bits).posB j = s.posB j := by simp [State.posB]
  rw [e, bitAt_pushGroups h (by omega)]
  have hp : s.posB j < s.cfg.pB := adv_lt (by omega)
  by_cases hj : j < s.sizeB
  · rw [if_pos (by omega), List.getElem?_append_left (by simpa using hj), getElem?_queueB, if_pos hj, if_neg]
    rintro ⟨-, hlt⟩
    rw [← adv_sizeB h, State.posB, ringSize_adv_past h.headB (adv_lt (by omega))
      (by rw [ringSize_adv h.headB (by omega)]; exact hj) (by omega), ringSize_adv h.headB (by omega)] at hlt
    omega
  · rw [List.getElem?_append_right (by simpa using hj), length_queueB]
    by_cases hj' : j < s.sizeB + bits.length
    · have hd : ringSize s.cfg.pB s.tailB (s.posB j) = j - s.sizeB := by
        rw [← adv_sizeB h, State.posB, ringSize_adv_left h.headB (adv_lt (by omega))
          (by rw [ringSize_adv h.headB (by omega)]; omega), ringSize_adv h.headB (by omega)]
      rw [if_pos hj', hd, if_pos ⟨hp, by omega⟩, List.getD_eq_getElem?_getD,
        List.getElem?_eq_getElem (show j - s.sizeB < bits.length by omega)]
      rfl
    · rw [if_neg hj', List.getElem?_eq_none (by omega)]

/-- A forced push (R190) keeps the newest `C_B` bits of the content followed by the new bits. -/
theorem queueB_forcePush (h : s.Inv) (bits : BitString) :
    (s.forcePush bits).queueB = (s.queueB ++ bits).drop (s.sizeB + bits.length - s.cfg.cB) := by
  have hz := sizeB_le s
  have hav : s.availB = s.cfg.cB - s.sizeB := rfl
  have hk := length_keptBits s.cfg bits
  have hq : ∀ u : State, (u.respond true 0 (s.evictedBy bits.length)).queueB = u.queueB := fun _ => rfl
  rw [State.forcePush, hq]
  by_cases hfit : s.availB < bits.length
  · have he := evictedBy_eq s bits.length
    rw [if_pos hfit]
    have hle := evictedBy_le s bits.length
    have hev := h.evict (s.evictedBy bits.length)
    rw [queueB_pushGroups hev (by
      show _ ≤ (s.evict _).cfg.cB - (s.evict _).sizeB
      rw [sizeB_evict h hle, State.evict_cfg]; omega), queueB_evict h hle, List.drop_append, length_queueB]
    congr 1
    · by_cases hb : bits.length ≤ s.cfg.cB
      · congr 1; omega
      · rw [List.drop_eq_nil_of_le (by simp; omega), List.drop_eq_nil_of_le (by simp; omega)]
    · unfold keptBits
      split
      · congr 1; omega
      · rw [show s.sizeB + bits.length - s.cfg.cB - s.sizeB = 0 by omega]; rfl
  · have hkb : keptBits s.cfg bits = bits := by unfold keptBits; rw [if_neg (by omega)]
    rw [if_neg hfit, hkb, queueB_pushGroups h (by omega), show s.sizeB + bits.length - s.cfg.cB = 0 by omega]
    rfl

/-! ## Host memory -/

/-- Reading back a region just written gives the bits written (R186, R187). -/
theorem hmReadBits_hmWriteBits {A : Nat} {bits : BitString} {hm : Memory Byte} (h : hm.Sorted) :
    hmReadBits A bits.length (hmWriteBits A bits hm) = bits := by
  refine List.ext_getElem (by simp [hmReadBits]) fun j h1 h2 => ?_
  simp only [hmReadBits_eq, List.getElem_map, List.getElem_range]
  rw [bitAt_hmWriteBits h, if_pos (by omega), Nat.add_sub_cancel_left, List.getD_eq_getElem?_getD,
    List.getElem?_eq_getElem h2]
  rfl

/-- A region that shares no byte with one just written reads as before. -/
theorem hmReadBits_hmWriteBits_disjoint {A n A' : Nat} {bits : BitString} {hm : Memory Byte}
    (hd : n = 0 ∨ bits.length = 0 ∨ A + ceilDiv8 n ≤ A' ∨ A' + ceilDiv8 bits.length ≤ A) :
    hmReadBits A n (hmWriteBits A' bits hm) = hmReadBits A n hm := by
  refine List.map_congr_left fun j hj => ?_
  have hj := List.mem_range.1 hj
  simp only [ceilDiv8] at hd
  by_cases h0 : bits.length = 0
  · rw [List.length_eq_zero_iff.1 h0]; rfl
  · rw [byteAt_hmWriteBits_outside]
    simp only [ceilDiv8]
    omega

/-- The bits `copyOut` writes are the queued bits from the offset on (R196, R197). -/
theorem bitRead_queue {off n : Nat} (hn : off + n ≤ s.sizeB) :
    bitRead s.cfg.pB (s.posB off) n s.bqm = (s.queueB.drop off).take n := by
  have hP : s.cfg.pB = s.cfg.cB + 1 := rfl
  rw [bitRead_eq (show s.posB off < s.cfg.pB from adv_lt (by omega))]
  refine List.ext_getElem? fun j => ?_
  rw [List.getElem?_map, List.getElem?_take, List.getElem?_drop, getElem?_queueB]
  by_cases hj : j < n
  · simp only [hj, if_true, List.getElem?_range hj, Option.map_some, show off + j < s.sizeB by omega]
    rw [State.posB, State.posB, adv_adv]
  · simp [hj]

end Sys2Proof.Machine
end

