-- ==== Sys2Proof/Laws/Step.lean ====
section
/-! SUPPORT. Sys2Proof/Laws/Step.lean: the forms a step can take. -/

namespace Sys2Proof.Machine

variable {s t : State}

/-- Everything a step that has a next state can do. -/
theorem step_cases (h : step s = .next t) : s.cfg.legal = true ∧
    ((s.inputs = [] ∧ t = s) ∨
      (∃ req rest, s.inputs = .request req :: rest ∧ s.rst = true ∧ t = s.setInputs rest) ∨
      (∃ req rest i, s.inputs = .request req :: rest ∧ s.rst = false ∧ decode s.cfg req = .ok i ∧
        exec i (s.setInputs rest) = .next t) ∨
      (∃ req rest e, s.inputs = .request req :: rest ∧ s.rst = false ∧ decode s.cfg req = .error e ∧
        rejectOpcode (s.setInputs rest) = .next t) ∨
      (∃ d rest, s.inputs = .assertReset d :: rest ∧ t = (s.setInputs rest).applyReset d) ∨
      (∃ rest, s.inputs = .releaseReset :: rest ∧ t = (s.setInputs rest).setRst false) ∨
      (∃ a v rest, s.inputs = .writeHM a v :: rest ∧ a < s.cfg.hmSize ∧
        t = (s.setInputs rest).setHm (setByte s.hm a v))) := by
  unfold step stepInput at h
  split at h
  swap
  · simp at h
  rename_i hl
  refine ⟨hl, ?_⟩
  split at h
  · rename_i hi; simp at h; exact .inl ⟨hi, h.symm⟩
  · rename_i x rest hi
    right
    cases x <;> simp only [takeInput] at h
    case request req =>
      split at h
      · rename_i hr
        exact .inl ⟨req, rest, hi, hr, by simpa using h.symm⟩
      · rename_i hr
        have hr : s.rst = false := by rw [← Bool.not_eq_true]; exact hr
        unfold serve at h
        split at h
        · rename_i i hd
          exact .inr (.inl ⟨req, rest, i, hi, hr, hd, h⟩)
        · rename_i e hd
          exact .inr (.inr (.inl ⟨req, rest, e, hi, hr, hd, h⟩))
    case assertReset d => exact .inr (.inr (.inr (.inl ⟨d, rest, hi, by simpa using h.symm⟩)))
    case releaseReset => exact .inr (.inr (.inr (.inr (.inl ⟨rest, hi, by simpa using h.symm⟩))))
    case writeHM a v =>
      split at h
      · rename_i ha
        exact .inr (.inr (.inr (.inr (.inr ⟨a, v, rest, hi, ha, by simpa using h.symm⟩))))
      · simp at h

end Sys2Proof.Machine
end

