-- ==== Sys2Proof/Tests/Slice0.lean ====
section
/-! SUPPORT. Sys2Proof/Tests/Slice0.lean: words written out from spec/30_encoding.md, single steps with the values of
spec/95_test_vectors.md, and the states that meet the hypotheses of the statements. A vector's id stands in the test's
docstring. -/

namespace Sys2Proof.Tests

open Sys2Proof Sys2Proof.Machine

/-! ## Helpers -/

/-- A memory with the listed units from address 0 on. -/
def records (xs : List Nat) : Memory Nat := Memory.overlay unlistedRecord [] (xs.zipIdx.map fun x => (x.2, x.1))
def bytes (cells : List (Nat × Nat)) : Memory Byte :=
  Memory.overlay unlistedByte [] (cells.map fun x => (x.1, BitVec.ofNat 8 x.2))

/-- An Element Queue with `C_E = 5`, `W = 8`. -/
def element (head tail : Nat) (xs : List Nat) : State :=
  { State.reset with headE := head, tailE := tail, eqm := records xs }

/-- A Bit Queue, with host memory. -/
def bitState (cB : Nat) (zoc : Bool) (head tail : Nat) (bqm hm : List (Nat × Nat)) : State :=
  { State.reset with
    cfg := { Config.standard with cB := cB, zoc := zoc }
    headB := head, tailB := tail, bqm := bytes bqm, hm := bytes hm }

/-- The command answers a next state that passes the check. -/
def gives (i : Instr) (s : State) (check : State → Bool) : Bool :=
  match exec i s with
  | .next t => check t
  | .fault _ => false
  | .refused _ => false

/-- The last response. -/
def said (t : State) (ok : Bool) (data count : Nat) : Bool :=
  t.responses.getLast? == some { ok := ok, fault := false, cause := 0, data := data, count := count }

/-- The block has just faulted with this cause. -/
def faultedBy (t : State) (cause : BitVec 4) : Bool :=
  t.fault && t.cause == cause &&
    t.responses.getLast? == some { ok := false, fault := true, cause := cause, data := 0, count := 0 }

/-- Three records across the wrap, six bits across the wrap (vectors Q21 to Q30). -/
def wrapped : State :=
  { State.reset with
    headE := 4, tailE := 1, eqm := records [12, 0, 0, 0, 10, 11]
    headB := 5, tailB := 2, bqm := bytes [(0, 0xA3), (1, 1)], hm := bytes [(0x10, 0xD6), (0xFF, 0x81)] }

/-- Both queues full (vectors Q11 to Q20). -/
def full : State :=
  { State.reset with
    headE := 2, tailE := 1, eqm := records [6, 0, 2, 3, 4, 5]
    headB := 1, tailB := 0, bqm := bytes [(0, 0xCD), (1, 1)] }

/-- `wrapped`, stopped by an index fault. -/
def stopped : State := { wrapped with fault := true, cause := 3 }

/-- `wrapped` with zero on consume. -/
def zeroing : State := { wrapped with cfg := { Config.standard with zoc := true } }

/-- Another stale content for `wrapped`: slots 1 to 3 and bits 2 to 4 are not queued. -/
def staled : State := { wrapped with eqm := records [12, 7, 7, 7, 10, 11], bqm := bytes [(0, 0xBF), (1, 1)] }

theorem inv_wrapped : wrapped.Inv := by constructor <;> decide
theorem inv_full : full.Inv := by constructor <;> decide
theorem inv_stopped : stopped.Inv := by constructor <;> decide
theorem inv_zeroing : zeroing.Inv := by constructor <;> decide
theorem inv_staled : staled.Inv := by constructor <;> decide
theorem inv_reset : State.reset.Inv := by constructor <;> decide

/-! ## Well-formedness: an ill-formed term for each check -/

theorem test_wellFormed_data : Instr.wellFormed Config.standard (.eqPush 255) = true ∧
    Instr.wellFormed Config.standard (.eqPush 256) = false := by decide
theorem test_wellFormed_addr : Instr.wellFormed Config.standard (.bqPop 1 0xFFFFFFFF) = true ∧
    Instr.wellFormed Config.standard (.bqPop 1 0x100000000) = false := by decide

/-! ## Words: OP in bits 5..0, DATA in bits 13..6, CNT in bits 45..14, IDX in bits 77..46, ADDR in bits 109..78 (R90, R95) -/

theorem test_word_eqPush : decodeTableWord 112 0b10100101000001 = some (.eqPush 0xA5) := by decide
theorem test_word_eqPop : decodeTableWord 112 0b000010 = some .eqPop := by decide
theorem test_word_eqPopa : decodeTableWord 112 0b000011 = some .eqPopa := by decide
theorem test_word_eqPeek : decodeTableWord 112 0b000100 = some .eqPeek := by decide
theorem test_word_eqClear : decodeTableWord 112 0b000101 = some .eqClear := by decide
theorem test_word_eqRemove : decodeTableWord 112 0x0086 = some (.eqRemove 2) := by decide
theorem test_word_eqGet : decodeTableWord 112 0x800000000007 = some (.eqGet 2) := by decide
theorem test_word_eqSet : decodeTableWord 112 0x400000001548 = some (.eqSet 1 0x55) := by decide
theorem test_word_eqFront : decodeTableWord 112 0b001001 = some .eqFront := by decide
theorem test_word_eqBack : decodeTableWord 112 0b001010 = some .eqBack := by decide
theorem test_word_eqFind : decodeTableWord 112 0x020B = some (.eqFind 8) := by decide
theorem test_word_bqPush8 : decodeTableWord 112 0x23FD1 = some (.bqPush8 0xFF 8) := by decide
theorem test_word_bqPushm : decodeTableWord 112 0x100012 = some (.bqPushm 64 0) := by decide
theorem test_word_bqFpush8 : decodeTableWord 112 0x103D3 = some (.bqFpush8 15 4) := by decide
theorem test_word_bqFpushm : decodeTableWord 112 0x1400000000000000040014 = some (.bqFpushm 16 0x50) := by decide
theorem test_word_bqDrop : decodeTableWord 112 0x3FFFFFFFC015 = some (.bqDrop 0xFFFFFFFF) := by decide
theorem test_word_bqPop : decodeTableWord 112 0x1000000000000000010016 = some (.bqPop 4 0x40) := by decide
theorem test_word_bqGet : decodeTableWord 112 0x840000001000000010017 = some (.bqGet 4 4 0x21) := by decide
theorem test_word_bqClear : decodeTableWord 112 0b011000 = some .bqClear := by decide
theorem test_word_queries : [0x20, 0x21, 0x22, 0x23, 0x24, 0x30, 0x31, 0x32, 0x33, 0x34].map (decodeTableWord 8) =
    [some .eqCap, some .eqSize, some .eqAvail, some .eqEmpty, some .eqFull,
      some .bqCap, some .bqSize, some .bqAvail, some .bqEmpty, some .bqFull] := by decide
theorem test_word_reserved : [0x00, 0x0C, 0x10, 0x19, 0x1F, 0x25, 0x2F, 0x35, 0x3F].all
    (fun w => decodeTableWord 8 w == none) = true := by decide

/-- The table of requests of section 2.5, the other way. -/
theorem test_encode : [encode Config.standard (.eqPush 0xA5), encode Config.standard (.eqSet 3 0x7F),
    encode Config.standard (.bqGet 0x10 0x10 0x80), encode Config.standard (.bqFpushm 12 0xDEADBEEF),
    encode Config.standard (Instr.bqPushbyte 0x41), encode Config.standard (Instr.bqPeek 8 0x10)] =
    [0x2941, 0xC00000001FC8, 0x2000000004000000040017, 0x37AB6FBBC0000000000000030014, 0x21051,
      0x400000000000000020017] := by decide

/-- The table of responses of section 2.5. -/
theorem test_responses : [
    (Response.mk true false 0 165 0).toRsp Config.standard, (Response.mk true false 0 0 64).toRsp Config.standard,
    (Response.mk false true 3 0 0).toRsp Config.standard, (Response.mk true false 0 0 0xFFFFFFFF).toRsp Config.standard] =
    [0x2941, 0x100001, 0xE, 0x3FFFFFFFC001] := by decide

/-- The textual form of R100. -/
theorem test_text : instrText (.bqGet 4 4 33) = "bq.get 4, 4, 33" ∧
    responseText (Response.mk false true 3 0 0) = "-> ok=0 data=0 count=0 fault=1 cause=3" := by decide

/-! ## Element Queue -/

/-- E2. -/
theorem test_eqPush_wraps : gives (.eqPush 9) (element 2 5 [0, 1, 2, 3, 4]) (fun t =>
    said t true 0 0 && t.tailE == 0 && t.eqm == records [0, 1, 2, 3, 4, 9]) = true := by decide
/-- E3. -/
theorem test_eqPush_full : gives (.eqPush 9) full (fun t => said t false 0 0 && t.eqm == full.eqm) = true := by decide
/-- E4. -/
theorem test_eqPop_wraps : gives .eqPop (element 5 1 [8, 0, 0, 0, 0, 7]) (fun t =>
    said t true 7 0 && t.headE == 0 && t.eqm == records [8, 0, 0, 0, 0, 7]) = true := by decide
/-- E5. -/
theorem test_eqPop_empty : gives .eqPop (element 3 3 [1, 2, 3, 4, 5, 6]) (fun t =>
    said t false 0 0 && !t.fault && t.headE == 3) = true := by decide
/-- E6. -/
theorem test_eqPopa : gives .eqPopa (element 0 2 [4, 5]) (fun t => said t true 4 0 && t.headE == 1) = true := by decide
/-- E7. -/
theorem test_eqPopa_empty : gives .eqPopa (element 3 3 [1, 2, 3]) (fun t =>
    faultedBy t 2 && t.headE == 3) = true := by decide
/-- E8. -/
theorem test_eqPeek : gives .eqPeek (element 4 5 [0, 0, 0, 0, 9]) (fun t => said t true 9 0 && t.headE == 4) = true := by
  decide
/-- E10. -/
theorem test_eqClear : gives .eqClear (element 3 1 [1, 2, 3, 4, 5, 6]) (fun t =>
    said t true 0 0 && t.headE == 0 && t.tailE == 0 && t.eqm == records [1, 2, 3, 4, 5, 6]) = true := by decide
/-- E11. -/
theorem test_eqRemove_wraps : gives (.eqRemove 2) (element 4 3 [2, 4, 2, 0, 2, 3]) (fun t =>
    said t true 0 3 && t.headE == 4 && t.tailE == 0 && t.eqm == records [2, 4, 2, 0, 3, 4]) = true := by decide
/-- E14. -/
theorem test_eqRemove_stale : gives (.eqRemove 7) (element 2 2 [7, 7, 7, 7, 7, 7]) (fun t =>
    said t true 0 0 && t.tailE == 2) = true := by decide
/-- E15. -/
theorem test_eqGet_wraps : gives (.eqGet 2) wrapped (fun t => said t true 12 0) = true := by decide
/-- E17. -/
theorem test_eqGet_natural : gives (.eqGet 0xFFFFFFFF) (element 0 1 [1]) (fun t => faultedBy t 3) = true := by decide
/-- E18. -/
theorem test_eqSet : gives (.eqSet 1 0x63) wrapped (fun t =>
    said t true 0 0 && t.eqm == records [12, 0, 0, 0, 10, 99]) = true := by decide
/-- E20. -/
theorem test_eqFront : gives .eqFront (element 2 0 [0, 1, 2, 3, 4, 5]) (fun t => said t true 2 0) = true := by decide
/-- E22. -/
theorem test_eqBack_wraps : gives .eqBack (element 2 0 [0, 1, 2, 3, 4, 5]) (fun t => said t true 5 0) = true := by decide
/-- E25. -/
theorem test_eqFind_stale : gives (.eqFind 2) (element 0 3 [3, 4, 5, 5, 2]) (fun t => said t false 0 0) = true := by decide
/-- E28, with `W = 4`. -/
theorem test_eqFind_narrow : gives (.eqFind 0xFA)
    { element 0 2 [10, 11] with cfg := { Config.standard with w := 4 } } (fun t => said t true 0 0) = true := by decide

/-! ## Bit Queue -/

/-- B1. -/
theorem test_bqPush8_wraps : gives (.bqPush8 11 4) (bitState 10 false 9 9 [(0, 0xFF), (1, 0xFF)] []) (fun t =>
    said t true 0 0 && t.tailB == 2 && t.bqm == bytes [(0, 0xFE), (1, 0xFF)]) = true := by decide
/-- F4. -/
theorem test_bqPush8_count : gives (.bqPush8 0 9) (bitState 8 false 0 8 [] []) (fun t => faultedBy t 4) = true := by decide
/-- B7. -/
theorem test_bqPushm_wraps : gives (.bqPushm 12 0x10) (bitState 16 false 10 10 [] [(0x10, 0xAB), (0x11, 0xFD)]) (fun t =>
    said t true 0 0 && t.tailB == 5 && t.bqm == bytes [(0, 0x1B), (1, 0xAC)]) = true := by decide
/-- B8. -/
theorem test_bqPushm_order : gives (.bqPushm 8 0xFFFFFFF0) (bitState 16 false 0 14 [(0, 0xFF), (1, 0x3F)] []) (fun t =>
    said t false 0 0) = true := by decide
/-- L1-5 with `ZOC = 1`. -/
theorem test_bqFpush8_evicts : gives (.bqFpush8 1 1) (bitState 8 true 0 8 [(0, 0xCD)] []) (fun t =>
    said t true 0 1 && t.headB == 1 && t.tailB == 0 && t.bqm == bytes [(0, 0xCC), (1, 1)]) = true := by decide
/-- B14. -/
theorem test_bqFpush8_clamps : gives (.bqFpush8 0x16 5) (bitState 2 false 0 2 [(0, 3)] []) (fun t =>
    said t true 0 2 && t.headB == 2 && t.tailB == 1 && t.queueB == [false, true]) = true := by decide
/-- P4 row 6. -/
theorem test_bqFpushm : gives (.bqFpushm 16 0x50) (bitState 12 true 6 1 [(0, 0x41), (1, 0xFF)] [(0x50, 0x12), (0x51, 0x34)])
    (fun t => said t true 0 8 && t.headB == 1 && t.tailB == 0 && t.bqm == bytes [(0, 0x82), (1, 0xE6)]) = true := by decide
/-- B18. -/
theorem test_bqFpushm_range : gives (.bqFpushm 16 0xFF) (bitState 8 true 0 8 [(0, 0xFF)] []) (fun t =>
    faultedBy t 5 && t.headB == 0 && t.bqm == bytes [(0, 0xFF)]) = true := by decide
/-- B20. -/
theorem test_bqDrop_zeroes : gives (.bqDrop 4) (bitState 16 true 6 12 [(0, 0xFF), (1, 0xFF), (2, 0xFF)] []) (fun t =>
    said t true 0 4 && t.headB == 10 && t.bqm == bytes [(0, 0x3F), (1, 0xFC), (2, 0xFF)]) = true := by decide
/-- B22. -/
theorem test_bqDrop_clamps : gives (.bqDrop 100) (bitState 16 false 6 12 [(0, 0xFF)] []) (fun t =>
    said t true 0 6 && t.headB == 12) = true := by decide
/-- B24; bits 5 to 7 of the byte are kept. -/
theorem test_bqPop_underflow : gives (.bqPop 8 0x20) (bitState 8 false 3 8 [(0, 0xB8)] [(0x20, 0xE0)]) (fun t =>
    said t true 0 5 && t.headB == 8 && t.hm == bytes [(0x20, 0xF7)]) = true := by decide
/-- B27. -/
theorem test_bqPop_range : gives (.bqPop 16 0xFF) (bitState 16 false 0 16 [(0, 0x34), (1, 0x12)] []) (fun t =>
    faultedBy t 5 && t.headB == 0 && t.hm == []) = true := by decide
/-- B29. -/
theorem test_bqGet_wraps : gives (.bqGet 1 3 0x31) (bitState 10 false 8 3 [(1, 5)] []) (fun t =>
    said t true 0 3 && t.headB == 8 && t.hm == bytes [(0x31, 2)]) = true := by decide
/-- B31. -/
theorem test_bqGet_past : gives (.bqGet 5 0 0) (bitState 8 false 0 4 [(0, 0x0F)] []) (fun t => said t false 0 0) = true := by
  decide
/-- P4 row 10: no bit is cleared under `ZOC = 1`. -/
theorem test_bqClear : gives .bqClear (bitState 12 true 6 0 [(0, 0x80), (1, 0xE6)] []) (fun t =>
    said t true 0 0 && t.headB == 0 && t.tailB == 0 && t.bqm == bytes [(0, 0x80), (1, 0xE6)]) = true := by decide
/-- The chunk table of section 2.2. -/
theorem test_chunks : chunks 21 13 10 = [(13, 3), (16, 5), (0, 2)] ∧ chunks 65 5 20 = [(5, 3), (8, 8), (16, 8), (24, 1)] ∧
    chunks 8 7 7 = [(7, 1), (0, 6)] := by decide

/-! ## Status queries (Q11 to Q30) -/

theorem test_eqCap : gives .eqCap wrapped (fun t => said t true 0 5) = true := by decide
theorem test_eqSize : gives .eqSize wrapped (fun t => said t true 0 3) = true := by decide
theorem test_eqAvail : gives .eqAvail wrapped (fun t => said t true 0 2) = true := by decide
theorem test_eqEmpty : gives .eqEmpty wrapped (fun t => said t false 0 0) = true := by decide
theorem test_eqFull : gives .eqFull full (fun t => said t true 0 0) = true := by decide
theorem test_bqCap : gives .bqCap full (fun t => said t true 0 8) = true := by decide
theorem test_bqSize : gives .bqSize wrapped (fun t => said t true 0 6) = true := by decide
theorem test_bqAvail : gives .bqAvail wrapped (fun t => said t true 0 2) = true := by decide
theorem test_bqEmpty : gives .bqEmpty State.reset (fun t => said t true 0 0) = true := by decide
theorem test_bqFull : gives .bqFull full (fun t => said t true 0 0) = true := by decide

/-! ## Faults, reset and the port -/

/-- F3 row 3: a faulted block does not clear. -/
theorem test_fault_sticks : gives .eqClear stopped (fun t => faultedBy t 3 && t.headE == 4) = true := by decide

/-- F1: a reserved opcode through the port. -/
theorem test_step_reserved : (match step (State.reset.withFetchWord 8 0x3F) with
    | .next t => faultedBy t 1
    | .fault _ => false
    | .refused _ => false) = true := by decide

/-- A table word placed at the port is the command the next step runs. -/
theorem test_step_runs : step (State.reset.withFetchWord 112 0x2941) = exec (.eqPush 0xA5) State.reset := by rfl

/-- F3 row 6: reset, with the draw that keeps both stores. -/
theorem test_step_reset :
    (match step { stopped with inputs := [.assertReset { eqm := [], bqm := [], abandoned := none, hm := [] }] } with
    | .next t => !t.fault && t.cause == 0 && t.sizeE == 0 && t.sizeB == 0 && t.eqm == stopped.eqm && t.rst &&
        t.responses == []
    | .fault _ => false
    | .refused _ => false) = true := by decide

/-- What the host may inspect (R72, R75). -/
theorem test_inspect : wrapped.inspectEqm 5 = some 11 ∧ wrapped.inspectEqm 6 = none ∧ wrapped.inspectBqm 1 = some 1 ∧
    wrapped.inspectBqm 2 = none ∧ wrapped.inspectHm 0xFF = some 0x81 ∧ wrapped.inspectHm 0x100 = none := by decide

/-! ## The hypotheses of the statements are met, clause by clause and at the ends of their ranges

A statement whose hypotheses are `State.Inv` and `FAULT = 0`, or `State.ready`, alone is met by `wrapped`, `full`, `zeroing` and
`State.reset`; the others are named here. -/

theorem witness_inv : wrapped.Inv ∧ full.Inv ∧ zeroing.Inv ∧ State.reset.Inv ∧
    wrapped.fault = false ∧ full.fault = false ∧ zeroing.fault = false ∧ State.reset.fault = false :=
  ⟨inv_wrapped, inv_full, inv_zeroing, inv_reset, rfl, rfl, rfl, rfl⟩

theorem witness_ready : wrapped.ready ∧ full.ready ∧ zeroing.ready ∧ State.reset.ready := by decide

theorem witness_DecodeOfEncodeIsTheCommand : (Instr.bqPop 0xFFFFFFFF 0xFFFFFFFF).wellFormed Config.standard = true ∧
    (Instr.eqSet 0 255).wellFormed Config.standard = true ∧ Instr.bqFull.wellFormed Config.standard = true := by decide

theorem witness_DecodedCommandCarriesItsClassFields :
    (decode Config.standard 0x2000000004000000040017).toOption = some (.bqGet 16 16 0x80) ∧
    OperandClass.ica.readsCnt = true ∧ OperandClass.ica.readsIdx = true ∧ OperandClass.ica.readsAddr = true ∧
    OperandClass.d.readsData = true := by decide

theorem witness_ReservedOpcodesFault : wrapped.ready ∧ wrapped.rst = false ∧
    ([0x00, 0x0C, 0x10, 0x19, 0x1F, 0x25, 0x2F, 0x35, 0x3F].all fun op => decide (reservedOpcode op)) = true ∧
    ([0x01, 0x0B, 0x11, 0x18, 0x20, 0x24, 0x30, 0x34].all fun op => decide (¬ reservedOpcode op)) = true ∧
    { wrapped with inputs := [.request 0] }.inputs = .request 0 :: [] ∧
    { wrapped with inputs := [.request 0] }.ready := by decide

/-- Two requests for `eq.get 2` that differ in every field the class does not read, and two for `bq.push8 11, 4` that differ in
DATA above bit 3. -/
theorem witness_UnusedRequestFieldsHaveNoEffect :
    (decode Config.standard 0x800000000007).toOption = some (.eqGet 2) ∧
    (decode Config.standard 0x240000000800000017fc7).toOption = some (.eqGet 2) ∧
    (decode Config.standard 0x102D1).toOption = some (.bqPush8 11 4) ∧
    (decode Config.standard 0x13ED1).toOption = some (.bqPush8 0xFB 4) ∧
    (∀ k < min 8 4, (11 : Nat).testBit k = (0xFB : Nat).testBit k) := by decide

theorem witness_ResponseFieldsAreTheirBits : (Response.mk true false 0 255 0xFFFFFFFF).wf Config.standard ∧
    (Response.mk false true 5 0 0).wf Config.standard := by decide

/-- A step that performs a command, one that takes a request during reset, one that resets, and one that writes HM. -/
theorem witness_EveryStepKeepsTheInvariant :
    (∃ t, step (wrapped.withFetchWord 8 0x02) = .next t) ∧
    (∃ t, step { wrapped with rst := true, inputs := [.request 2] } = .next t) ∧
    (∃ t, step { stopped with inputs := [.assertReset { eqm := [(5, 3)], bqm := [(1, 7)], abandoned := none, hm := [] }] } =
      .next t) ∧
    (∃ t, step { wrapped with inputs := [.writeHM 0xFF 7] } = .next t) ∧ (∃ t, step wrapped = .next t) :=
  ⟨⟨_, rfl⟩, ⟨_, rfl⟩, ⟨_, rfl⟩, ⟨_, rfl⟩, ⟨_, rfl⟩⟩

theorem witness_EveryStepAnswersButForStrayHostWrites : { wrapped with inputs := [.writeHM 0xFF 7] }.Inv ∧ 0xFF < wrapped.cfg.hmSize :=
  ⟨by constructor <;> decide, by decide⟩

theorem witness_StepRunsTheDecodedCommand :
    (wrapped.withFetchWord 8 0x02).cfg.legal = true ∧ (wrapped.withFetchWord 8 0x02).rst = false ∧
    (wrapped.withFetchWord 8 0x02).inputs = [.request 2] ∧ (decode wrapped.cfg 2).toOption = some .eqPop := by decide

theorem witness_IdleBlockHoldsItsState : wrapped.cfg.legal = true ∧ wrapped.inputs = [] := by decide

theorem witness_IllegalConfigurationsAreRefused :
    { Config.standard with cB := 1 }.cB < 2 ∧ { Config.standard with cE := 0 }.cE < 1 ∧
    2 ^ 32 < { Config.standard with cE := 0xFFFFFFFF + 1 }.cE + 1 ∧ 32 < { Config.standard with aw := 33 }.aw ∧
    2 ^ 8 < { Config.standard with aw := 8, hmSize := 257 }.hmSize ∧
    { Config.standard with cE := 0xFFFFFFFF, cB := 2, aw := 8 }.legal = true := by decide

theorem witness_UnreachableRegisterValuesStop :
    { wrapped with headE := 6 }.cfg.cE < 6 ∧ { wrapped with tailB := 9 }.cfg.cB < 9 ∧ wrapped.cfg.legal = true ∧
    wrapped.fault = false ∧ { wrapped with headE := 5, tailB := 8 }.indexesLegal = true := by decide

theorem witness_EveryStoreContentIsAResetDraw : wrapped.Inv ∧ Memory.wf unlistedRecord 6 (records [0, 255, 0, 0, 0, 1]) ∧
    (∀ x ∈ records [0, 255, 0, 0, 0, 1], x.2 < 2 ^ 8) ∧ Memory.wf unlistedByte 2 (bytes [(1, 0xFF)]) ∧
    wrapped.cfg.pE = 6 ∧ wrapped.cfg.nbB = 2 := ⟨inv_wrapped, by decide⟩

/-- Reset in the middle of `bq.pop 6, 0x10`: its region is the byte `0x10`; the byte `0x11` lies outside. -/
theorem witness_ResetAbandonsTheCommandInProgress :
    (decode wrapped.cfg (encode wrapped.cfg (.bqPop 6 0x10))).toOption = some (.bqPop 6 0x10) ∧
    wrapped.hmRegion (.bqPop 6 0x10) = (0x10, 1) ∧ wrapped.cfg.legal = true := by decide

/-- Asserted again, reset changes no HM byte, whatever request its draw names (assumptions 23 and 25). -/
theorem test_step_reset_again :
    (match step { wrapped with rst := true, inputs := [.assertReset
        { eqm := [], bqm := [], abandoned := some (encode wrapped.cfg (.bqPop 6 0x10)), hm := [(0x10, 0)] }] } with
    | .next t => t.hm == wrapped.hm && t.rst && t.sizeB == 0
    | .fault _ => false
    | .refused _ => false) = true := by decide

theorem witness_RequestsDuringResetAreIgnored :
    { stopped with inputs := [.assertReset { eqm := [], bqm := [], abandoned := none, hm := [] }, .releaseReset, .request 2] }.inputs =
      [.assertReset { eqm := [], bqm := [], abandoned := none, hm := [] }, .releaseReset, .request 2] ∧
    { wrapped with rst := true, inputs := [.request 2] }.rst = true ∧
    { wrapped with rst := true, inputs := [.request 2] }.inputs = [.request 2] ∧
    { wrapped with rst := true, inputs := [.releaseReset] }.inputs = [.releaseReset] := by decide

theorem witness_OnlyResetLeavesTheFaultedState : stopped.fault = true ∧ (∃ t, step (stopped.withFetchWord 8 2) = .next t) ∧
    (∃ t, step { stopped with inputs := [.assertReset { eqm := [], bqm := [], abandoned := none, hm := [] }] } = .next t) :=
  ⟨rfl, ⟨_, rfl⟩, ⟨_, rfl⟩⟩

theorem witness_FaultedBlockPerformsNothing : stopped.cfg.legal = true ∧ stopped.fault = true ∧ stopped.rst = false ∧
    (stopped.withFetchWord 8 0).inputs = [.request 0] := by decide

theorem witness_FaultEntryChangesNothingElse : wrapped.fault = false ∧
    gives (.eqGet 3) wrapped (fun t => t.fault) = true ∧ (∃ t, serve 0 wrapped = .next t ∧ t.fault = true) :=
  ⟨rfl, by decide, ⟨_, rfl, rfl⟩⟩

/-- Each cause of R291, at the first operand that raises it, and the operand next to it that does not. -/
theorem witness_CommandsFaultExactlyAsTheCauseTableSays :
    State.reset.faultOf .eqPopa = some .eqEmpty ∧ wrapped.faultOf .eqPopa = none ∧
    wrapped.faultOf (.eqGet 3) = some .eqIndex ∧ wrapped.faultOf (.eqGet 2) = none ∧
    wrapped.faultOf (.bqPush8 0 9) = some .bqCnt8 ∧ wrapped.faultOf (.bqPush8 0 8) = none ∧
    wrapped.faultOf (.bqPushm 2 0x100) = some .hmRange ∧ wrapped.faultOf (.bqPushm 2 0xFF) = none ∧
    wrapped.faultOf (.bqPushm 3 0x100) = none ∧ wrapped.faultOf (.bqFpushm 9 0xFF) = some .hmRange ∧
    wrapped.faultOf (.bqPop 9 0x100) = some .hmRange ∧ wrapped.faultOf (.bqPop 9 0xFF) = none ∧
    wrapped.faultOf (.bqGet 5 1 0x100) = some .hmRange ∧ wrapped.faultOf (.bqGet 6 1 0x100) = none ∧
    wrapped.faultOf (.bqGet 6 0 0x100) = none := by decide

/-- Each failure of R290, and a command that neither fails nor faults. -/
theorem witness_RecoverableFailuresAreExactlyTheTable :
    full.failsOn (.eqPush 1) = true ∧ wrapped.failsOn (.eqPush 1) = false ∧ State.reset.failsOn .eqPop = true ∧
    State.reset.failsOn .eqPeek = true ∧ wrapped.failsOn (.bqPush8 0 3) = true ∧ wrapped.failsOn (.bqPush8 0 2) = false ∧
    wrapped.failsOn (.bqPushm 3 0) = true ∧ wrapped.failsOn (.bqGet 4 3 0) = true ∧ wrapped.failsOn (.bqGet 4 2 0) = false ∧
    wrapped.faultOf (.bqGet 4 2 0) = none := by decide

theorem witness_booleanResult : ¬ booleanResult (.bqGet 4 2 0) ∧ booleanResult .eqEmpty := by
  constructor
  · simp [booleanResult]
  · exact .inr (.inl rfl)

theorem witness_HostWritesLandBeforeTheNextCommand :
    { wrapped with inputs := [.writeHM 0xFF 7] }.inputs = [.writeHM 0xFF 7] ∧ 0xFF < wrapped.cfg.hmSize ∧
    { wrapped with inputs := [.writeHM 0x100 7] }.inputs = [.writeHM 0x100 7] ∧ wrapped.cfg.hmSize ≤ 0x100 := by decide

/-- Two states that agree on one unit only. -/
theorem witness_UnitsShareOnlyTheFaultState : wrapped.indexesLegal = true ∧
    { wrapped with headB := 0, tailB := 1, hm := [] }.indexesLegal = true ∧
    agreeE wrapped { wrapped with headB := 0, tailB := 1, hm := [] } ∧
    agreeB wrapped { wrapped with headE := 0, tailE := 5, eqm := [] } ∧
    (∃ t, exec (.eqPush 1) wrapped = .next t) ∧ (∃ t, exec (.bqPop 3 0) wrapped = .next t) ∧
    (Instr.eqPush 1).opcode.getLsbD 4 = false ∧ (Instr.bqPop 3 0).opcode.getLsbD 4 = true :=
  ⟨by decide, by decide, by decide, by decide, ⟨_, rfl⟩, ⟨_, rfl⟩, by decide, by decide⟩

theorem witness_HostMemoryOutsideTheRegionIsUntouched : (∃ t, exec (.bqPop 3 0x10) wrapped = .next t) ∧
    wrapped.hmRegion (.bqPop 3 0x10) = (0x10, 1) := ⟨⟨_, rfl⟩, by decide⟩

/-- Bits 9 to 15 are padding: `P_B` is 9. -/
theorem witness_PaddingBitsAreNeverWritten : (∃ t, exec (.bqFpush8 0xFF 8) wrapped = .next t) ∧ wrapped.cfg.pB ≤ 9 :=
  ⟨⟨_, rfl⟩, by decide⟩

theorem witness_StaleContentIsInvisible : wrapped.Inv ∧ staled.Inv ∧ sameObservation wrapped staled ∧
    wrapped.eqm ≠ staled.eqm ∧ wrapped.bqm ≠ staled.bqm ∧ (∃ t, exec (.eqRemove 10) wrapped = .next t) :=
  ⟨inv_wrapped, inv_staled, by decide, by decide, by decide, ⟨_, rfl⟩⟩

theorem witness_RingInvariantsHold : wrapped.Inv ∧ (∃ t, step (wrapped.withFetchWord 8 2) = .next t) :=
  ⟨inv_wrapped, ⟨_, rfl⟩⟩

theorem witness_EqPushAppendsTheRecord : full.sizeE = full.cfg.cE ∧ wrapped.sizeE ≠ wrapped.cfg.cE := by decide

theorem witness_EqPopTakesTheOldestRecord : State.reset.headE = State.reset.tailE ∧ wrapped.headE ≠ wrapped.tailE := by decide

theorem witness_EqReadsReturnQueuedRecords : wrapped.queueE.head? = some 10 ∧ wrapped.queueE.getLast? = some 12 ∧
    wrapped.queueE[2]? = some 12 ∧ State.reset.headE = State.reset.tailE ∧ wrapped.sizeE ≤ 3 := by decide

theorem witness_EqSetReplacesOneRecord : wrapped.sizeE ≤ (3 : BitVec 32).toNat ∧ (2 : BitVec 32).toNat < wrapped.sizeE := by
  decide

theorem witness_ElementQueueClearsNoVacatedRecord :
    (∃ t, exec .eqPop wrapped = .next t) ∧ (∃ t, exec .eqPopa wrapped = .next t) ∧ (∃ t, exec .eqClear wrapped = .next t) ∧
    (∃ t, exec (.eqRemove 11) wrapped = .next t ∧ t.sizeE ≤ 2 ∧ 2 < wrapped.sizeE) :=
  ⟨⟨_, rfl⟩, ⟨_, rfl⟩, ⟨_, rfl⟩, ⟨_, rfl, by decide⟩⟩

/-- `wrapped` has 6 bits and room for 2. -/
theorem witness_BqPushAppendsTheBits : wrapped.availB = 2 ∧ (2 : BitVec 32).toNat ≤ 8 ∧
    0xFF + ((2 : BitVec 32).toNat + 7) / 8 ≤ wrapped.cfg.hmSize ∧ wrapped.cfg.hmSize < 0x100 + ((2 : BitVec 32).toNat + 7) / 8 ∧
    8 < (9 : BitVec 32).toNat ∧ wrapped.availB < (3 : BitVec 32).toNat ∧ ¬ touches wrapped.cfg wrapped.tailB 2 4 := by decide

theorem witness_BqForcePushKeepsTheNewestBits : (8 : BitVec 32).toNat ≤ 8 ∧
    0xFE + ((16 : BitVec 32).toNat + 7) / 8 ≤ full.cfg.hmSize ∧ full.cfg.hmSize < 0xFF + ((16 : BitVec 32).toNat + 7) / 8 ∧
    8 < (9 : BitVec 32).toNat ∧ ¬ touches full.cfg full.tailB 8 8 := by decide

theorem witness_BqPopMovesTheOldestBitsToHostMemory : min (8 : BitVec 32).toNat State.reset.sizeB = 0 ∧
    0xFF + (min (9 : BitVec 32).toNat wrapped.sizeB + 7) / 8 ≤ wrapped.cfg.hmSize ∧
    0 < min (9 : BitVec 32).toNat wrapped.sizeB ∧
    wrapped.cfg.hmSize < 0x100 + (min (9 : BitVec 32).toNat wrapped.sizeB + 7) / 8 ∧
    ¬ (8 * 0xFF ≤ 8 * 0xFF + 6 ∧ 8 * 0xFF + 6 < 8 * 0xFF + min (9 : BitVec 32).toNat wrapped.sizeB) := by decide

theorem witness_BqGetCopiesQueuedBits : wrapped.sizeB < (4 : BitVec 32).toNat + (3 : BitVec 32).toNat ∧
    (4 : BitVec 32).toNat + (2 : BitVec 32).toNat ≤ wrapped.sizeB ∧
    wrapped.cfg.hmSize < 0x100 + ((2 : BitVec 32).toNat + 7) / 8 ∧ 0xFF + ((2 : BitVec 32).toNat + 7) / 8 ≤ wrapped.cfg.hmSize := by
  decide

theorem witness_OnlyEvictionAndPushedZerosClearBits : (∃ t, exec .bqClear zeroing = .next t) ∧ (∃ t, exec (.bqGet 0 3 0) zeroing = .next t) ∧
    (∃ t, exec (.bqDrop 3) wrapped = .next t) ∧
    (∃ t, exec (.bqPop 3 0) zeroing = .next t ∧ touches zeroing.cfg zeroing.headB (zeroing.sizeB - t.sizeB) 7 ∧
      bitAt zeroing.bqm 7 = true ∧ bitAt t.bqm 7 = false) ∧
    (∃ t, exec (.bqPush8 0 1) staled = .next t ∧ bitAt staled.bqm 2 = true ∧ bitAt t.bqm 2 = false) :=
  ⟨⟨_, rfl⟩, ⟨_, rfl⟩, ⟨_, rfl⟩, ⟨_, rfl, by decide⟩, ⟨_, rfl, by decide⟩⟩

/-- A forced push of 8 bits on the full queue vacates all 8 old bits; a push of 2, a POP and a GET of `wrapped`. -/
theorem witness_BitQueueFollowsItsFifoLaws : full.faultOf (.bqFpush8 0xA5 8) = none ∧ full.failsOn (.bqFpush8 0xA5 8) = false ∧
    full.evictedBits (.bqFpush8 0xA5 8) = 8 ∧
    full.contentAfterB (.bqFpush8 0xA5 8) = [true, false, true, false, false, true, false, true] ∧
    wrapped.faultOf (.bqPushm 2 0xFF) = none ∧ wrapped.failsOn (.bqPushm 2 0xFF) = false ∧
    wrapped.faultOf (.bqPop 9 0xFF) = none ∧ wrapped.failsOn (.bqPop 9 0xFF) = false ∧
    wrapped.faultOf (.bqGet 4 2 0xFF) = none ∧ wrapped.failsOn (.bqGet 4 2 0xFF) = false := by decide

theorem witness_ChunksStayInsideBytesAndTheRing : 13 < 21 ∧ 10 < 21 ∧ (chunks 21 13 10)[1]? = some (16, 5) := by decide

/-- `11` in two push calls, `1101` from HM, popped 3 and 5 bits at a time. -/
theorem witness_ChunkingIndependence :
    let s := bitState 20 false 15 15 [] [(0, 0xA5)]
    let pushes : List PushCall := [.byte 0xCD 4, .source 4 0]
    let pops : List (BitVec 32 × Nat) := [(3, 0xFE), (5, 0xFF)]
    s.Inv ∧ s.fault = false ∧ s.sizeB = 0 ∧ (∀ p ∈ pushes, p.legal s.cfg) ∧
    (pushes.map (·.bits s.hm)).flatten = [true, false, true, true, true, false, true, false] ∧
    (pushes.map (·.bits s.hm)).flatten.length ≤ s.cfg.cB ∧
    (pops.map (·.1.toNat)).sum = (pushes.map (·.bits s.hm)).flatten.length ∧
    (∀ r ∈ pops, r.1.toNat = 0 ∨ r.2 + ceilDiv8 r.1.toNat ≤ s.cfg.hmSize) ∧
    pops.Pairwise (fun a b => a.1.toNat = 0 ∨ b.1.toNat = 0 ∨ a.2 + ceilDiv8 a.1.toNat ≤ b.2 ∨ b.2 + ceilDiv8 b.1.toNat ≤ a.2) := by
  refine ⟨by constructor <;> decide, rfl, by decide, ?_, by decide, by decide, by decide, by decide, by decide⟩
  simp [PushCall.legal, hmInRange]; decide

theorem witness_ReadsHaveNoCumulativeEffect : Instr.eqSize.opcode.getLsbD 5 = true ∧ (∃ t, exec .eqPeek wrapped = .next t) ∧
    (∃ t, exec (.bqGet 0 6 0xFF) wrapped = .next t) ∧ (∃ t, exec (.eqGet 3) wrapped = .next t ∧ t.fault = true) :=
  ⟨by decide, ⟨_, rfl⟩, ⟨_, rfl⟩, ⟨_, rfl, rfl⟩⟩

theorem witness_PseudoCommandsExpand : (6 : BitVec 32).toNat ≤ wrapped.sizeB ∧
    0xFF + ceilDiv8 (6 : BitVec 32).toNat ≤ wrapped.cfg.hmSize := by decide

end Sys2Proof.Tests
end

/-! PROOFS. The family of spec/00_scope.md: a configuration that cannot be built has no semantics (R11), and the two units share
nothing but the fault state (R12).

R12 is proved through one property of a command's effect, `LocalTo`: it commutes with grafting the other unit's part of the
state. Grafted onto itself, a state gives the frame; grafted onto an agreeing state, it gives the independence. -/

namespace Sys2Proof.Machine

/-! ## Illegal configurations (R11) -/

/-- A configuration with a field outside its bound of R10 cannot be built. -/
theorem Config.legal_eq_false {c : Config} (h : c.cB < 2 ∨ c.cE < 1 ∨ 2 ^ 32 < c.cE + 1 ∨ 2 ^ 32 < c.cB + 1 ∨ c.w < 1 ∨
    c.aw < 1 ∨ 32 < c.aw ∨ 2 ^ c.aw < c.hmSize) : c.legal = false := by
  refine Bool.eq_false_iff.2 fun hl => ?_
  have := legal_bounds hl
  omega

theorem step_illegal {s : State} (hl : s.cfg.legal = false) : step s = .refused .illegalConfiguration := by
  simp [step, stepInput, hl]

theorem exec_illegal {s : State} (i : Instr) (hl : s.cfg.legal = false) : exec i s = .refused .illegalConfiguration := by
  obtain ⟨f, hf⟩ := exec_perform i
  rw [hf, perform_illegal f hl]

/-- Settles O13: every step and every command begins with the check of the configuration. -/
theorem illegalConfigurationsAreRefused : Obligations.IllegalConfigurationsAreRefused := fun _ h =>
  have hl := Config.legal_eq_false h
  ⟨step_illegal hl, fun i => exec_illegal i hl⟩

/-! ## Grafts and local effects -/

/-- `u` with everything that an Element Queue command may read or change taken from `s` (`agreeE`). -/
def State.graftE (u s : State) : State :=
  { u with cfg := s.cfg, headE := s.headE, tailE := s.tailE, eqm := s.eqm, fault := s.fault, cause := s.cause,
           responses := s.responses }

/-- `u` with everything that a Bit Queue command may read or change taken from `s` (`agreeB`). -/
def State.graftB (u s : State) : State :=
  { u with cfg := s.cfg, headB := s.headB, tailB := s.tailB, bqm := s.bqm, hm := s.hm, fault := s.fault, cause := s.cause,
           responses := s.responses }

/-- An effect that neither reads nor changes what `graft u` takes from `u`, and keeps the configuration. -/
structure LocalTo (graft : State → State → State) (f : State → State) : Prop where
  cfg_eq : ∀ s, (f s).cfg = s.cfg
  graft_comm : ∀ u s, f (graft u s) = graft u (f s)

variable {s s' t : State} {f g : State → State} {graft : State → State → State}

theorem graftE_eq_of_agreeE (h : agreeE s s') : s'.graftE s = s' := by
  obtain ⟨hcfg, hhead, htail, heqm, ⟨hfault, hcause⟩, hresp⟩ := h
  simp [State.graftE, hcfg, hhead, htail, heqm, ← hfault, ← hcause, hresp]

theorem graftB_eq_of_agreeB (h : agreeB s s') : s'.graftB s = s' := by
  obtain ⟨hcfg, hhead, htail, hbqm, hhm, ⟨hfault, hcause⟩, hresp⟩ := h
  simp [State.graftB, hcfg, hhead, htail, hbqm, hhm, ← hfault, ← hcause, hresp]

/-- An effect local to the Element Queue changes nothing else, HM included. -/
theorem LocalTo.frameE (hg : LocalTo State.graftE g) (s : State) : sameButE s (g s) ∧ (g s).hm = s.hm := by
  have h : g s = s.graftE (g s) := hg.graft_comm s s
  rw [h]
  exact ⟨⟨hg.cfg_eq s, rfl, rfl, rfl, rfl, rfl⟩, rfl⟩

/-- An effect local to the Bit Queue changes nothing else but HM. -/
theorem LocalTo.frameB (hg : LocalTo State.graftB g) (s : State) : sameButB s (g s) := by
  have h : g s = s.graftB (g s) := hg.graft_comm s s
  rw [h]
  exact ⟨hg.cfg_eq s, rfl, rfl, rfl, rfl, rfl⟩

/-- An effect local to the Element Queue does the same in two states that agree there. -/
theorem LocalTo.agreeE (hg : LocalTo State.graftE g) (h : agreeE s s') : agreeE (g s) (g s') := by
  have hs' : g s' = s'.graftE (g s) := by rw [← hg.graft_comm, graftE_eq_of_agreeE h]
  rw [hs']
  exact ⟨rfl, rfl, rfl, rfl, ⟨rfl, rfl⟩, rfl⟩

/-- An effect local to the Bit Queue does the same in two states that agree there. -/
theorem LocalTo.agreeB (hg : LocalTo State.graftB g) (h : agreeB s s') : agreeB (g s) (g s') := by
  have hs' : g s' = s'.graftB (g s) := by rw [← hg.graft_comm, graftB_eq_of_agreeB h]
  rw [hs']
  exact ⟨rfl, rfl, rfl, rfl, rfl, ⟨rfl, rfl⟩, rfl⟩

/-- A choice between local effects is local, when its condition reads nothing of the other unit. -/
theorem LocalTo.ite {c : State → Prop} [∀ s, Decidable (c s)] (hc : ∀ u s, c (graft u s) ↔ c s) (hf : LocalTo graft f)
    (hg : LocalTo graft g) : LocalTo graft (fun s => if c s then f s else g s) where
  cfg_eq s := by
    split
    · exact hf.cfg_eq s
    · exact hg.cfg_eq s
  graft_comm u s := by simp only [hc, hf.graft_comm, hg.graft_comm, apply_ite (graft u)]

/-- A command whose effect is local does one and the same local thing (its effect, or the answer of a faulted block) in any two
states of one configuration and fault state whose registers are legal: the checks of R292 read nothing else. -/
theorem LocalTo.exec_next {i : Instr} (hf : LocalTo graft f) (hx : ∀ s, exec i s = perform s f)
    (ha : LocalTo graft State.answerFaulted) (h : exec i s = .next t) :
    ∃ g, LocalTo graft g ∧ t = g s ∧
      ∀ s', s'.indexesLegal = true → s.cfg = s'.cfg → s'.fault = s.fault → exec i s' = .next (g s') := by
  rw [hx] at h
  obtain ⟨hl, hs, rfl⟩ | ⟨⟨hl, hs, -⟩, rfl⟩ := perform_cases h
  · exact ⟨_, ha, rfl, fun s' _ hcfg hfault => by rw [hx, perform_faulted f (hcfg ▸ hl) (hfault.trans hs)]⟩
  · exact ⟨f, hf, rfl, fun s' hi hcfg hfault => by rw [hx, perform_ready f ⟨hcfg ▸ hl, hfault.trans hs, hi⟩]⟩

/-! ## The Element Queue's commands are local to it -/

/-- The effect of a command with `OP[4] = 0`, each a choice between straight updates of the Element Queue's own fields. -/
theorem exec_localE {i : Instr} (hi : i.opcode.getLsbD 4 = false) :
    ∃ f, (∀ s, exec i s = perform s f) ∧ LocalTo State.graftE f := by
  cases i with
  | eqPush | eqPop | eqPopa | eqPeek | eqGet | eqSet | eqFront | eqBack =>
    exact ⟨_, fun _ => rfl, .ite (fun _ _ => Iff.rfl) ⟨fun _ => rfl, fun _ _ => rfl⟩ ⟨fun _ => rfl, fun _ _ => rfl⟩⟩
  | eqClear | eqRemove | eqFind | eqCap | eqSize | eqAvail | eqEmpty | eqFull =>
    exact ⟨_, fun _ => rfl, fun _ => rfl, fun _ _ => rfl⟩
  | bqPush8 | bqPushm | bqFpush8 | bqFpushm | bqDrop | bqPop | bqGet | bqClear | bqCap | bqSize | bqAvail | bqEmpty | bqFull =>
    simp [Instr.opcode] at hi

/-! ## The Bit Queue's commands are local to it -/

section graftB
variable (u s : State)

@[simp] theorem graftB_respond (ok : Bool) (data count : Nat) :
    (u.graftB s).respond ok data count = u.graftB (s.respond ok data count) := rfl
@[simp] theorem graftB_copyOut (off n A : Nat) : (u.graftB s).copyOut off n A = u.graftB (s.copyOut off n A) := rfl
@[simp] theorem graftB_cfg : (u.graftB s).cfg = s.cfg := rfl
@[simp] theorem graftB_sizeB : (u.graftB s).sizeB = s.sizeB := rfl
@[simp] theorem graftB_availB : (u.graftB s).availB = s.availB := rfl
@[simp] theorem graftB_evictedBy (n : Nat) : (u.graftB s).evictedBy n = s.evictedBy n := rfl
@[simp] theorem graftB_sourceBits (A n : Nat) : (u.graftB s).sourceBits A n = s.sourceBits A n := rfl

@[simp] theorem graftB_evict (k : Nat) : (u.graftB s).evict k = u.graftB (s.evict k) := by
  cases hz : s.cfg.zoc <;> simp only [State.evict, graftB_cfg, hz] <;> rfl

theorem graftB_pushLoop (k : Nat) (bits : BitString) (s : State) :
    pushLoop k bits (u.graftB s) = u.graftB (pushLoop k bits s) := by
  induction k generalizing bits s with
  | zero => rfl
  | succ k ih => exact ih (bits.drop 8) (s.pushGroup (bits.take 8))

@[simp] theorem graftB_pushGroups (bits : BitString) : (u.graftB s).pushGroups bits = u.graftB (s.pushGroups bits) :=
  graftB_pushLoop u _ bits s

@[simp] theorem graftB_forcePush (bits : BitString) : (u.graftB s).forcePush bits = u.graftB (s.forcePush bits) := by
  simp only [State.forcePush, graftB_cfg, graftB_availB, graftB_evictedBy, graftB_evict]
  split <;> simp

end graftB

theorem localB_raise (c : Cause) : LocalTo State.graftB (·.raise c) := ⟨fun _ => rfl, fun _ _ => rfl⟩

theorem localB_respond_fail : LocalTo State.graftB (·.respond false 0 0) := ⟨fun _ => rfl, fun _ _ => rfl⟩

/-- The effect of a command with `OP[4] = 1`: its checks, then eviction, push or transfer to HM. -/
theorem exec_localB {i : Instr} (hi : i.opcode.getLsbD 4 = true) :
    ∃ f, (∀ s, exec i s = perform s f) ∧ LocalTo State.graftB f := by
  cases i with
  | bqPush8 data cnt =>
    exact ⟨_, fun _ => rfl, .ite (fun _ _ => Iff.rfl) (localB_raise _)
      (.ite (fun _ _ => Iff.rfl) localB_respond_fail ⟨fun s => by simp, fun u s => by simp⟩)⟩
  | bqPushm cnt addr =>
    exact ⟨_, fun _ => rfl, .ite (fun _ _ => Iff.rfl) localB_respond_fail
      (.ite (fun _ _ => Iff.rfl) ⟨fun s => by simp, fun u s => by simp⟩ (localB_raise _))⟩
  | bqFpush8 data cnt =>
    exact ⟨_, fun _ => rfl, .ite (fun _ _ => Iff.rfl) (localB_raise _)
      ⟨fun s => (forcePush_frame s _).1.1.1, fun u s => by simp⟩⟩
  | bqFpushm cnt addr =>
    exact ⟨_, fun _ => rfl, .ite (fun _ _ => Iff.rfl)
      ⟨fun s => (forcePush_frame s _).1.1.1, fun u s => by simp⟩ (localB_raise _)⟩
  | bqDrop cnt => exact ⟨_, fun _ => rfl, fun s => by simp, fun u s => by simp⟩
  | bqPop cnt addr =>
    exact ⟨_, fun _ => rfl, .ite (fun _ _ => Iff.rfl) ⟨fun s => by simp, fun u s => by simp⟩ (localB_raise _)⟩
  | bqGet idx cnt addr =>
    exact ⟨_, fun _ => rfl, .ite (fun _ _ => Iff.rfl) localB_respond_fail
      (.ite (fun _ _ => Iff.rfl) ⟨fun _ => rfl, fun _ _ => rfl⟩ (localB_raise _))⟩
  | bqClear | bqCap | bqSize | bqAvail | bqEmpty | bqFull => exact ⟨_, fun _ => rfl, fun _ => rfl, fun _ _ => rfl⟩
  | eqPush | eqPop | eqPopa | eqPeek | eqClear | eqRemove | eqGet | eqSet | eqFront | eqBack | eqFind | eqCap | eqSize
  | eqAvail | eqEmpty | eqFull => simp [Instr.opcode] at hi

/-! ## The two units (R12) -/

/-- Settles O26: each command is local to its own unit, and so is the answer of a faulted block. -/
theorem unitsShareOnlyTheFaultState : Obligations.UnitsShareOnlyTheFaultState := by
  intro s s' t i _ hs' h
  refine ⟨fun hi => ?_, fun hi => ?_⟩
  · obtain ⟨f, hx, hf⟩ := exec_localE hi
    obtain ⟨g, hg, rfl, hnext⟩ := hf.exec_next hx ⟨fun _ => rfl, fun _ _ => rfl⟩ h
    obtain ⟨hframe, hhm⟩ := hg.frameE s
    refine ⟨hframe, hhm, fun ha => ⟨g s', ?_, hg.agreeE ha⟩⟩
    obtain ⟨hcfg, -, -, -, ⟨hfault, -⟩, -⟩ := ha
    exact hnext s' hs' hcfg hfault
  · obtain ⟨f, hx, hf⟩ := exec_localB hi
    obtain ⟨g, hg, rfl, hnext⟩ := hf.exec_next hx ⟨fun _ => rfl, fun _ _ => rfl⟩ h
    refine ⟨hg.frameB s, fun ha => ⟨g s', ?_, hg.agreeB ha⟩⟩
    obtain ⟨hcfg, -, -, -, -, ⟨hfault, -⟩, -⟩ := ha
    exact hnext s' hs' hcfg hfault

end Sys2Proof.Machine

/-! PROOFS. The family of spec/10_state.md: the invariant, the reset draw, the padding bits, and the stale content.

Each claim about a command goes through `exec_perform`: the command is the checks of R292 followed by an effect `State → State`,
and the effects are compared or bounded one by one, by the laws of the shared operations. -/

namespace Sys2Proof.Machine

variable {s s' t t' : State} {i : Instr}

/-! ## Every step keeps the invariant (R39, R49, R98) -/

/-- An answer without DATA keeps the invariant (R98). -/
theorem State.Inv.respondCount (h : s.Inv) {ok : Bool} {n : Nat} (hn : n < 2 ^ 32) : (s.respond ok 0 n).Inv :=
  h.respond (Nat.two_pow_pos _) hn

theorem State.Inv.respondZero (h : s.Inv) {ok : Bool} : (s.respond ok 0 0).Inv := h.respondCount (Nat.two_pow_pos _)

/-- An answer that carries a record of the store keeps the invariant. -/
theorem State.Inv.respondRecordAt (h : s.Inv) (a : Nat) : (s.respond true (recordAt s.eqm a) 0).Inv :=
  h.respond (h.recordAt_lt a) (Nat.two_pow_pos _)

/-- What fits a unit's capacity fits the COUNT field (R10, R98). -/
theorem State.Inv.lt_of_le_cE (h : s.Inv) {n : Nat} (hn : n ≤ s.cfg.cE) : n < 2 ^ 32 := by
  have := legal_bounds h.cfgLegal
  omega

theorem State.Inv.lt_of_le_cB (h : s.Inv) {n : Nat} (hn : n ≤ s.cfg.cB) : n < 2 ^ 32 := by
  have := legal_bounds h.cfgLegal
  omega

theorem State.Inv.adv_lt_pE (h : s.Inv) (p k : Nat) : adv s.cfg.pE p k < s.cfg.pE := adv_lt (Nat.zero_lt_of_lt h.headE)

theorem State.Inv.popRecord (h : s.Inv) : s.popRecord.Inv :=
  (h.setHeadE (h.adv_lt_pE _ _)).respondRecordAt _

theorem State.Inv.eqRemove (h : s.Inv) (value : Nat) :
    let out := compact s.cfg.pE value s.sizeE s.headE s.headE 0 s.eqm
    (((s.setEqm out.1).setTailE out.2.1).respond true 0 out.2.2).Inv := by
  intro out
  obtain ⟨hwf, hrecords, htail, hcount⟩ :=
    wf_compact (value := value) s.sizeE s.headE s.headE 0 s.eqm h.headE h.eqm h.records
  exact ((h.setEqm hwf hrecords).setTailE htail).respondCount
    (h.lt_of_le_cE (hcount.trans ((Nat.zero_add _).trans_le (sizeE_le s))))

theorem State.Inv.bqClear (h : s.Inv) : (((s.setHeadB 0).setTailB 0).respond true 0 0).Inv :=
  have h0 : 0 < s.cfg.pB := Nat.zero_lt_of_lt h.headB
  ((h.setHeadB h0).setTailB h0).respondZero

theorem State.Inv.eqClear (h : s.Inv) : (((s.setHeadE 0).setTailE 0).respond true 0 0).Inv :=
  have h0 : 0 < s.cfg.pE := Nat.zero_lt_of_lt h.headE
  ((h.setHeadE h0).setTailE h0).respondZero

/-- The effect of every command keeps the invariant. -/
theorem exec_effect_inv (i : Instr) : ∃ f, (∀ s, exec i s = perform s f) ∧ ∀ s : State, s.Inv → (f s).Inv := by
  cases i with
  | eqPush data =>
    exact ⟨_, fun _ => rfl, fun s h => iteInduction (fun _ => h.respondZero) fun _ =>
      ((h.setRecord h.tailE (recordOperand_lt _ _)).setTailE (h.adv_lt_pE _ _)).respondZero⟩
  | eqPop => exact ⟨_, fun _ => rfl, fun s h => iteInduction (fun _ => h.respondZero) fun _ => h.popRecord⟩
  | eqPopa => exact ⟨_, fun _ => rfl, fun s h => iteInduction (fun _ => h.raise _) fun _ => h.popRecord⟩
  | eqPeek =>
    exact ⟨_, fun _ => rfl, fun s h => iteInduction (fun _ => h.respondZero) fun _ => h.respondRecordAt _⟩
  | eqClear => exact ⟨_, fun _ => rfl, fun s h => h.eqClear⟩
  | eqRemove data => exact ⟨_, fun _ => rfl, fun s h => h.eqRemove _⟩
  | eqSet idx data =>
    exact ⟨_, fun _ => rfl, fun s h => iteInduction (fun _ => h.raise _) fun _ =>
      (h.setRecord (h.adv_lt_pE _ _) (recordOperand_lt _ _)).respondZero⟩
  | eqGet | eqFront | eqBack =>
    exact ⟨_, fun _ => rfl, fun s h => iteInduction (fun _ => h.raise _) fun _ => h.respondRecordAt _⟩
  | bqPush8 data cnt =>
    exact ⟨_, fun _ => rfl, fun s h => iteInduction (fun _ => h.raise _) fun _ =>
      iteInduction (fun _ => h.respondZero) fun _ => (h.pushGroups _).respondZero⟩
  | bqPushm cnt addr =>
    exact ⟨_, fun _ => rfl, fun s h => iteInduction (fun _ => h.respondZero) fun _ =>
      iteInduction (fun _ => (h.pushGroups _).respondZero) fun _ => h.raise _⟩
  | bqFpush8 data cnt => exact ⟨_, fun _ => rfl, fun s h => iteInduction (fun _ => h.raise _) fun _ => h.forcePush⟩
  | bqFpushm cnt addr => exact ⟨_, fun _ => rfl, fun s h => iteInduction (fun _ => h.forcePush) fun _ => h.raise _⟩
  | bqDrop cnt =>
    exact ⟨_, fun _ => rfl, fun s h =>
      (h.evict _).respondCount (h.lt_of_le_cB ((Nat.min_le_right _ _).trans (sizeB_le s)))⟩
  | bqPop cnt addr =>
    exact ⟨_, fun _ => rfl, fun s h => iteInduction
      (fun hr => ((h.copyOut hr).evict _).respondCount (h.lt_of_le_cB ((Nat.min_le_right _ _).trans (sizeB_le s))))
      fun _ => h.raise _⟩
  | bqGet idx cnt addr =>
    exact ⟨_, fun _ => rfl, fun s h => iteInduction (fun _ => h.respondZero) fun _ =>
      iteInduction (fun hr => (h.copyOut hr).respondCount cnt.isLt) fun _ => h.raise _⟩
  | bqClear => exact ⟨_, fun _ => rfl, fun s h => h.bqClear⟩
  | eqCap => exact ⟨_, fun _ => rfl, fun s h => h.respondCount (h.lt_of_le_cE le_rfl)⟩
  | eqSize => exact ⟨_, fun _ => rfl, fun s h => h.respondCount (h.lt_of_le_cE (sizeE_le s))⟩
  | eqAvail => exact ⟨_, fun _ => rfl, fun s h => h.respondCount (h.lt_of_le_cE (Nat.sub_le _ _))⟩
  | bqCap => exact ⟨_, fun _ => rfl, fun s h => h.respondCount (h.lt_of_le_cB le_rfl)⟩
  | bqSize => exact ⟨_, fun _ => rfl, fun s h => h.respondCount (h.lt_of_le_cB (sizeB_le s))⟩
  | bqAvail => exact ⟨_, fun _ => rfl, fun s h => h.respondCount (h.lt_of_le_cB (Nat.sub_le _ _))⟩
  | eqFind | eqEmpty | eqFull | bqEmpty | bqFull => exact ⟨_, fun _ => rfl, fun s h => h.respondZero⟩

/-- The checks before a command keep the invariant when its effect does. -/
theorem State.Inv.perform {f : State → State} (h : s.Inv) (hf : ∀ s : State, s.Inv → (f s).Inv)
    (hx : Machine.perform s f = .next t) : t.Inv := by
  obtain ⟨-, hfault, rfl⟩ | ⟨-, rfl⟩ := perform_cases hx
  · exact h.answerFaulted hfault
  · exact hf s h

theorem State.Inv.exec (h : s.Inv) (hx : Machine.exec i s = .next t) : t.Inv := by
  obtain ⟨f, hi, hf⟩ := exec_effect_inv i
  exact h.perform hf (hi s ▸ hx)

/-- Settles O9: the host's actions one by one; a request by `State.Inv.exec`. -/
theorem everyStepKeepsTheInvariant : Obligations.EveryStepKeepsTheInvariant := by
  intro s t h hx
  obtain ⟨-, ⟨-, rfl⟩ | ⟨_, rest, -, -, rfl⟩ | ⟨_, rest, i, -, -, -, he⟩ | ⟨_, rest, _, -, -, -, he⟩ | ⟨d, rest, -, rfl⟩ |
    ⟨rest, -, rfl⟩ | ⟨a, v, rest, -, ha, rfl⟩⟩ := step_cases hx
  · exact h
  · exact h.setInputs rest
  · exact (h.setInputs rest).exec he
  · exact (h.setInputs rest).perform (fun _ hu => hu.raise .illegalOp) he
  · exact (h.setInputs rest).applyReset d
  · exact (h.setInputs rest).setRst false
  · exact (h.setInputs rest).setHm (Memory.wf_write ha h.hm)

/-! ## The ring invariants and the register widths (R32 to R35, R39) -/

/-- Settles O31: a step keeps the invariant, and the invariant gives the ring's bounds. -/
theorem ringInvariantsHold : Obligations.RingInvariantsHold := by
  intro s t hs hst
  have h : t.Inv := hst.elim (fun e => e ▸ hs) (everyStepKeepsTheInvariant s t hs)
  exact ⟨⟨h.headE, h.tailE, sizeE_le t, sizeE_eq_zero h.indexesLegal, beq_iff_eq, Nat.sub_add_cancel (sizeE_le t)⟩,
    h.headB, h.tailB, sizeB_le t, sizeB_eq_zero h.indexesLegal, beq_iff_eq, Nat.sub_add_cancel (sizeB_le t)⟩

/-- The width of R32 to R35 holds every value up to the capacity `n`, and one bit less does not hold `n`. -/
theorem index_width_least {n : Nat} (hn : 1 ≤ n) :
    n + 1 ≤ 2 ^ max 1 (Nat.clog 2 (n + 1)) ∧ 2 ^ (max 1 (Nat.clog 2 (n + 1)) - 1) ≤ n := by
  rw [max_eq_right (Nat.clog_pos one_lt_two (by omega))]
  exact ⟨Nat.le_pow_clog one_lt_two _, Nat.lt_succ_iff.1 (Nat.pow_pred_clog_lt_self one_lt_two (by omega))⟩

/-- Settles O30: both units' widths are that of `index_width_least`. -/
theorem registersFitTheirWidths : Obligations.RegistersFitTheirWidths := by
  intro s h
  obtain ⟨hcB, hcE, -⟩ := legal_bounds h.cfgLegal
  obtain ⟨hE, hE'⟩ := index_width_least hcE
  obtain ⟨hB, hB'⟩ := index_width_least (Nat.one_le_of_lt hcB)
  exact ⟨h.headE.trans_le hE, h.tailE.trans_le hE, h.headB.trans_le hB, h.tailB.trans_le hB, hE', hB'⟩

/-! ## The state after reset, and the stop at an unreachable register value (R39, R48, R49) -/

/-- Settles O8: the registers are 0 and the memories are empty. -/
theorem resetStateMeetsTheInvariant : Obligations.ResetStateMeetsTheInvariant := by
  refine ⟨?_, by decide, rfl, rfl, rfl, rfl, rfl⟩
  constructor <;> decide

theorem perform_index_range {f : State → State} (hl : s.cfg.legal = true) (hf : s.fault = false)
    (hi : s.indexesLegal = false) : perform s f = .fault .indexRange := by
  simp [perform, hl, hf, hi]

/-- Settles O14: the check of the registers comes before the effect of every command. -/
theorem unreachableRegisterValuesStop : Obligations.UnreachableRegisterValuesStop := by
  intro s i hl hf hout
  obtain ⟨f, hi⟩ := exec_perform i
  rw [hi, perform_index_range hl hf]
  refine Bool.eq_false_iff.2 fun hlegal => ?_
  obtain ⟨h1, h2, h3, h4⟩ := indexesLegal_iff.1 hlegal
  rw [pE_eq] at h1 h2
  rw [pB_eq] at h3 h4
  omega

/-! ## The configuration constants (R37) -/

/-- A command is local to its unit, and no local effect changes the configuration. -/
theorem exec_cfg (hx : exec i s = .next t) : t.cfg = s.cfg := by
  cases hi : i.opcode.getLsbD 4 with
  | false =>
    obtain ⟨f, hf, hlocal⟩ := exec_localE hi
    obtain ⟨g, hg, rfl, -⟩ := hlocal.exec_next hf ⟨fun _ => rfl, fun _ _ => rfl⟩ hx
    exact hg.cfg_eq s
  | true =>
    obtain ⟨f, hf, hlocal⟩ := exec_localB hi
    obtain ⟨g, hg, rfl, -⟩ := hlocal.exec_next hf ⟨fun _ => rfl, fun _ _ => rfl⟩ hx
    exact hg.cfg_eq s

/-- Settles O15: the host's actions one by one; a request by `exec_cfg`. -/
theorem noStepChangesTheConfiguration : Obligations.NoStepChangesTheConfiguration := by
  intro s t hx
  obtain ⟨-, ⟨-, rfl⟩ | ⟨_, rest, -, -, rfl⟩ | ⟨_, rest, i, -, -, -, he⟩ | ⟨_, rest, _, -, -, -, he⟩ | ⟨d, rest, -, rfl⟩ |
    ⟨rest, -, rfl⟩ | ⟨a, v, rest, -, -, rfl⟩⟩ := step_cases hx
  · rfl
  · rfl
  · exact (exec_cfg he).trans (State.setInputs_cfg s rest)
  · obtain ⟨-, -, rfl⟩ | ⟨-, rfl⟩ := perform_cases he <;> rfl
  · rfl
  · rfl
  · rfl

/-! ## The reset draw (R48) -/

/-- Every unit of a space of `size` units, with its value in `m`: the draw that gives `m`. -/
def Memory.cells {α : Type} (z : α) (size : Nat) (m : Memory α) : List (Nat × α) :=
  (List.range size).map fun a => (a, Memory.read z m a)

theorem Memory.mem_cells {α : Type} {z : α} {size : Nat} {m : Memory α} {x : Nat × α} :
    x ∈ Memory.cells z size m ↔ x.1 < size ∧ x.2 = Memory.read z m x.1 := by
  obtain ⟨a, v⟩ := x
  simp only [Memory.cells, List.mem_map, List.mem_range, Prod.mk.injEq]
  constructor
  · rintro ⟨b, hb, rfl, rfl⟩
    exact ⟨hb, rfl⟩
  · rintro ⟨ha, rfl⟩
    exact ⟨a, ha, rfl, rfl⟩

/-- A canonical space reads as unlisted outside its size. -/
theorem Memory.read_outside {α : Type} {z : α} {size a : Nat} {m : Memory α} (hm : Memory.wf z size m) (ha : size ≤ a) :
    Memory.read z m a = z :=
  Memory.read_eq_unlisted fun c hc => by have := (hm.2 c hc).2; omega

/-- Writing every unit of a canonical space over another one gives that space. -/
theorem Memory.overlay_cells {α : Type} [DecidableEq α] {z : α} {size : Nat} {m m' : Memory α} (hm : Memory.wf z size m)
    (hm' : Memory.wf z size m') : Memory.overlay z m (Memory.cells z size m') = m' := by
  refine Memory.ext (Memory.wf_overlay (fun c hc => (Memory.mem_cells.1 hc).1) hm) hm' fun a => ?_
  by_cases ha : a < size
  · refine Memory.read_overlay_listed hm.1 ?_ (Memory.mem_cells.2 ⟨ha, rfl⟩)
    have hfst : (Memory.cells z size m').map Prod.fst = List.range size := by
      simp [Memory.cells, Function.comp_def]
    exact hfst ▸ List.nodup_range
  · have ha : size ≤ a := Nat.not_lt.1 ha
    rw [Memory.read_overlay_other fun c hc => by have := (Memory.mem_cells.1 hc).1; omega,
      Memory.read_outside hm ha, Memory.read_outside hm' ha]

/-- Cells that exist and fit their record are drawn as they are. -/
theorem drawnRecords_eq_self {c : Config} {cells : List (Nat × Nat)} (h : ∀ x ∈ cells, x.1 < c.pE ∧ x.2 < 2 ^ c.w) :
    drawnRecords c cells = cells := by
  rw [drawnRecords, List.filter_eq_self.2 fun x hx => by simpa using (h x hx).1]
  exact (List.map_congr_left fun x hx => by rw [Nat.mod_eq_of_lt (h x hx).2]; rfl).trans (List.map_id cells)

theorem drawnBytes_eq_self {size : Nat} {cells : List Host.Cell} (h : ∀ x ∈ cells, x.1 < size) :
    drawnBytes 0 size size cells = cells :=
  List.filter_eq_self.2 fun x hx => by simpa using h x hx

/-- Reset with the draw of all units of `E` and `B` leaves the stores `E` and `B`, and resets the registers. -/
theorem applyReset_cells (h : s.Inv) {E : Memory Nat} {B : Memory Byte} (hE : Memory.wf unlistedRecord s.cfg.pE E)
    (hrecords : ∀ x ∈ E, x.2 < 2 ^ s.cfg.w) (hB : Memory.wf unlistedByte s.cfg.nbB B) :
    s.applyReset ⟨Memory.cells unlistedRecord s.cfg.pE E, Memory.cells unlistedByte s.cfg.nbB B, none, []⟩ = { s with
      headE := 0, tailE := 0, headB := 0, tailB := 0, fault := false, cause := 0, eqm := E, bqm := B, rst := true } := by
  have hdrawnE := drawnRecords_eq_self (c := s.cfg) (cells := Memory.cells unlistedRecord s.cfg.pE E) fun x hx => by
    obtain ⟨hlt, hval⟩ := Memory.mem_cells.1 hx
    exact ⟨hlt, hval ▸ (h.setEqm hE hrecords).recordAt_lt x.1⟩
  have hdrawnB := drawnBytes_eq_self (cells := Memory.cells unlistedByte s.cfg.nbB B) fun x hx =>
    (Memory.mem_cells.1 hx).1
  simp only [State.applyReset, hdrawnE, hdrawnB, Memory.overlay_cells h.eqm hE, Memory.overlay_cells h.bqm hB]
  rfl

theorem step_assertReset (hl : s.cfg.legal = true) (d : ResetDraw) (rest : List HostInput) :
    step { s with inputs := .assertReset d :: rest } = .next ((s.setInputs rest).applyReset d) := by
  simp only [step, stepInput, hl, if_true, takeInput]
  rfl

/-- Settles O16: the draw lists every unit with the value it is to have, and the empty draw lists none. -/
theorem everyStoreContentIsAResetDraw : Obligations.EveryStoreContentIsAResetDraw := by
  intro s rest E B h hE hrecords hB
  have hreset := applyReset_cells (h.setInputs rest) hE hrecords hB
  exact ⟨⟨_, rfl, (step_assertReset h.cfgLegal _ rest).trans (congrArg _ hreset)⟩, step_assertReset h.cfgLegal _ rest⟩

/-! ## Padding bits (R42, R63) -/

/-- No bit at or above `P_B` differs. -/
def samePadding (s t : State) : Prop := ∀ q, s.cfg.pB ≤ q → bitAt t.bqm q = bitAt s.bqm q

theorem samePadding_of_bqm (h : t.bqm = s.bqm) : samePadding s t := fun _ _ => by rw [h]

theorem samePadding_evict (h : s.Inv) {k : Nat} (hk : k ≤ s.sizeB) : samePadding s (s.evict k) := fun q hq => by
  rw [bitAt_evict h.headB (hk.trans_lt (sizeB_lt s)) h.bqm.1, if_neg (by omega)]

theorem samePadding_pushGroups (h : s.Inv) {bits : BitString} (hl : bits.length ≤ s.cfg.cB) :
    samePadding s (s.pushGroups bits) := fun q hq => by
  rw [bitAt_pushGroups h hl, if_neg (by omega)]

theorem samePadding_forcePush (h : s.Inv) (bits : BitString) : samePadding s (s.forcePush bits) := by
  have hkept : (keptBits s.cfg bits).length ≤ s.cfg.cB := (length_keptBits s.cfg bits).trans_le (Nat.min_le_right _ _)
  intro q hq
  rw [State.forcePush, State.respond_bqm]
  split
  · rw [samePadding_pushGroups (h.evict _) (by rwa [State.evict_cfg]) q (by rwa [State.evict_cfg]),
      samePadding_evict h (evictedBy_le s _) q hq]
  · exact samePadding_pushGroups h hkept q hq

/-- The effect of a Bit Queue command writes no padding bit. -/
theorem exec_effect_padding (hi : i.opcode.getLsbD 4 = true) :
    ∃ f, (∀ s, exec i s = perform s f) ∧ ∀ s : State, s.Inv → samePadding s (f s) := by
  cases i with
  | bqPush8 data cnt =>
    refine ⟨_, fun _ => rfl, fun s h => iteInduction (fun _ => samePadding_of_bqm rfl) fun _ =>
      iteInduction (fun _ => samePadding_of_bqm rfl) fun hfit => samePadding_pushGroups h ?_⟩
    rw [byteBits, length_lowBits]
    exact (Nat.not_lt.1 hfit).trans (Nat.sub_le _ _)
  | bqPushm cnt addr =>
    refine ⟨_, fun _ => rfl, fun s h => iteInduction (fun _ => samePadding_of_bqm rfl) fun hfit =>
      iteInduction (fun _ => samePadding_pushGroups h ?_) fun _ => samePadding_of_bqm rfl⟩
    rw [State.sourceBits, length_hmReadBits]
    exact (Nat.not_lt.1 hfit).trans (Nat.sub_le _ _)
  | bqFpush8 data cnt =>
    exact ⟨_, fun _ => rfl, fun s h =>
      iteInduction (fun _ => samePadding_of_bqm rfl) fun _ => samePadding_forcePush h _⟩
  | bqFpushm cnt addr =>
    exact ⟨_, fun _ => rfl, fun s h =>
      iteInduction (fun _ => samePadding_forcePush h _) fun _ => samePadding_of_bqm rfl⟩
  | bqDrop cnt => exact ⟨_, fun _ => rfl, fun s h => samePadding_evict h (Nat.min_le_right _ _)⟩
  | bqPop cnt addr =>
    exact ⟨_, fun _ => rfl, fun s h => iteInduction
      (fun hr => samePadding_evict (h.copyOut hr) (Nat.min_le_right _ _)) fun _ => samePadding_of_bqm rfl⟩
  | bqGet idx cnt addr =>
    exact ⟨_, fun _ => rfl, fun s _ => iteInduction (fun _ => samePadding_of_bqm rfl) fun _ =>
      iteInduction (fun _ => samePadding_of_bqm rfl) fun _ => samePadding_of_bqm rfl⟩
  | bqClear | bqCap | bqSize | bqAvail | bqEmpty | bqFull =>
    exact ⟨_, fun _ => rfl, fun s _ => samePadding_of_bqm rfl⟩
  | eqPush | eqPop | eqPopa | eqPeek | eqClear | eqRemove | eqGet | eqSet | eqFront | eqBack | eqFind | eqCap | eqSize
  | eqAvail | eqEmpty | eqFull => simp [Instr.opcode] at hi

/-- Settles O28: an Element Queue command leaves the whole of `BQM` alone (R12), and a Bit Queue command its padding. -/
theorem paddingBitsAreNeverWritten : Obligations.PaddingBitsAreNeverWritten := by
  intro s t i q h hx hq
  cases hi : i.opcode.getLsbD 4 with
  | false =>
    obtain ⟨hE, -⟩ := unitsShareOnlyTheFaultState s s t i h.indexesLegal h.indexesLegal hx
    obtain ⟨⟨-, -, -, hbqm, -⟩, -⟩ := hE hi
    rw [hbqm]
  | true =>
    obtain ⟨f, hf, hpadding⟩ := exec_effect_padding hi
    obtain ⟨-, -, rfl⟩ | ⟨-, rfl⟩ := perform_cases (hf s ▸ hx)
    · rfl
    · exact hpadding s h q hq

/-! ## Stale content (R45, R333) -/

/-- An empty queue has no content, whatever its store. -/
theorem queueE_clear (s : State) : ((s.setHeadE 0).setTailE 0).queueE = [] :=
  List.eq_nil_of_length_eq_zero ((length_queueE _).trans (ringSize_self (Nat.succ_pos _)))

theorem queueB_clear (s : State) : ((s.setHeadB 0).setTailB 0).queueB = [] :=
  List.eq_nil_of_length_eq_zero ((length_queueB _).trans (ringSize_self (Nat.succ_pos _)))

/-- Eviction as one setting of the Bit Queue. -/
theorem evict_eq_setB (s : State) (k : Nat) :
    s.evict k = ((s.setHeadB (adv s.cfg.pB s.headB k)).setTailB s.tailB).setBqm (s.evict k).bqm := by
  unfold State.evict
  split <;> rfl

/-- After the eviction of a forced push, the bits it keeps fit (R190). -/
theorem length_keptBits_le_availB (h : s.Inv) (bits : BitString) (hfull : s.availB < bits.length) :
    (keptBits s.cfg bits).length ≤ (s.evict (s.evictedBy bits.length)).availB := by
  have hsize := sizeB_le s
  have hle := evictedBy_le s bits.length
  have hev := evictedBy_eq s bits.length
  rw [length_keptBits, State.availB, State.evict_cfg, sizeB_evict h hle]
  simp only [State.availB] at *
  omega

section sameObservation
variable (o : sameObservation s s')
include o

theorem sameObservation.cfg : s.cfg = s'.cfg := by
  obtain ⟨hcfg, -⟩ := o
  exact hcfg

theorem sameObservation.registersE : s.headE = s'.headE ∧ s.tailE = s'.tailE := by
  obtain ⟨-, hheadE, htailE, -⟩ := o
  exact ⟨hheadE, htailE⟩

theorem sameObservation.registersB : s.headB = s'.headB ∧ s.tailB = s'.tailB := by
  obtain ⟨-, -, -, hheadB, htailB, -⟩ := o
  exact ⟨hheadB, htailB⟩

theorem sameObservation.sameFault : sameFault s s' := by
  obtain ⟨-, -, -, -, -, hfault, -⟩ := o
  exact hfault

theorem sameObservation.queueE : s.queueE = s'.queueE := by
  obtain ⟨-, -, -, -, -, -, -, hqueueE, -⟩ := o
  exact hqueueE

theorem sameObservation.queueB : s.queueB = s'.queueB := by
  obtain ⟨-, -, -, -, -, -, -, -, hqueueB, -⟩ := o
  exact hqueueB

theorem sameObservation.hm : s.hm = s'.hm := by
  obtain ⟨-, -, -, -, -, -, -, -, -, hhm⟩ := o
  exact hhm

theorem sameObservation.sizeE : s.sizeE = s'.sizeE := by rw [← length_queueE, o.queueE, length_queueE]
theorem sameObservation.sizeB : s.sizeB = s'.sizeB := by rw [← length_queueB, o.queueB, length_queueB]
theorem sameObservation.availE : s.availE = s'.availE := by rw [State.availE, State.availE, o.cfg, o.sizeE]
theorem sameObservation.availB : s.availB = s'.availB := by rw [State.availB, State.availB, o.cfg, o.sizeB]
theorem sameObservation.fullE : s.fullE = s'.fullE := by rw [State.fullE, State.fullE, o.cfg, o.sizeE]
theorem sameObservation.fullB : s.fullB = s'.fullB := by rw [State.fullB, State.fullB, o.cfg, o.sizeB]

theorem sameObservation.emptyE : s.emptyE = s'.emptyE := by
  obtain ⟨hhead, htail⟩ := o.registersE
  rw [State.emptyE, State.emptyE, hhead, htail]

theorem sameObservation.emptyB : s.emptyB = s'.emptyB := by
  obtain ⟨hhead, htail⟩ := o.registersB
  rw [State.emptyB, State.emptyB, hhead, htail]

theorem sameObservation.findRecord (data : Nat) :
    s.findRecord (recordOperand s.cfg data) = s'.findRecord (recordOperand s'.cfg data) := by
  rw [findRecord_eq, findRecord_eq, o.cfg, o.queueE]

theorem sameObservation.sourceBits (A n : Nat) : s.sourceBits A n = s'.sourceBits A n := by
  rw [State.sourceBits, State.sourceBits, o.hm]

/-- A queued record is the same in both stores. -/
theorem sameObservation.record {i : Nat} (hi : i < s.sizeE) : recordAt s.eqm (s.slotE i) = recordAt s'.eqm (s'.slotE i) := by
  have hq := congrArg (·[i]?) o.queueE
  simpa only [getElem?_queueE, if_pos hi, if_pos (o.sizeE ▸ hi), Option.some_inj] using hq

/-! ### The same answer -/

theorem sameObservation.deliver (r : Response) : sameObservation (s.deliver r) (s'.deliver r) := by
  obtain ⟨hcfg, hheadE, htailE, hheadB, htailB, hfault, hresponses, hqueueE, hqueueB, hhm⟩ := o
  exact ⟨hcfg, hheadE, htailE, hheadB, htailB, hfault, congrArg (· ++ [r]) hresponses, hqueueE, hqueueB, hhm⟩

theorem sameObservation.respond {ok ok' : Bool} {data data' count count' : Nat} (hok : ok = ok') (hdata : data = data')
    (hcount : count = count') : sameObservation (s.respond ok data count) (s'.respond ok' data' count') := by
  subst hok hdata hcount
  exact o.deliver _

theorem sameObservation.setFault (f : Bool) (c : BitVec 4) : sameObservation (s.setFault f c) (s'.setFault f c) := by
  obtain ⟨hcfg, hheadE, htailE, hheadB, htailB, -, hresponses, hqueueE, hqueueB, hhm⟩ := o
  exact ⟨hcfg, hheadE, htailE, hheadB, htailB, ⟨rfl, rfl⟩, hresponses, hqueueE, hqueueB, hhm⟩

theorem sameObservation.raise (c : Cause) : sameObservation (s.raise c) (s'.raise c) := (o.setFault true c.code).deliver _

theorem sameObservation.answerFaulted : sameObservation s.answerFaulted s'.answerFaulted := by
  obtain ⟨-, hcause⟩ := o.sameFault
  rw [State.answerFaulted, State.answerFaulted, hcause]
  exact o.deliver _

/-! ### The same update -/

/-- The Element Queue set to the same registers and the same content. -/
theorem sameObservation.setE {head head' tail tail' : Nat} {m m' : Memory Nat} (hhead : head = head') (htail : tail = tail')
    (hq : (((s.setHeadE head).setTailE tail).setEqm m).queueE = (((s'.setHeadE head').setTailE tail').setEqm m').queueE) :
    sameObservation (((s.setHeadE head).setTailE tail).setEqm m) (((s'.setHeadE head').setTailE tail').setEqm m') := by
  obtain ⟨hcfg, -, -, hheadB, htailB, hfault, hresponses, -, hqueueB, hhm⟩ := o
  exact ⟨hcfg, hhead, htail, hheadB, htailB, hfault, hresponses, hq, hqueueB, hhm⟩

/-- The Bit Queue set to the same registers and the same content. -/
theorem sameObservation.setB {head head' tail tail' : Nat} {m m' : Memory Byte} (hhead : head = head') (htail : tail = tail')
    (hq : (((s.setHeadB head).setTailB tail).setBqm m).queueB = (((s'.setHeadB head').setTailB tail').setBqm m').queueB) :
    sameObservation (((s.setHeadB head).setTailB tail).setBqm m) (((s'.setHeadB head').setTailB tail').setBqm m') := by
  obtain ⟨hcfg, hheadE, htailE, -, -, hfault, hresponses, hqueueE, -, hhm⟩ := o
  exact ⟨hcfg, hheadE, htailE, hhead, htail, hfault, hresponses, hqueueE, hq, hhm⟩

theorem sameObservation.setHm {m m' : Memory Byte} (hm : m = m') : sameObservation (s.setHm m) (s'.setHm m') := by
  obtain ⟨hcfg, hheadE, htailE, hheadB, htailB, hfault, hresponses, hqueueE, hqueueB, -⟩ := o
  exact ⟨hcfg, hheadE, htailE, hheadB, htailB, hfault, hresponses, hqueueE, hqueueB, hm⟩

theorem sameObservation.eqClear :
    sameObservation (((s.setHeadE 0).setTailE 0).respond true 0 0) (((s'.setHeadE 0).setTailE 0).respond true 0 0) := by
  have hclear := o.setE (head := 0) (tail := 0) (m := s.eqm) (m' := s'.eqm) rfl rfl
    ((queueE_clear s).trans (queueE_clear s').symm)
  exact hclear.respond rfl rfl rfl

theorem sameObservation.bqClear :
    sameObservation (((s.setHeadB 0).setTailB 0).respond true 0 0) (((s'.setHeadB 0).setTailB 0).respond true 0 0) := by
  have hclear := o.setB (head := 0) (tail := 0) (m := s.bqm) (m' := s'.bqm) rfl rfl
    ((queueB_clear s).trans (queueB_clear s').symm)
  exact hclear.respond rfl rfl rfl

/-- What goes to HM is queued bits (R196, R197). -/
theorem sameObservation.copyOut {off n n' A : Nat} (hn : n = n') (hle : off + n ≤ s.sizeB) :
    sameObservation (s.copyOut off n A) (s'.copyOut off n' A) := by
  subst hn
  refine o.setHm ?_
  rw [bitRead_queue hle, bitRead_queue (o.sizeB ▸ hle), o.queueB, o.hm]

variable (h : s.Inv) (h' : s'.Inv)
include h h'

theorem sameObservation.record_headE (hne : 0 < s.sizeE) : recordAt s.eqm s.headE = recordAt s'.eqm s'.headE := by
  have hrec := o.record hne
  rwa [State.slotE, State.slotE, adv_zero h.headE, adv_zero h'.headE] at hrec

theorem sameObservation.popRecord (hne : s.headE ≠ s.tailE) : sameObservation s.popRecord s'.popRecord := by
  obtain ⟨hhead, htail⟩ := o.registersE
  have hq := o.queueE
  rw [queueE_pop h hne, queueE_pop h' (by rwa [← hhead, ← htail]), List.cons.injEq] at hq
  obtain ⟨hrecord, hrest⟩ := hq
  exact (o.setE (by rw [o.cfg, hhead]) htail hrest).respond rfl hrecord rfl

theorem sameObservation.pushRecord (hfit : s.sizeE < s.cfg.cE) {v v' : Nat} (hv : v = v') :
    sameObservation ((s.setEqm (setRecord s.eqm s.tailE v)).setTailE (adv s.cfg.pE s.tailE 1))
      ((s'.setEqm (setRecord s'.eqm s'.tailE v')).setTailE (adv s'.cfg.pE s'.tailE 1)) := by
  obtain ⟨hhead, htail⟩ := o.registersE
  have hfit' : s'.sizeE < s'.cfg.cE := by rwa [← o.cfg, ← o.sizeE]
  refine o.setE hhead (by rw [o.cfg, htail]) ?_
  calc _ = s.queueE ++ [v] := queueE_push h hfit v
    _ = s'.queueE ++ [v'] := by rw [o.queueE, hv]
    _ = _ := (queueE_push h' hfit' v').symm

theorem sameObservation.replaceRecord {i v v' : Nat} (hi : i < s.sizeE) (hv : v = v') :
    sameObservation (s.setEqm (setRecord s.eqm (s.slotE i) v)) (s'.setEqm (setRecord s'.eqm (s'.slotE i) v')) := by
  obtain ⟨hhead, htail⟩ := o.registersE
  refine o.setE hhead htail ?_
  calc _ = s.queueE.set i v := queueE_set h hi v
    _ = s'.queueE.set i v' := by rw [o.queueE, hv]
    _ = _ := (queueE_set h' (o.sizeE ▸ hi) v').symm

theorem sameObservation.eqRemove {value value' : Nat} (hv : value = value') :
    let out := compact s.cfg.pE value s.sizeE s.headE s.headE 0 s.eqm
    let out' := compact s'.cfg.pE value' s'.sizeE s'.headE s'.headE 0 s'.eqm
    sameObservation (((s.setEqm out.1).setTailE out.2.1).respond true 0 out.2.2)
      (((s'.setEqm out'.1).setTailE out'.2.1).respond true 0 out'.2.2) := by
  subst hv
  obtain ⟨hhead, -⟩ := o.registersE
  obtain ⟨hq, hcount, htail, -⟩ := queueE_compact h value
  obtain ⟨hq', hcount', htail', -⟩ := queueE_compact h' value
  rw [← o.queueE] at hq' hcount' htail'
  refine (o.setE hhead ?_ (hq.trans hq'.symm)).respond rfl rfl ?_
  · exact htail.trans (.trans (by rw [o.cfg, hhead]) htail'.symm)
  · exact hcount.trans (.trans (by rw [o.sizeE]) hcount'.symm)

theorem sameObservation.evict {k k' : Nat} (hk : k = k') (hle : k ≤ s.sizeB) : sameObservation (s.evict k) (s'.evict k') := by
  subst hk
  obtain ⟨hhead, htail⟩ := o.registersB
  rw [evict_eq_setB s, evict_eq_setB s']
  refine o.setB (by rw [o.cfg, hhead]) htail ?_
  rw [← evict_eq_setB, ← evict_eq_setB, queueB_evict h hle, queueB_evict h' (o.sizeB ▸ hle), o.queueB]

theorem sameObservation.pushGroups {bits bits' : BitString} (hb : bits = bits') (hl : bits.length ≤ s.availB) :
    sameObservation (s.pushGroups bits) (s'.pushGroups bits') := by
  subst hb
  obtain ⟨hhead, htail⟩ := o.registersB
  have hl' : bits.length ≤ s'.availB := o.availB ▸ hl
  have e := pushGroups_eq h.tailB (Nat.lt_succ_of_le (hl.trans (Nat.sub_le _ _))) h.bqm
  have e' := pushGroups_eq h'.tailB (Nat.lt_succ_of_le (hl'.trans (Nat.sub_le _ _))) h'.bqm
  have hq : (s.pushGroups bits).queueB = (s'.pushGroups bits).queueB := by
    rw [queueB_pushGroups h hl, queueB_pushGroups h' hl', o.queueB]
  rw [e, e'] at hq ⊢
  exact o.setB hhead (by rw [o.cfg, htail]) hq

theorem sameObservation.forcePush {bits bits' : BitString} (hb : bits = bits') :
    sameObservation (s.forcePush bits) (s'.forcePush bits') := by
  subst hb
  have hev : s.evictedBy bits.length = s'.evictedBy bits.length := by rw [evictedBy_eq, evictedBy_eq, o.sizeB, o.availB]
  have hkept : keptBits s.cfg bits = keptBits s'.cfg bits := by rw [o.cfg]
  refine sameObservation.respond ?_ rfl rfl hev
  by_cases hfull : s.availB < bits.length
  · rw [if_pos hfull, if_pos (o.availB ▸ hfull)]
    exact (o.evict h h' hev (evictedBy_le s _)).pushGroups (h.evict _) (h'.evict _) hkept
      (length_keptBits_le_availB h bits hfull)
  · rw [if_neg hfull, if_neg (o.availB ▸ hfull)]
    have hlen := length_keptBits s.cfg bits
    exact o.pushGroups h h' hkept (by omega)

end sameObservation

/-! ### The commands -/

/-- A choice made alike on both sides. -/
theorem sameObservation_ite {c c' : Prop} [Decidable c] [Decidable c'] {u u' : State} (hc : c ↔ c')
    (ht : c → sameObservation t t') (hu : ¬ c → sameObservation u u') :
    sameObservation (if c then t else u) (if c' then t' else u') := by
  by_cases h : c
  · rw [if_pos h, if_pos (hc.1 h)]
    exact ht h
  · rw [if_neg h, if_neg (hc.not.1 h)]
    exact hu h

/-- The effect of every command is the same observation from states of one observation. -/
theorem exec_effect_sameObservation (i : Instr) : ∃ f, (∀ s, exec i s = perform s f) ∧
    ∀ s s' : State, s.Inv → s'.Inv → sameObservation s s' → sameObservation (f s) (f s') := by
  cases i with
  | eqPush data =>
    refine ⟨_, fun _ => rfl, fun s s' h h' o => sameObservation_ite (by rw [o.fullE]) (fun _ => o.respond rfl rfl rfl)
      fun hfit => (o.pushRecord h h' ?_ (by rw [o.cfg])).respond rfl rfl rfl⟩
    exact lt_of_le_of_ne (sizeE_le s) (by simpa [State.fullE] using hfit)
  | eqPop =>
    exact ⟨_, fun _ => rfl, fun s s' h h' o => sameObservation_ite (by rw [o.emptyE]) (fun _ => o.respond rfl rfl rfl)
      fun hne => o.popRecord h h' (by simpa [State.emptyE] using hne)⟩
  | eqPopa =>
    exact ⟨_, fun _ => rfl, fun s s' h h' o => sameObservation_ite (by rw [o.emptyE]) (fun _ => o.raise _)
      fun hne => o.popRecord h h' (by simpa [State.emptyE] using hne)⟩
  | eqPeek =>
    refine ⟨_, fun _ => rfl, fun s s' h h' o => sameObservation_ite (by rw [o.emptyE]) (fun _ => o.respond rfl rfl rfl)
      fun hne => o.respond rfl (o.record_headE h h' ?_) rfl⟩
    exact Nat.pos_of_ne_zero ((sizeE_eq_zero h.indexesLegal).not.2 (by simpa [State.emptyE] using hne))
  | eqClear => exact ⟨_, fun _ => rfl, fun s s' h h' o => o.eqClear⟩
  | eqRemove data => exact ⟨_, fun _ => rfl, fun s s' h h' o => o.eqRemove h h' (by rw [o.cfg])⟩
  | eqGet idx =>
    exact ⟨_, fun _ => rfl, fun s s' h h' o => sameObservation_ite (by rw [o.sizeE]) (fun _ => o.raise _)
      fun hi => o.respond rfl (o.record (Nat.not_le.1 hi)) rfl⟩
  | eqSet idx data =>
    exact ⟨_, fun _ => rfl, fun s s' h h' o => sameObservation_ite (by rw [o.sizeE]) (fun _ => o.raise _)
      fun hi => (o.replaceRecord h h' (Nat.not_le.1 hi) (by rw [o.cfg])).respond rfl rfl rfl⟩
  | eqFront =>
    exact ⟨_, fun _ => rfl, fun s s' h h' o => sameObservation_ite (by rw [o.sizeE]) (fun _ => o.raise _)
      fun hne => o.respond rfl (o.record_headE h h' (Nat.pos_of_ne_zero hne)) rfl⟩
  | eqBack =>
    refine ⟨_, fun _ => rfl, fun s s' h h' o => sameObservation_ite (by rw [o.sizeE]) (fun _ => o.raise _)
      fun hne => o.respond rfl ?_ rfl⟩
    rw [← o.sizeE]
    exact o.record (Nat.sub_one_lt hne)
  | eqFind data => exact ⟨_, fun _ => rfl, fun s s' h h' o => o.respond (o.findRecord data) rfl rfl⟩
  | bqPush8 data cnt =>
    exact ⟨_, fun _ => rfl, fun s s' h h' o => sameObservation_ite Iff.rfl (fun _ => o.raise _) fun _ =>
      sameObservation_ite (by rw [o.availB]) (fun _ => o.respond rfl rfl rfl) fun hfit =>
        (o.pushGroups h h' rfl ((length_lowBits _ _).trans_le (Nat.not_lt.1 hfit))).respond rfl rfl rfl⟩
  | bqPushm cnt addr =>
    exact ⟨_, fun _ => rfl, fun s s' h h' o => sameObservation_ite (by rw [o.availB]) (fun _ => o.respond rfl rfl rfl)
      fun hfit => sameObservation_ite (by rw [o.cfg])
        (fun _ => (o.pushGroups h h' (o.sourceBits _ _) (length_hmReadBits.trans_le (Nat.not_lt.1 hfit))).respond rfl rfl rfl)
        fun _ => o.raise _⟩
  | bqFpush8 data cnt =>
    exact ⟨_, fun _ => rfl, fun s s' h h' o => sameObservation_ite Iff.rfl (fun _ => o.raise _) fun _ =>
      o.forcePush h h' rfl⟩
  | bqFpushm cnt addr =>
    exact ⟨_, fun _ => rfl, fun s s' h h' o => sameObservation_ite (by rw [o.cfg])
      (fun _ => o.forcePush h h' (o.sourceBits _ _)) fun _ => o.raise _⟩
  | bqDrop cnt =>
    refine ⟨_, fun _ => rfl, fun s s' h h' o => ?_⟩
    have hk : min (countOperand cnt) s.sizeB = min (countOperand cnt) s'.sizeB := by rw [o.sizeB]
    exact (o.evict h h' hk (Nat.min_le_right _ _)).respond rfl rfl hk
  | bqPop cnt addr =>
    refine ⟨_, fun _ => rfl, fun s s' h h' o => ?_⟩
    have hk : min (countOperand cnt) s.sizeB = min (countOperand cnt) s'.sizeB := by rw [o.sizeB]
    have hle : min (countOperand cnt) s.sizeB ≤ s.sizeB := Nat.min_le_right _ _
    refine sameObservation_ite (by rw [o.cfg, hk]) (fun hr => ?_) fun _ => o.raise _
    have hr' : hmInRange s'.cfg addr (min (countOperand cnt) s'.sizeB) = true := by rwa [← o.cfg, ← hk]
    have hcopy := o.copyOut (off := 0) (A := addr) hk ((Nat.zero_add _).trans_le hle)
    exact (hcopy.evict (h.copyOut hr) (h'.copyOut hr') hk hle).respond rfl rfl hk
  | bqGet idx cnt addr =>
    exact ⟨_, fun _ => rfl, fun s s' h h' o => sameObservation_ite (by rw [o.sizeB]) (fun _ => o.respond rfl rfl rfl)
      fun hfit => sameObservation_ite (by rw [o.cfg])
        (fun _ => (o.copyOut rfl (Nat.not_lt.1 hfit)).respond rfl rfl rfl) fun _ => o.raise _⟩
  | bqClear => exact ⟨_, fun _ => rfl, fun s s' h h' o => o.bqClear⟩
  | eqCap => exact ⟨_, fun _ => rfl, fun s s' h h' o => o.respond rfl rfl (by rw [o.cfg])⟩
  | eqSize => exact ⟨_, fun _ => rfl, fun s s' h h' o => o.respond rfl rfl o.sizeE⟩
  | eqAvail => exact ⟨_, fun _ => rfl, fun s s' h h' o => o.respond rfl rfl o.availE⟩
  | eqEmpty => exact ⟨_, fun _ => rfl, fun s s' h h' o => o.respond o.emptyE rfl rfl⟩
  | eqFull => exact ⟨_, fun _ => rfl, fun s s' h h' o => o.respond o.fullE rfl rfl⟩
  | bqCap => exact ⟨_, fun _ => rfl, fun s s' h h' o => o.respond rfl rfl (by rw [o.cfg])⟩
  | bqSize => exact ⟨_, fun _ => rfl, fun s s' h h' o => o.respond rfl rfl o.sizeB⟩
  | bqAvail => exact ⟨_, fun _ => rfl, fun s s' h h' o => o.respond rfl rfl o.availB⟩
  | bqEmpty => exact ⟨_, fun _ => rfl, fun s s' h h' o => o.respond o.emptyB rfl rfl⟩
  | bqFull => exact ⟨_, fun _ => rfl, fun s s' h h' o => o.respond o.fullB rfl rfl⟩

/-- Settles O29: both states pass the same checks, and answer as faulted blocks alike or have effects of one observation. -/
theorem staleContentIsInvisible : Obligations.StaleContentIsInvisible := by
  intro s s' t i h h' o hx
  obtain ⟨f, hf, heffect⟩ := exec_effect_sameObservation i
  obtain ⟨hfault, -⟩ := o.sameFault
  obtain ⟨-, hs, rfl⟩ | ⟨⟨-, hs, -⟩, rfl⟩ := perform_cases (hf s ▸ hx)
  · exact ⟨_, exec_faulted i h'.cfgLegal (hfault.trans hs), o.answerFaulted⟩
  · exact ⟨_, (hf s').trans (perform_ready f (h'.ready (hfault.trans hs))), heffect s s' h h' o⟩

end Sys2Proof.Machine

/-! PROOFS. The family of spec/20_memory.md: a command changes host memory inside its region only (R65, R187, R334), a read repeated
at once answers the same and has no cumulative effect (R69), and a host write changes its byte alone (R73, R75). -/

namespace Sys2Proof.Machine

variable {s t : State} {i : Instr} {f g g' : State → State}

/-! ## The region of a command in host memory (R65, R187, R334) -/

/-- From `s` to `t` no byte of HM differs but those of the `r.2` bytes from `r.1` on. -/
def sameHmOutside (r : Nat × Nat) (s t : State) : Prop := ∀ a, a < r.1 ∨ r.1 + r.2 ≤ a → byteAt t.hm a = byteAt s.hm a

theorem sameHmOutside_of_hm {r : Nat × Nat} (h : t.hm = s.hm) : sameHmOutside r s t := fun _ _ => by rw [h]

theorem sameHmOutside_forcePush (r : Nat × Nat) (s : State) (bits : BitString) : sameHmOutside r s (s.forcePush bits) := by
  obtain ⟨-, hhm, -⟩ := forcePush_frame s bits
  exact sameHmOutside_of_hm hhm

/-- Legal registers name a position, so as many bits are read, and go to HM, as were asked for. -/
theorem length_bitRead_posB (h : s.indexesLegal = true) (off n : Nat) :
    (bitRead s.cfg.pB (s.posB off) n s.bqm).length = n := by
  obtain ⟨-, -, hheadB, -⟩ := indexesLegal_iff.1 h
  exact length_bitRead (adv_lt (Nat.zero_lt_of_lt hheadB))

theorem sameHmOutside_copyOut (h : s.indexesLegal = true) (off n A : Nat) :
    sameHmOutside (A, ceilDiv8 n) s (s.copyOut off n A) := fun a ha =>
  byteAt_hmWriteBits_outside a (by rwa [length_bitRead_posB h])

/-- The effect of a Bit Queue command writes its region at most: only POP and GET transfer bits to HM. -/
theorem exec_effect_hmRegion (hi : i.opcode.getLsbD 4 = true) : ∃ f, (∀ s, exec i s = perform s f) ∧
    ∀ s : State, s.indexesLegal = true → sameHmOutside (s.hmRegion i) s (f s) := by
  cases i with
  | bqPush8 data cnt =>
    exact ⟨_, fun _ => rfl, fun s _ => iteInduction (fun _ => sameHmOutside_of_hm rfl) fun _ =>
      iteInduction (fun _ => sameHmOutside_of_hm rfl) fun _ => sameHmOutside_of_hm (s.pushGroups_hm _)⟩
  | bqPushm cnt addr =>
    exact ⟨_, fun _ => rfl, fun s _ => iteInduction (fun _ => sameHmOutside_of_hm rfl) fun _ =>
      iteInduction (fun _ => sameHmOutside_of_hm (s.pushGroups_hm _)) fun _ => sameHmOutside_of_hm rfl⟩
  | bqFpush8 data cnt =>
    exact ⟨_, fun _ => rfl, fun s _ =>
      iteInduction (fun _ => sameHmOutside_of_hm rfl) fun _ => sameHmOutside_forcePush _ s _⟩
  | bqFpushm cnt addr =>
    exact ⟨_, fun _ => rfl, fun s _ =>
      iteInduction (fun _ => sameHmOutside_forcePush _ s _) fun _ => sameHmOutside_of_hm rfl⟩
  | bqDrop cnt => exact ⟨_, fun _ => rfl, fun s _ => sameHmOutside_of_hm (s.evict_hm _)⟩
  | bqPop cnt addr =>
    refine ⟨_, fun _ => rfl, fun s h => iteInduction (fun _ a ha => ?_) fun _ => sameHmOutside_of_hm rfl⟩
    rw [State.respond_hm, State.evict_hm]
    exact sameHmOutside_copyOut h _ _ _ a ha
  | bqGet idx cnt addr =>
    exact ⟨_, fun _ => rfl, fun s h => iteInduction (fun _ => sameHmOutside_of_hm rfl) fun _ =>
      iteInduction (fun _ => sameHmOutside_copyOut h _ _ _) fun _ => sameHmOutside_of_hm rfl⟩
  | bqClear | bqCap | bqSize | bqAvail | bqEmpty | bqFull =>
    exact ⟨_, fun _ => rfl, fun s _ => sameHmOutside_of_hm rfl⟩
  | eqPush | eqPop | eqPopa | eqPeek | eqClear | eqRemove | eqGet | eqSet | eqFront | eqBack | eqFind | eqCap | eqSize
  | eqAvail | eqEmpty | eqFull => simp [Instr.opcode] at hi

/-- Settles O27: an Element Queue command leaves the whole of HM alone (R12), and so does the answer of a faulted block; a Bit Queue
command writes in its region. -/
theorem hostMemoryOutsideTheRegionIsUntouched : Obligations.HostMemoryOutsideTheRegionIsUntouched := by
  intro s t i a hx ha
  obtain ⟨-, -, rfl⟩ | ⟨hl, hs, hlegal⟩ := exec_cases hx
  · rfl
  · cases hi : i.opcode.getLsbD 4 with
    | false =>
      obtain ⟨hE, -⟩ := unitsShareOnlyTheFaultState s s t i hlegal hlegal hx
      obtain ⟨-, hhm, -⟩ := hE hi
      rw [hhm]
    | true =>
      obtain ⟨f, hf, hregion⟩ := exec_effect_hmRegion hi
      obtain rfl : f s = t := by simpa [hf, perform_ready f ⟨hl, hs, hlegal⟩] using hx
      exact hregion s hlegal a ha

/-! ## Reads repeated at once (R69) -/

/-- From `s` the effect gives one answer, and at once again only that answer. -/
def AnswersAgain (f : State → State) (s : State) : Prop :=
  ∃ r, (f s).responses = s.responses ++ [r] ∧ perform (f s) f = .next ((f s).deliver r)

/-- A command's checks look at the effect in the present state only. -/
theorem perform_congr (h : f s = g s) : perform s f = perform s g := by
  simp only [perform, h]

/-- A choice answers again when the chosen effect does and leaves the choice as it was. -/
theorem AnswersAgain.ite {c : State → Prop} [∀ s, Decidable (c s)] (hg : c s → c (g s) ∧ AnswersAgain g s)
    (hg' : ¬ c s → ¬ c (g' s) ∧ AnswersAgain g' s) : AnswersAgain (fun s => if c s then g s else g' s) s := by
  by_cases hc : c s
  · obtain ⟨hagain, r, hr, hp⟩ := hg hc
    rw [AnswersAgain, if_pos hc]
    exact ⟨r, hr, (perform_congr (by exact if_pos hagain)).trans hp⟩
  · obtain ⟨hagain, r, hr, hp⟩ := hg' hc
    rw [AnswersAgain, if_neg hc]
    exact ⟨r, hr, (perform_congr (by exact if_neg hagain)).trans hp⟩

/-- A fault raised is answered by the faulted block (R294). -/
theorem AnswersAgain.raise (hl : s.cfg.legal = true) (c : Cause) : AnswersAgain (·.raise c) s :=
  ⟨faultedResponse c.code, rfl, perform_faulted _ hl rfl⟩

/-- A block that still performs commands performs the effect again. -/
theorem AnswersAgain.of_ready (h : (f s).ready) {r : Response} (hr : (f s).responses = s.responses ++ [r])
    (hagain : f (f s) = (f s).deliver r) : AnswersAgain f s :=
  ⟨r, hr, (perform_ready f h).trans (congrArg _ hagain)⟩

/-- The same bits written to HM a second time change nothing (R187). -/
theorem hmWriteBits_hmWriteBits {A size : Nat} {bits : BitString} {hm : Memory Byte}
    (hr : bits.length = 0 ∨ A + ceilDiv8 bits.length ≤ size) (h : Memory.wf unlistedByte size hm) :
    hmWriteBits A bits (hmWriteBits A bits hm) = hmWriteBits A bits hm := by
  have hwf := wf_hmWriteBits hr h
  refine Memory.ext_bits (wf_hmWriteBits hr hwf) hwf fun q => ?_
  rw [bitAt_hmWriteBits hwf.1, bitAt_hmWriteBits h.1]
  split <;> rfl

/-- A second transfer of the same queued bits, after the answer to the first, changes nothing. -/
theorem copyOut_respond_copyOut (h : s.Inv) {off n A : Nat} (hr : hmInRange s.cfg A n = true) :
    ((s.copyOut off n A).respond true 0 n).copyOut off n A = (s.copyOut off n A).respond true 0 n := by
  have hbits := hmInRange_iff.1 hr
  rw [← length_bitRead_posB h.indexesLegal off n] at hbits
  exact congrArg ((s.copyOut off n A).respond true 0 n).setHm (hmWriteBits_hmWriteBits hbits h.hm)

/-- A transfer in range moves no register, so it writes the same bits again: `BQ.GET` (R197). -/
theorem AnswersAgain.copyOut (h : s.Inv) (hs : s.fault = false) {off n A : Nat} (hr : hmInRange s.cfg A n = true) :
    AnswersAgain (fun s => (s.copyOut off n A).respond true 0 n) s :=
  .of_ready (h.ready hs) rfl (congrArg (·.respond true 0 n) (copyOut_respond_copyOut h hr))

/-- The ten queries answer from the registers and the configuration (R260). -/
theorem query_answersAgain (hi : i.opcode.getLsbD 5 = true) : ∃ f, (∀ s, exec i s = perform s f) ∧
    ∀ s : State, s.ready → AnswersAgain f s := by
  cases i with
  | eqCap | eqSize | eqAvail | eqEmpty | eqFull | bqCap | bqSize | bqAvail | bqEmpty | bqFull =>
    exact ⟨_, fun _ => rfl, fun s h => .of_ready h rfl rfl⟩
  | eqPush | eqPop | eqPopa | eqPeek | eqClear | eqRemove | eqGet | eqSet | eqFront | eqBack | eqFind | bqPush8 | bqPushm
  | bqFpush8 | bqFpushm | bqDrop | bqPop | bqGet | bqClear => simp [Instr.opcode] at hi

/-- Settles O51: each read's checks, and what it answers, look at nothing that the read changes. -/
theorem readsHaveNoCumulativeEffect : Obligations.ReadsHaveNoCumulativeEffect := by
  intro s t i h hs hread hx
  have hready := h.ready hs
  suffices hf : ∃ f, (∀ s, exec i s = perform s f) ∧ AnswersAgain f s by
    obtain ⟨f, hf, hagain⟩ := hf
    obtain rfl : f s = t := by simpa [hf, perform_ready f hready] using hx
    rw [hf]
    exact hagain
  rcases hread with hi | rfl | ⟨idx, rfl⟩ | rfl | rfl | ⟨data, rfl⟩ | ⟨idx, cnt, addr, rfl⟩
  · obtain ⟨f, hf, hagain⟩ := query_answersAgain hi
    exact ⟨f, hf, hagain s hready⟩
  · exact ⟨_, fun _ => rfl, .ite (fun hc => ⟨hc, .of_ready hready rfl rfl⟩) fun hc => ⟨hc, .of_ready hready rfl rfl⟩⟩
  · exact ⟨_, fun _ => rfl, .ite (fun hc => ⟨hc, .raise h.cfgLegal _⟩) fun hc => ⟨hc, .of_ready hready rfl rfl⟩⟩
  · exact ⟨_, fun _ => rfl, .ite (fun hc => ⟨hc, .raise h.cfgLegal _⟩) fun hc => ⟨hc, .of_ready hready rfl rfl⟩⟩
  · exact ⟨_, fun _ => rfl, .ite (fun hc => ⟨hc, .raise h.cfgLegal _⟩) fun hc => ⟨hc, .of_ready hready rfl rfl⟩⟩
  · exact ⟨_, fun _ => rfl, .of_ready hready rfl rfl⟩
  · refine ⟨_, fun _ => rfl, .ite (fun hc => ⟨hc, .of_ready hready rfl rfl⟩) fun hc => ⟨?_,
      .ite (fun hr => ⟨hr, .copyOut h hs hr⟩) fun hr => ⟨hr, .raise h.cfgLegal _⟩⟩⟩
    split <;> exact hc

/-! ## The host's writes to its memory (R73, R75) -/

/-- A host write is a step of its own: it sets its byte, or stops the model when HM has no such byte (assumption 13). -/
theorem step_writeHM (hl : s.cfg.legal = true) {addr : Nat} {value : Byte} {rest : List HostInput}
    (hi : s.inputs = .writeHM addr value :: rest) : step s =
      if addr < s.cfg.hmSize then .next ((s.setInputs rest).setHm (setByte s.hm addr value)) else .fault .hmAddress := by
  simp only [step, stepInput, hl, if_true, hi, takeInput]
  rfl

/-- Settles O25: the step sets the byte, and a read after that sees it there and the other bytes as before. -/
theorem hostWritesLandBeforeTheNextCommand : Obligations.HostWritesLandBeforeTheNextCommand := by
  intro s addr value rest h hi
  have hstep := step_writeHM h.cfgLegal hi
  refine ⟨fun ha => ⟨_, hstep.trans (if_pos ha), ?_, fun a hne => byteAt_setByte_other value hne, rfl⟩,
    fun ha => hstep.trans (if_neg (Nat.not_lt.2 ha))⟩
  exact Memory.read_write_same h.hm.1

end Sys2Proof.Machine

/-! PROOFS. The family of spec/30_encoding.md: the fields of the two flat vectors (R90, R97), the decoder against the encoder (R95,
R99, R102), reserved opcodes (R96), unread fields (R94), pseudo-commands (R101), and one response to each command (R98).

A flat vector is its fields joined one above the other (`joinBits`), so each fact about a vector is a fact about one joint. A
decoded command is the one its opcode names, with its operands taken from the request (`Instr.withOperands`). -/

namespace Sys2Proof

variable {c : Config} {r : Request} {i : Instr}

/-! ## Fields of a flat vector -/

/-- The vector `{high, low}` of R14, with `k` bits for `low`. -/
def joinBits (k low high : Nat) : Nat := 2 ^ k * high + low

theorem testBit_joinBits_low {k low : Nat} (hlow : low < 2 ^ k) (high : Nat) {j : Nat} (hj : j < k) :
    (joinBits k low high).testBit j = low.testBit j := by
  rw [joinBits, Nat.testBit_two_pow_mul_add _ hlow, if_pos hj]

theorem testBit_joinBits_high {k low : Nat} (hlow : low < 2 ^ k) (high j : Nat) :
    (joinBits k low high).testBit (k + j) = high.testBit j := by
  rw [joinBits, Nat.testBit_two_pow_mul_add _ hlow, if_neg (by omega), Nat.add_sub_cancel_left]

theorem joinBits_lt {k low n high : Nat} (hlow : low < 2 ^ k) (hhigh : high < 2 ^ n) : joinBits k low high < 2 ^ (k + n) := by
  calc 2 ^ k * high + low < 2 ^ k * (high + 1) := by rw [Nat.mul_succ]; omega
    _ ≤ 2 ^ k * 2 ^ n := Nat.mul_le_mul_left _ hhigh
    _ = 2 ^ (k + n) := (Nat.pow_add ..).symm

theorem bitField_joinBits_low {k low : Nat} (hlow : low < 2 ^ k) (high : Nat) : bitField (joinBits k low high) 0 k = low := by
  rw [bitField, joinBits, Nat.pow_zero, Nat.div_one, Nat.mul_add_mod, Nat.mod_eq_of_lt hlow]

theorem bitField_joinBits_high {k low : Nat} (hlow : low < 2 ^ k) (high lo width : Nat) :
    bitField (joinBits k low high) (k + lo) width = bitField high lo width := by
  have hdiv : joinBits k low high / 2 ^ k = high := by
    rw [joinBits, Nat.mul_add_div (Nat.two_pow_pos k), Nat.div_eq_of_lt hlow, Nat.add_zero]
  rw [bitField, bitField, Nat.pow_add, ← Nat.div_div_eq_div_mul, hdiv]

theorem testBit_bitField (v lo width k : Nat) :
    (bitField v lo width).testBit k = (decide (k < width) && v.testBit (lo + k)) := by
  rw [bitField, Nat.testBit_mod_two_pow, Nat.testBit_div_two_pow, Nat.add_comm]

theorem getLsbD_ofNat_bitField (v lo : Nat) {n k : Nat} (hk : k < n) :
    (BitVec.ofNat n (bitField v lo n)).getLsbD k = v.testBit (lo + k) := by
  rw [BitVec.getLsbD_ofNat, testBit_bitField, decide_eq_true hk, Bool.true_and, Bool.true_and]

theorem bitField_lt (v lo width : Nat) : bitField v lo width < 2 ^ width := Nat.mod_lt _ (Nat.two_pow_pos _)

/-- A field of the vector, or the 0 of an unread field, fits its width. -/
theorem bitField_or_zero_lt (b : Bool) (v lo width : Nat) : (if b then bitField v lo width else 0) < 2 ^ width := by
  split
  · exact bitField_lt v lo width
  · exact Nat.two_pow_pos width

/-! ## The request vector (R90) -/

theorem ofReq_op (c : Config) (v : Nat) : (Request.ofReq c v).op = BitVec.ofNat 6 v := by
  refine BitVec.eq_of_toNat_eq ?_
  simp [Request.ofReq, bitField]

/-- Settles O1: each field of the record is one `bitField` of the vector. -/
theorem requestFieldsAreTheirBits : Obligations.RequestFieldsAreTheirBits := fun c v =>
  ⟨fun k hk => (getLsbD_ofNat_bitField v 0 hk).trans (congrArg _ (Nat.zero_add k)), testBit_bitField v 6 c.dw,
    fun _ hk => getLsbD_ofNat_bitField v _ hk, fun _ hk => getLsbD_ofNat_bitField v _ hk, testBit_bitField v _ c.aw, rfl⟩

/-- The request vector joins the five fields. -/
theorem toReq_eq_joinBits (c : Config) (r : Request) : r.toReq c =
    joinBits 6 r.op.toNat (joinBits c.dw r.data (joinBits 32 r.cnt.toNat (joinBits 32 r.idx.toNat r.addr))) := by
  simp only [Request.toReq, joinBits, Nat.pow_add]
  ring

theorem toReq_lt (hdata : r.data < 2 ^ c.dw) (haddr : r.addr < 2 ^ c.aw) : r.toReq c < 2 ^ reqWidth c := by
  have h := joinBits_lt r.op.isLt (joinBits_lt hdata (joinBits_lt r.cnt.isLt (joinBits_lt r.idx.isLt haddr)))
  rw [toReq_eq_joinBits]
  exact h.trans_eq (congrArg _ (by rw [reqWidth]; omega))

/-- The fields read back from a record's vector are the record's. -/
theorem ofReq_toReq (hdata : r.data < 2 ^ c.dw) (haddr : r.addr < 2 ^ c.aw) : Request.ofReq c (r.toReq c) = r := by
  have hop := r.op.isLt
  have hcnt := r.cnt.isLt
  have hidx := r.idx.isLt
  have hdata_field (high : Nat) : bitField (joinBits 6 r.op.toNat (joinBits c.dw r.data high)) 6 c.dw = r.data :=
    (bitField_joinBits_high hop _ 0 _).trans (bitField_joinBits_low hdata high)
  have hcnt_lo : c.dw + 6 = 6 + (c.dw + 0) := Nat.add_comm ..
  have hidx_lo : c.dw + 38 = 6 + (c.dw + (32 + 0)) := by omega
  have haddr_lo : c.dw + 70 = 6 + (c.dw + (32 + (32 + 0))) := by omega
  have haddr_top : bitField r.addr 0 c.aw = r.addr := by rw [bitField, Nat.pow_zero, Nat.div_one, Nat.mod_eq_of_lt haddr]
  rw [toReq_eq_joinBits, Request.ofReq, hcnt_lo, hidx_lo, haddr_lo, hdata_field]
  simp only [bitField_joinBits_high hop, bitField_joinBits_high hdata, bitField_joinBits_high hcnt,
    bitField_joinBits_high hidx, bitField_joinBits_low hop, bitField_joinBits_low hcnt, bitField_joinBits_low hidx,
    haddr_top, BitVec.ofNat_toNat, BitVec.setWidth_eq]

/-- A command is well formed when its request's DATA and ADDR fit their fields; CNT and IDX always do. -/
theorem wellFormed_iff : i.wellFormed c = true ↔ (encodeRequest i).data < 2 ^ c.dw ∧ (encodeRequest i).addr < 2 ^ c.aw := by
  cases i <;> simp [Instr.wellFormed, dataFits, addrFits, encodeRequest]

theorem decodeRequest_encodeRequest (i : Instr) : decodeRequest (encodeRequest i) = .ok i := by cases i <;> rfl

/-- Settles O2: the record is read back from its vector, and the record decodes to the command. -/
theorem decodeOfEncodeIsTheCommand : Obligations.DecodeOfEncodeIsTheCommand := by
  intro c i hi
  obtain ⟨hdata, haddr⟩ := wellFormed_iff.1 hi
  refine ⟨toReq_lt hdata haddr, ?_⟩
  rw [decode, encode, ofReq_toReq hdata haddr, decodeRequest_encodeRequest]

/-! ## Decoded commands (R95, R99, R102) -/

/-- The command with the opcode of `i` and the operands of `r`. -/
def Instr.withOperands (i : Instr) (r : Request) : Instr := (decodeRequest { r with op := i.opcode }).toOption.getD i

theorem decodeRequest_of_opcode (h : r.op = i.opcode) : decodeRequest r = .ok (i.withOperands r) := by
  obtain ⟨op, data, cnt, idx, addr⟩ := r
  obtain rfl : op = i.opcode := h
  cases i <;> rfl

/-- What a request decodes to has the request's opcode and operands. -/
theorem decodeRequest_ok (h : decodeRequest r = .ok i) : r.op = i.opcode ∧ i.withOperands r = i := by
  have hop : r.op = i.opcode := by
    unfold decodeRequest at h
    split at h <;> cases h <;> assumption
  exact ⟨hop, Except.ok.inj ((decodeRequest_of_opcode hop).symm.trans h)⟩

/-- The record of a command with the operands of `r`: the fields its class reads (R102), and 0 for the others (R100). -/
theorem encodeRequest_withOperands (i : Instr) (r : Request) : encodeRequest (i.withOperands r) =
    { op := i.opcode
      data := if i.operandClass.readsData then r.data else 0
      cnt := if i.operandClass.readsCnt then r.cnt else 0
      idx := if i.operandClass.readsIdx then r.idx else 0
      addr := if i.operandClass.readsAddr then r.addr else 0 } := by
  cases i <;> rfl

/-- Settles O3: the record of the command has its fields from the vector, where they fit. -/
theorem decodedCommandCarriesItsClassFields : Obligations.DecodedCommandCarriesItsClassFields := by
  intro c v i h
  obtain ⟨hop, hi⟩ := decodeRequest_ok h
  have henc := encodeRequest_withOperands i (Request.ofReq c v)
  rw [hi] at henc
  refine ⟨wellFormed_iff.2 ⟨?_, ?_⟩, hop.symm.trans (ofReq_op c v), fun hc => ?_, fun hc => ?_, fun hc => ?_, fun hc => ?_⟩
  · rw [henc]
    exact bitField_or_zero_lt ..
  · rw [henc]
    exact bitField_or_zero_lt ..
  all_goals rw [henc]; exact if_pos hc

/-- Settles O6: the decoder run on each word. -/
theorem listedWordsDecode : Obligations.ListedWordsDecode :=
  ⟨by decide, by decide, by decide, by decide, by decide, by decide, by decide, by decide⟩

end Sys2Proof

namespace Sys2Proof.Machine

variable {c : Config} {r r' : Request} {i : Instr} {s t u : State}

/-! ## Reserved opcodes (R96) -/

theorem opcode_not_reserved (i : Instr) : ¬ reservedOpcode i.opcode.toNat := by cases i <;> simp [Instr.opcode]

theorem exists_opcode_of_not_reserved {op : BitVec 6} (h : ¬ reservedOpcode op.toNat) : ∃ i : Instr, op = i.opcode := by
  have hall : ∀ op : BitVec 6, ¬ reservedOpcode op.toNat → (decodeRequest ⟨op, 0, 0, 0, 0⟩).isOk = true := by decide
  have hok := hall op h
  cases hd : decodeRequest ⟨op, 0, 0, 0, 0⟩ with
  | ok i => exact ⟨i, (decodeRequest_ok hd).1⟩
  | error e => rw [hd] at hok; cases hok

/-- A request spells a command exactly when its `OP` is not reserved (R95). -/
theorem decode_ok_iff (c : Config) (v : Nat) : (∃ i, decode c v = .ok i) ↔ ¬ reservedOpcode (v % 64) := by
  have hop : (Request.ofReq c v).op.toNat = v % 64 := by rw [ofReq_op, BitVec.toNat_ofNat]
  rw [← hop]
  constructor
  · rintro ⟨i, hi⟩
    rw [(decodeRequest_ok hi).1]
    exact opcode_not_reserved i
  · intro h
    obtain ⟨i, hi⟩ := exists_opcode_of_not_reserved h
    exact ⟨_, decodeRequest_of_opcode hi⟩

/-- A request is one step: it is served in the state without it. -/
theorem step_request (hl : s.cfg.legal = true) (hr : s.rst = false) {req : Nat} {rest : List HostInput}
    (hi : s.inputs = .request req :: rest) : step s = serve req (s.setInputs rest) := by
  simp [step, stepInput, hl, hi, takeInput, hr]

theorem serve_of_decode_ok {req : Nat} (h : decode s.cfg req = .ok i) : serve req s = exec i s := by rw [serve, h]

theorem serve_reserved {req : Nat} (h : reservedOpcode (req % 64)) : serve req s = rejectOpcode s := by
  cases hd : decode s.cfg req with
  | ok i => exact absurd h ((decode_ok_iff _ _).1 ⟨i, hd⟩)
  | error e => rw [serve, hd]

/-- Settles O4: a reserved opcode decodes to no command, and the block that performs commands raises the fault. -/
theorem reservedOpcodesFault : Obligations.ReservedOpcodesFault := by
  intro s req rest hs hr hi
  have ⟨hl, _, _⟩ := hs
  refine ⟨fun h => ?_, (decode_ok_iff _ _).2⟩
  have hs' : (s.setInputs rest).ready := hs
  rw [step_request hl hr hi, serve_reserved h, rejectOpcode, perform_ready _ hs', State.raise_eq]
  rfl

/-! ## Request fields without effect (R94) -/

theorem recordOperand_congr {data data' : Nat} (h : ∀ k < c.w, data.testBit k = data'.testBit k) :
    recordOperand c data = recordOperand c data' := by
  refine Nat.eq_of_testBit_eq fun k => ?_
  rw [recordOperand, recordOperand, Nat.testBit_mod_two_pow, Nat.testBit_mod_two_pow]
  by_cases hk : k < c.w
  · rw [h k hk]
  · simp [hk]

theorem byteBits_congr {data data' n : Nat} (h : ∀ k < min 8 n, data.testBit k = data'.testBit k) :
    byteBits data n = byteBits data' n := by
  refine List.map_congr_left fun k hk => ?_
  have hk := List.mem_range.1 hk
  simp only [byteOperand, BitVec.getLsbD_ofNat]
  by_cases h8 : k < 8
  · rw [h k (by omega)]
  · simp [h8]

/-- A command does the same with the operands of two requests that agree on what its class reads, and of DATA on what R92 uses. -/
theorem exec_withOperands_congr (i : Instr) (s : State)
    (hcnt : i.operandClass.readsCnt = true → r.cnt = r'.cnt) (hidx : i.operandClass.readsIdx = true → r.idx = r'.idx)
    (haddr : i.operandClass.readsAddr = true → r.addr = r'.addr)
    (hrecord : i.operandClass = .d ∨ i.operandClass = .id → ∀ k < s.cfg.w, r.data.testBit k = r'.data.testBit k)
    (hbyte : i.operandClass = .dc → ∀ k < min 8 r.cnt.toNat, r.data.testBit k = r'.data.testBit k) :
    exec (i.withOperands r) s = exec (i.withOperands r') s := by
  cases i with
  | eqPop | eqPopa | eqPeek | eqClear | eqFront | eqBack | bqClear | eqCap | eqSize | eqAvail | eqEmpty | eqFull | bqCap
  | bqSize | bqAvail | bqEmpty | bqFull => rfl
  | eqGet => exact congrArg (fun idx => exec (.eqGet idx) s) (hidx rfl)
  | bqDrop => exact congrArg (fun cnt => exec (.bqDrop cnt) s) (hcnt rfl)
  | bqPushm => exact congrArg₂ (fun cnt addr => exec (.bqPushm cnt addr) s) (hcnt rfl) (haddr rfl)
  | bqFpushm => exact congrArg₂ (fun cnt addr => exec (.bqFpushm cnt addr) s) (hcnt rfl) (haddr rfl)
  | bqPop => exact congrArg₂ (fun cnt addr => exec (.bqPop cnt addr) s) (hcnt rfl) (haddr rfl)
  | bqGet =>
    show exec (.bqGet r.idx r.cnt r.addr) s = exec (.bqGet r'.idx r'.cnt r'.addr) s
    rw [hidx rfl, hcnt rfl, haddr rfl]
  | eqPush =>
    have hv := recordOperand_congr (hrecord (.inl rfl))
    show execEqPush r.data s = execEqPush r'.data s
    exact perform_congr (by simp only [hv])
  | eqRemove =>
    have hv := recordOperand_congr (hrecord (.inl rfl))
    show execEqRemove r.data s = execEqRemove r'.data s
    exact perform_congr (by simp only [hv])
  | eqFind =>
    have hv := recordOperand_congr (hrecord (.inl rfl))
    show execEqFind r.data s = execEqFind r'.data s
    exact perform_congr (by simp only [hv])
  | eqSet =>
    have hv := recordOperand_congr (hrecord (.inr rfl))
    show execEqSet r.idx r.data s = execEqSet r'.idx r'.data s
    exact perform_congr (by simp only [hv, hidx rfl])
  | bqPush8 =>
    have hv := byteBits_congr (hbyte rfl)
    show execBqPush8 r.data r.cnt s = execBqPush8 r'.data r'.cnt s
    exact perform_congr (by simp only [hv, ← hcnt rfl])
  | bqFpush8 =>
    have hv := byteBits_congr (hbyte rfl)
    show execBqFpush8 r.data r.cnt s = execBqFpush8 r'.data r'.cnt s
    exact perform_congr (by simp only [hv, ← hcnt rfl])

/-- Settles O5: both vectors decode to the same command, each with its own operands. -/
theorem unusedRequestFieldsHaveNoEffect : Obligations.UnusedRequestFieldsHaveNoEffect := by
  intro s v v' i h hop hcnt hidx haddr hrecord hbyte
  obtain ⟨hopcode, -⟩ := decodeRequest_ok h
  rw [serve_of_decode_ok (decodeRequest_of_opcode hopcode), serve_of_decode_ok (decodeRequest_of_opcode (hop ▸ hopcode))]
  exact exec_withOperands_congr i s hcnt hidx haddr hrecord hbyte

/-! ## The response vector (R97) -/

/-- The response vector joins the five fields. -/
theorem toRsp_eq_joinBits (c : Config) (r : Response) : r.toRsp c =
    joinBits 1 r.ok.toNat (joinBits 1 r.fault.toNat (joinBits 4 r.cause.toNat (joinBits c.w r.data r.count))) := by
  simp only [Response.toRsp, joinBits, Nat.pow_add]
  ring

/-- Settles O7: bit by bit down the joints. -/
theorem responseFieldsAreTheirBits : Obligations.ResponseFieldsAreTheirBits := by
  rintro c r ⟨hdata, hcount, -, -, -⟩
  have hok : r.ok.toNat < 2 ^ 1 := r.ok.toNat_lt
  have hfault : r.fault.toNat < 2 ^ 1 := r.fault.toNat_lt
  have hcause := r.cause.isLt
  rw [toRsp_eq_joinBits]
  refine ⟨?_, ?_, fun k hk => ?_, fun k hk => ?_, fun k hk => ?_, ?_⟩
  · rw [testBit_joinBits_low hok _ Nat.zero_lt_one]
    cases r.ok <;> rfl
  · rw [testBit_joinBits_high hok _ 0, testBit_joinBits_low hfault _ Nat.zero_lt_one]
    cases r.fault <;> rfl
  · rw [show 2 + k = 1 + (1 + k) by omega, testBit_joinBits_high hok, testBit_joinBits_high hfault,
      testBit_joinBits_low hcause _ hk]
    rfl
  · rw [show 6 + k = 1 + (1 + (4 + k)) by omega, testBit_joinBits_high hok, testBit_joinBits_high hfault,
      testBit_joinBits_high hcause, testBit_joinBits_low hdata _ hk]
  · rw [show c.w + 6 + k = 1 + (1 + (4 + (c.w + k))) by omega, testBit_joinBits_high hok, testBit_joinBits_high hfault,
      testBit_joinBits_high hcause, testBit_joinBits_high hdata]
  · have h := joinBits_lt hok (joinBits_lt hfault (joinBits_lt hcause (joinBits_lt hdata hcount)))
    exact h.trans_eq (congrArg _ (by omega))

/-! ## One response to each command (R97, R98, R332) -/

/-- From `s` to `t` one response is delivered. -/
def oneMoreResponse (s t : State) : Prop := ∃ r, t.responses = s.responses ++ [r]

theorem oneMoreResponse_deliver (h : u.responses = s.responses) (r : Response) : oneMoreResponse s (u.deliver r) :=
  ⟨r, congrArg (· ++ [r]) h⟩

theorem oneMoreResponse_forcePush (s : State) (bits : BitString) : oneMoreResponse s (s.forcePush bits) := by
  obtain ⟨-, -, h⟩ := forcePush_frame s bits
  exact ⟨_, h⟩

/-- The effect of every command delivers one response, in each of its outcomes. -/
theorem exec_effect_oneMoreResponse (i : Instr) :
    ∃ f, (∀ s, exec i s = perform s f) ∧ ∀ s : State, oneMoreResponse s (f s) := by
  cases i with
  | eqPush | eqPop | eqPopa | eqPeek | eqGet | eqSet | eqFront | eqBack =>
    exact ⟨_, fun _ => rfl, fun s => iteInduction (fun _ => ⟨_, rfl⟩) fun _ => ⟨_, rfl⟩⟩
  | bqPush8 =>
    exact ⟨_, fun _ => rfl, fun s => iteInduction (fun _ => ⟨_, rfl⟩) fun _ =>
      iteInduction (fun _ => ⟨_, rfl⟩) fun _ => oneMoreResponse_deliver (s.pushGroups_responses _) _⟩
  | bqPushm =>
    exact ⟨_, fun _ => rfl, fun s => iteInduction (fun _ => ⟨_, rfl⟩) fun _ =>
      iteInduction (fun _ => oneMoreResponse_deliver (s.pushGroups_responses _) _) fun _ => ⟨_, rfl⟩⟩
  | bqFpush8 =>
    exact ⟨_, fun _ => rfl, fun s => iteInduction (fun _ => ⟨_, rfl⟩) fun _ => oneMoreResponse_forcePush s _⟩
  | bqFpushm =>
    exact ⟨_, fun _ => rfl, fun s => iteInduction (fun _ => oneMoreResponse_forcePush s _) fun _ => ⟨_, rfl⟩⟩
  | bqDrop => exact ⟨_, fun _ => rfl, fun s => oneMoreResponse_deliver (s.evict_responses _) _⟩
  | bqPop =>
    exact ⟨_, fun _ => rfl, fun s =>
      iteInduction (fun _ => oneMoreResponse_deliver (State.evict_responses _ _) _) fun _ => ⟨_, rfl⟩⟩
  | bqGet =>
    exact ⟨_, fun _ => rfl, fun s => iteInduction (fun _ => ⟨_, rfl⟩) fun _ =>
      iteInduction (fun _ => ⟨_, rfl⟩) fun _ => ⟨_, rfl⟩⟩
  | eqClear | eqRemove | eqFind | bqClear | eqCap | eqSize | eqAvail | eqEmpty | eqFull | bqCap | bqSize | bqAvail | bqEmpty
  | bqFull => exact ⟨_, fun _ => rfl, fun s => ⟨_, rfl⟩⟩

/-- In a block that meets the invariant every command completes with one response more. -/
theorem State.Inv.exec_next (h : s.Inv) (i : Instr) : ∃ t, Machine.exec i s = .next t ∧ oneMoreResponse s t := by
  obtain ⟨f, hf, hresponse⟩ := exec_effect_oneMoreResponse i
  cases hfault : s.fault with
  | true => exact ⟨_, exec_faulted i h.cfgLegal hfault, _, s.answerFaulted_responses⟩
  | false => exact ⟨f s, (hf s).trans (perform_ready f (h.ready hfault)), hresponse s⟩

/-- No command touches the host's actions to come or the reset line: the frames of R12. -/
theorem exec_inputs_rst (hl : s.indexesLegal = true) (hx : exec i s = .next t) : t.inputs = s.inputs ∧ t.rst = s.rst := by
  obtain ⟨hE, hB⟩ := unitsShareOnlyTheFaultState s s t i hl hl hx
  cases hi : i.opcode.getLsbD 4 with
  | false =>
    obtain ⟨⟨-, -, -, -, hrst, hinputs⟩, -⟩ := hE hi
    exact ⟨hinputs, hrst⟩
  | true =>
    obtain ⟨⟨-, -, -, -, hrst, hinputs⟩, -⟩ := hB hi
    exact ⟨hinputs, hrst⟩

/-- Settles O24: the response fits its record because the state after the command meets the invariant. -/
theorem everyCommandIsAnsweredOnce : Obligations.EveryCommandIsAnsweredOnce := by
  intro s i h
  obtain ⟨t, hx, r, hr⟩ := h.exec_next i
  have hfits : r.wf t.cfg := (h.exec hx).responses r (by simp [hr])
  exact ⟨t, r, hx, hr, exec_cfg hx ▸ hfits, exec_inputs_rst h.indexesLegal hx⟩

/-! ## Pseudo-commands (R101) -/

/-- `bq.discard` evicts all that is queued (R195): its count exceeds every size. -/
theorem exec_bqDiscard (h : s.Inv) (hs : s.fault = false) :
    exec Instr.bqDiscard s = .next ((s.evict s.sizeB).respond true 0 s.sizeB) := by
  have hmin : min (0xFFFFFFFF : BitVec 32).toNat s.sizeB = s.sizeB :=
    Nat.min_eq_right (Nat.le_of_lt_succ (h.lt_of_le_cB (sizeB_le s)))
  rw [Instr.bqDiscard, exec_bqDrop _ (h.ready hs), hmin]

/-- `bq.peek` of bits that are queued, to a region in range, copies them out from the oldest on (R197). -/
theorem exec_bqPeek (h : s.ready) {cnt : BitVec 32} {addr : Nat} (hn : cnt.toNat ≤ s.sizeB)
    (hr : addr + ceilDiv8 cnt.toNat ≤ s.cfg.hmSize) :
    exec (Instr.bqPeek cnt addr) s = .next ((s.copyOut 0 cnt.toNat addr).respond true 0 cnt.toNat) := by
  have h0 : (0 : BitVec 32).toNat = 0 := rfl
  rw [Instr.bqPeek, exec_bqGet _ _ _ h, h0, if_neg (by omega), if_pos (hmInRange_iff.2 (.inr hr))]

/-- The bits copied out are read back as the queued bits they are (R186, R197). -/
theorem hmReadBits_copyOut (h : s.Inv) {off n A : Nat} (hn : off + n ≤ s.sizeB) :
    hmReadBits A n (s.copyOut off n A).hm = (s.queueB.drop off).take n := by
  have hback := hmReadBits_hmWriteBits (A := A) (bits := bitRead s.cfg.pB (s.posB off) n s.bqm) h.hm.1
  rw [length_bitRead_posB h.indexesLegal] at hback
  exact hback.trans (bitRead_queue hn)

/-- Settles O52: the expansions by definition; discard by eviction of everything, peek by a copy of the oldest bits. -/
theorem pseudoCommandsExpand : Obligations.PseudoCommandsExpand := by
  refine ⟨fun _ => ⟨rfl, rfl⟩, fun _ _ => rfl, rfl, fun s h hs => ⟨⟨_, exec_bqDiscard h hs, ?_, ?_⟩, fun cnt addr hn hr =>
    ⟨_, exec_bqPeek (h.ready hs) hn hr, queueB_congr rfl rfl rfl rfl, ?_⟩⟩⟩
  · exact (sizeB_evict h le_rfl).trans (Nat.sub_self _)
  · exact congrArg (· ++ _) (s.evict_responses _)
  · exact hmReadBits_copyOut h (by omega)

end Sys2Proof.Machine

/-! PROOFS. The family of spec/40_element_queue.md: what each Element Queue command answers, writes and leaves alone (R121 to R131), and
that none clears a record it vacates (R133).

A command's next state is its equation of `exec_eqPush` to `exec_eqFind`, its branch chosen by the size; the content of that state is
the law of the shared operation (`queueE_push`, `queueE_pop`, `queueE_set`, `queueE_compact`, `findRecord_eq`). -/

namespace Sys2Proof.Machine

variable {s t : State} {i : Instr}

/-! ## The two tests and the content -/

theorem emptyE_iff : s.emptyE = true ↔ s.headE = s.tailE := beq_iff_eq

theorem fullE_iff : s.fullE = true ↔ s.sizeE = s.cfg.cE := beq_iff_eq

/-- A state that differs in the Element Queue's registers and store and in the responses only is inside the frame of R12. -/
theorem frameE_update (s : State) (head tail : Nat) (m : Memory Nat) (rs : List Response) :
    frameE s { s with headE := head, tailE := tail, eqm := m, responses := rs } :=
  ⟨⟨rfl, rfl, rfl, rfl, rfl, rfl⟩, ⟨rfl, rfl⟩, rfl⟩

theorem State.Inv.recordAt_setRecord (h : s.Inv) (a v b : Nat) :
    Machine.recordAt (Machine.setRecord s.eqm a v) b = if b = a then v else Machine.recordAt s.eqm b := Memory.read_write h.eqm.1

theorem getElem?_queueE_eq_some {k v : Nat} : s.queueE[k]? = some v ↔ k < s.sizeE ∧ recordAt s.eqm (s.slotE k) = v := by
  rw [getElem?_queueE]
  split <;> simp_all

/-! ## PUSH, POP and POPA (R121 to R123) -/

/-- Settles O35: the tail's slot takes the record, by `queueE_push` the content's new last one. -/
theorem eqPushAppendsTheRecord : Obligations.EqPushAppendsTheRecord := by
  intro s data h hs
  rw [exec_eqPush data (h.ready hs)]
  refine ⟨fun hfull => by rw [if_pos (fullE_iff.2 hfull)], fun hfit => ?_⟩
  rw [if_neg (fullE_iff.not.2 hfit)]
  refine ⟨_, rfl, rfl, frameE_update .., rfl, rfl, ?_, fun a ha => ?_, ?_⟩
  · exact (h.recordAt_setRecord ..).trans (if_pos rfl)
  · exact (h.recordAt_setRecord ..).trans (if_neg ha)
  · exact queueE_push h (lt_of_le_of_ne (sizeE_le s) hfit) _

/-- Settles O36: one next state for both commands when a record is queued, and two outcomes when none is. -/
theorem eqPopTakesTheOldestRecord : Obligations.EqPopTakesTheOldestRecord := by
  intro s h hs
  rw [exec_eqPop (h.ready hs), exec_eqPopa (h.ready hs)]
  refine ⟨fun hempty => ?_, fun hne => ?_⟩
  · rw [if_pos (emptyE_iff.2 hempty), if_pos (emptyE_iff.2 hempty)]
    exact ⟨rfl, rfl⟩
  · rw [if_neg (emptyE_iff.not.2 hne), if_neg (emptyE_iff.not.2 hne)]
    exact ⟨_, _, rfl, rfl, rfl, frameE_update .., rfl, rfl, rfl, rfl, queueE_pop h hne⟩

/-! ## PEEK, GET, FRONT, BACK and FIND (R124, R127, R129 to R131) -/

theorem exec_eqGet_of_queued (h : s.ready) {idx : BitVec 32} {v : Nat} (hq : s.queueE[idx.toNat]? = some v) :
    exec (.eqGet idx) s = .next (s.respond true v 0) := by
  obtain ⟨hlt, rfl⟩ := getElem?_queueE_eq_some.1 hq
  rw [exec_eqGet idx h, if_neg (Nat.not_le.2 hlt)]
  rfl

theorem exec_eqBack_of_queued (h : s.ready) {v : Nat} (hq : s.queueE.getLast? = some v) :
    exec .eqBack s = .next (s.respond true v 0) := by
  rw [List.getLast?_eq_getElem?, length_queueE] at hq
  obtain ⟨hlt, rfl⟩ := getElem?_queueE_eq_some.1 hq
  rw [exec_eqBack h, if_neg (Nat.ne_zero_of_lt hlt)]
  rfl

/-- The oldest record stands at the head register. -/
theorem head?_queueE_eq_some (h : s.indexesLegal = true) {v : Nat} (hq : s.queueE.head? = some v) :
    s.headE ≠ s.tailE ∧ recordAt s.eqm s.headE = v := by
  rw [List.head?_eq_getElem?] at hq
  obtain ⟨hpos, hv⟩ := getElem?_queueE_eq_some.1 hq
  obtain ⟨hhead, -⟩ := indexesLegal_iff.1 h
  rw [State.slotE, adv_zero hhead] at hv
  exact ⟨(sizeE_eq_zero h).not.1 hpos.ne', hv⟩

/-- Settles O37: a queued record names a logical offset below the size, and an offset at or above it takes the other branch. -/
theorem eqReadsReturnQueuedRecords : Obligations.EqReadsReturnQueuedRecords := by
  intro s h
  have ⟨_, _, hlegal⟩ := h
  refine ⟨fun v hq => ?_, fun v => exec_eqBack_of_queued h, fun idx v => exec_eqGet_of_queued h, fun hempty => ?_,
    fun idx hidx => by rw [exec_eqGet idx h, if_pos hidx]⟩
  · obtain ⟨hne, rfl⟩ := head?_queueE_eq_some hlegal hq
    rw [exec_eqPeek h, exec_eqFront h, if_neg (emptyE_iff.not.2 hne), if_neg ((sizeE_eq_zero hlegal).not.2 hne)]
    exact ⟨rfl, rfl⟩
  · have hzero := (sizeE_eq_zero hlegal).2 hempty
    rw [exec_eqPeek h, exec_eqFront h, exec_eqBack h, if_pos (emptyE_iff.2 hempty), if_pos hzero, if_pos hzero]
    exact ⟨rfl, rfl, rfl⟩

/-- Settles O40: the scan is membership in the content (`findRecord_eq`). -/
theorem eqFindReportsMembership : Obligations.EqFindReportsMembership := by
  intro s data h
  rw [exec_eqFind data h, findRecord_eq]
  rfl

/-! ## SET and REMOVE (R126, R128) -/

/-- Settles O38: the slot of the offset is written, by `queueE_set` that record of the content. -/
theorem eqSetReplacesOneRecord : Obligations.EqSetReplacesOneRecord := by
  intro s idx data h hs
  rw [exec_eqSet idx data (h.ready hs)]
  refine ⟨fun hidx => by rw [if_pos hidx], fun hidx => ?_⟩
  rw [if_neg (Nat.not_le.2 hidx)]
  exact ⟨_, rfl, rfl, frameE_update .., rfl, rfl, fun a => h.recordAt_setRecord .., queueE_set h hidx _⟩

/-- What a filter of the other elements leaves out are the elements counted. -/
theorem length_sub_length_filter_ne (l : List Nat) (v : Nat) :
    l.length - (l.filter fun x => decide (x ≠ v)).length = l.count v := by
  have hcount : l.count v = (l.filter (· == v)).length := List.countP_eq_length_filter
  have hne : (fun x => decide (x ≠ v)) = fun x => !(x == v) := funext fun _ => decide_not
  have hsplit := l.length_eq_length_filter_add (· == v)
  rw [hcount, hne]
  omega

/-- Settles O39: `queueE_compact`, with the number removed as a count. -/
theorem eqRemoveKeepsTheOtherRecordsInOrder : Obligations.EqRemoveKeepsTheOtherRecordsInOrder := by
  intro s data h hs
  have hkeep : (fun v => !eqElem v (recordOperand s.cfg data)) = fun v => decide (v ≠ data % 2 ^ s.cfg.w) :=
    funext fun _ => decide_not.symm
  obtain ⟨hqueue, hremoved, htail, hother⟩ := queueE_compact h (recordOperand s.cfg data)
  rw [hkeep] at hqueue hremoved htail hother
  have hcount := length_sub_length_filter_ne s.queueE (data % 2 ^ s.cfg.w)
  rw [length_queueE, ← hremoved] at hcount
  rw [← hqueue] at htail hother
  refine ⟨_, exec_eqRemove data (h.ready hs), frameE_update .., rfl, hqueue, ?_, htail, hother⟩
  rw [answered, ← hcount]
  rfl

/-! ## No zero on consume, and CLEAR (R125, R133, R198) -/

/-- The effects of POP, POPA and CLEAR write no record. -/
theorem exec_effect_eqm (hi : i = .eqPop ∨ i = .eqPopa ∨ i = .eqClear) :
    ∃ f, (∀ s, exec i s = perform s f) ∧ ∀ s : State, (f s).eqm = s.eqm := by
  rcases hi with rfl | rfl | rfl
  · exact ⟨_, fun _ => rfl, fun s => by split <;> rfl⟩
  · exact ⟨_, fun _ => rfl, fun s => by split <;> rfl⟩
  · exact ⟨_, fun _ => rfl, fun _ => rfl⟩

/-- Settles O42: the slots that REMOVE vacates are none of the survivors', whose offsets are below the new size. -/
theorem elementQueueClearsNoVacatedRecord : Obligations.ElementQueueClearsNoVacatedRecord := by
  refine fun s t h => ⟨fun i hi hx => ?_, fun data hx j hvacated hj => ?_⟩
  · obtain ⟨f, hf, heqm⟩ := exec_effect_eqm hi
    obtain ⟨-, -, rfl⟩ | ⟨-, rfl⟩ := perform_cases (hf s ▸ hx)
    · rfl
    · exact heqm s
  · obtain ⟨-, -, rfl⟩ | ⟨-, hs, -⟩ := exec_cases hx
    · rfl
    obtain ⟨u, hu, -, -, -, -, -, hother⟩ := eqRemoveKeepsTheOtherRecordsInOrder s data h hs
    obtain rfl : t = u := by simpa [hx] using hu
    refine hother _ fun k hk heq => ?_
    rw [length_queueE] at hk
    have hsize := sizeE_lt s
    have hjk : j = k := adv_inj h.headE (hj.trans hsize) (by omega) heq
    omega

/-- Settles O41: each CLEAR is two register writes and the response. -/
theorem clearEmptiesItsUnitAlone : Obligations.ClearEmptiesItsUnitAlone := fun _ h => ⟨exec_eqClear h, exec_bqClear h⟩

end Sys2Proof.Machine

/-! PROOFS. The family of spec/41_bit_queue.md: the chunks of a transfer (R185), what each Bit Queue command answers, writes and leaves
alone (R191 to R197), zero on consume (R199), and the FIFO laws (R200).

A command's next state is its equation of `exec_bqPush8` to `exec_bqGet`, its branch chosen by the hypotheses. PUSH8 and PUSHM, and
their forced forms, are one push call (`PushCall`), so each claim about the four is proved for two. -/

namespace Sys2Proof.Machine

variable {s t u : State} {i : Instr}

/-! ## The chunks of a transfer (R181, R185) -/

section chunks
variable {P fuel p rem : Nat}

/-- A chunk that does not finish the transfer ends at the end of its byte or at the wrap. -/
theorem chunkLen_of_lt_rem (hlt : chunkLen P p rem < rem) :
    chunkLen P p rem = 8 - p % 8 ∨ chunkLen P p rem = P - p := by
  simp only [chunkLen] at *
  omega

/-- So the chunk after it starts a byte. -/
theorem adv_chunkLen_mod_eight (hp : p < P) (hlt : chunkLen P p rem < rem) : adv P p (chunkLen P p rem) % 8 = 0 := by
  have hend := chunkLen_of_lt_rem hlt
  rcases Nat.lt_or_eq_of_le (chunkLen_before_wrap hp (rem := rem)) with hin | hwrap
  · rw [adv_of_lt hin]
    omega
  · rw [adv, hwrap, Nat.mod_self]

/-- Induction over the chunks of a transfer: none, the last one, or one and the chunks of the rest. -/
theorem chunksFrom_induction {motive : Nat → Nat → List (Nat × Nat) → Prop} (nil : ∀ p, p < P → motive p 0 [])
    (last : ∀ p rem, p < P → 0 < rem → chunkLen P p rem = rem → motive p rem [(p, rem)])
    (cons : ∀ p rem cs, p < P → chunkLen P p rem < rem →
      motive (adv P p (chunkLen P p rem)) (rem - chunkLen P p rem) cs → motive p rem ((p, chunkLen P p rem) :: cs))
    (hp : p < P) (hf : rem ≤ fuel) : motive p rem (chunksFrom P fuel p rem) := by
  induction fuel generalizing p rem with
  | zero =>
    obtain rfl := Nat.le_zero.1 hf
    exact nil p hp
  | succ fuel ih =>
    rcases Nat.eq_zero_or_pos rem with rfl | hr
    · exact nil p hp
    · have hpos := chunkLen_pos hp hr
      rw [chunksFrom, if_neg hr.ne']
      rcases Nat.lt_or_eq_of_le (chunkLen_le_rem (P := P) (p := p) (rem := rem)) with hlt | heq
      · exact cons p rem _ hp hlt (ih (adv_lt (by omega)) (by omega))
      · have hnil : ∀ q, chunksFrom P fuel q 0 = [] := by cases fuel <;> simp [chunksFrom]
        rw [heq, Nat.sub_self, hnil]
        exact last p rem hp hr heq

theorem chunkLen_bounds (hp : p < P) (hr : 0 < rem) : 1 ≤ chunkLen P p rem ∧ chunkLen P p rem ≤ 8 ∧
    p % 8 + chunkLen P p rem ≤ 8 ∧ p + chunkLen P p rem ≤ P := by
  have hbyte := chunkLen_in_byte (P := P) (p := p) (rem := rem)
  exact ⟨chunkLen_pos hp hr, by omega, hbyte, chunkLen_before_wrap hp⟩

theorem chunksFrom_bounds (hp : p < P) (hf : rem ≤ fuel) : ∀ x ∈ chunksFrom P fuel p rem,
    1 ≤ x.2 ∧ x.2 ≤ 8 ∧ x.1 % 8 + x.2 ≤ 8 ∧ x.1 + x.2 ≤ P := by
  refine chunksFrom_induction (motive := fun _ _ cs => ∀ x ∈ cs, 1 ≤ x.2 ∧ x.2 ≤ 8 ∧ x.1 % 8 + x.2 ≤ 8 ∧ x.1 + x.2 ≤ P)
    (fun _ _ => by simp) (fun p rem hp hr heq => ?_) (fun p rem cs hp hlt ih => ?_) hp hf
  · have := chunkLen_bounds hp hr
    rw [heq] at this
    simpa using this
  · exact List.forall_mem_cons.2 ⟨chunkLen_bounds hp (Nat.zero_lt_of_lt hlt), ih⟩

theorem chunksFrom_sum (hp : p < P) (hf : rem ≤ fuel) : ((chunksFrom P fuel p rem).map Prod.snd).sum = rem := by
  refine chunksFrom_induction (motive := fun _ rem cs => (cs.map Prod.snd).sum = rem) (fun _ _ => rfl)
    (fun p rem _ _ _ => List.sum_singleton) (fun p rem cs hp hlt ih => ?_) hp hf
  rw [List.map_cons, List.sum_cons, ih]
  exact Nat.add_sub_cancel' hlt.le

/-- Each chunk starts where the ones before it end. -/
theorem chunksFrom_start (hp : p < P) (hf : rem ≤ fuel) : ∀ j x, (chunksFrom P fuel p rem)[j]? = some x →
    x.1 = adv P p (((chunksFrom P fuel p rem).map Prod.snd).take j).sum := by
  refine chunksFrom_induction
    (motive := fun p _ cs => ∀ j x, cs[j]? = some x → x.1 = adv P p ((cs.map Prod.snd).take j).sum)
    (fun _ _ => by simp) (fun p rem hp _ _ j x hx => ?_) (fun p rem cs hp _ ih j x hx => ?_) hp hf
  · obtain ⟨rfl, rfl⟩ : j = 0 ∧ (p, rem) = x := by simpa [List.getElem?_singleton] using hx
    exact (adv_zero hp).symm
  · cases j with
    | zero =>
      obtain rfl : (p, chunkLen P p rem) = x := by simpa using hx
      exact (adv_zero hp).symm
    | succ j => simpa [adv_adv] using ih j x hx

/-- A chunk shorter than 8 bits is the first and starts inside a byte, or ends at the wrap, or is the last. -/
theorem chunksFrom_short (hp : p < P) (hf : rem ≤ fuel) : ∀ j x, (chunksFrom P fuel p rem)[j]? = some x → x.2 < 8 →
    (j = 0 ∧ p % 8 ≠ 0) ∨ x.1 + x.2 = P ∨ j + 1 = (chunksFrom P fuel p rem).length := by
  refine chunksFrom_induction (motive := fun p _ cs => ∀ j x, cs[j]? = some x → x.2 < 8 →
      (j = 0 ∧ p % 8 ≠ 0) ∨ x.1 + x.2 = P ∨ j + 1 = cs.length)
    (fun _ _ => by simp) (fun p rem hp _ _ j x hx _ => ?_) (fun p rem cs hp hlt ih j x hx hshort => ?_) hp hf
  · obtain ⟨rfl, -⟩ : j = 0 ∧ (p, rem) = x := by simpa [List.getElem?_singleton] using hx
    exact .inr (.inr rfl)
  · cases j with
    | zero =>
      obtain rfl : (p, chunkLen P p rem) = x := by simpa using hx
      have hend := chunkLen_of_lt_rem hlt
      dsimp only at *
      omega
    | succ j =>
      have hbyte := adv_chunkLen_mod_eight hp hlt
      have := ih j x hx hshort
      rw [List.length_cons]
      omega

/-- Each byte touched takes one chunk, and the byte at the wrap one more. -/
theorem length_chunksFrom (hp : p < P) (hf : rem ≤ fuel) :
    rem ≤ P → 8 * (chunksFrom P fuel p rem).length ≤ p % 8 + rem + 7 + if P < p + rem then 7 else 0 := by
  refine chunksFrom_induction
    (motive := fun p rem cs => rem ≤ P → 8 * cs.length ≤ p % 8 + rem + 7 + if P < p + rem then 7 else 0)
    (fun _ _ => by simp) (fun p rem hp hr _ _ => ?_) (fun p rem cs hp hlt ih hle => ?_) hp hf
  · rw [List.length_singleton]
    omega
  · obtain ⟨hpos, -, -, hwrap⟩ := chunkLen_bounds hp (Nat.zero_lt_of_lt hlt)
    have hend := chunkLen_of_lt_rem hlt
    have ih := ih (by omega)
    rw [adv_chunkLen_mod_eight hp hlt, adv_eq hp (by omega)] at ih
    rw [List.length_cons]
    split_ifs at ih ⊢ <;> omega

end chunks

/-- Settles O49: the chunks one by one, each bounded by the rest, its byte and the wrap. -/
theorem chunksStayInsideBytesAndTheRing : Obligations.ChunksStayInsideBytesAndTheRing := by
  intro P p0 n hp hn
  refine ⟨chunksFrom_bounds hp le_rfl, chunksFrom_sum hp le_rfl, fun j x hx => ⟨chunksFrom_start hp le_rfl j x hx,
    fun hshort => (chunksFrom_short hp le_rfl j x hx hshort).imp_left And.left⟩, ?_⟩
  have hlen : 8 * (chunks P p0 n).length ≤ _ := length_chunksFrom hp le_rfl hn.le
  split at hlen <;> omega

/-! ## Push calls (R191 to R194) -/

/-- The data byte's low bits are those of the DATA operand (R92). -/
theorem byteBits_eq {n : Nat} (hn : n ≤ 8) (data : Nat) : byteBits data n = (List.range n).map data.testBit := by
  refine List.map_congr_left fun j hj => ?_
  have hj : j < 8 := (List.mem_range.1 hj).trans_le hn
  rw [byteOperand, BitVec.getLsbD_ofNat, decide_eq_true hj, Bool.true_and]

/-- CNT of a push call. -/
def PushCall.cnt : PushCall → BitVec 32
  | .byte _ cnt => cnt
  | .source cnt _ => cnt

/-- The forced form of a push call (R193, R194). -/
def PushCall.forced : PushCall → Instr
  | .byte data cnt => .bqFpush8 data cnt
  | .source cnt addr => .bqFpushm cnt addr

@[simp] theorem PushCall.length_bits (p : PushCall) (hm : Memory Byte) : (p.bits hm).length = p.cnt.toNat := by
  cases p with
  | byte data cnt => exact length_lowBits ..
  | source cnt addr => exact length_hmReadBits

/-- A legal push call with room pushes its bits (R191, R192). -/
theorem exec_push (h : s.ready) {p : PushCall} (hp : p.legal s.cfg) (hroom : p.cnt.toNat ≤ s.availB) :
    exec p.instr s = .next ((s.pushGroups (p.bits s.hm)).respond true 0 0) := by
  cases p with
  | byte data cnt =>
    have h8 : ¬ 8 < cnt.toNat := Nat.not_lt.2 hp
    have hfit : ¬ s.availB < cnt.toNat := Nat.not_lt.2 hroom
    rw [PushCall.instr, exec_bqPush8 data cnt h, if_neg h8, if_neg hfit]
    rfl
  | source cnt addr =>
    have hfit : ¬ s.availB < cnt.toNat := Nat.not_lt.2 hroom
    rw [PushCall.instr, exec_bqPushm cnt addr h, if_neg hfit, if_pos hp]
    rfl

/-- A legal forced push is performed, with room or without (R193, R194). -/
theorem exec_forced (h : s.ready) {p : PushCall} (hp : p.legal s.cfg) :
    exec p.forced s = .next (s.forcePush (p.bits s.hm)) := by
  cases p with
  | byte data cnt =>
    have h8 : ¬ 8 < cnt.toNat := Nat.not_lt.2 hp
    rw [PushCall.forced, exec_bqFpush8 data cnt h, if_neg h8]
    rfl
  | source cnt addr =>
    rw [PushCall.forced, exec_bqFpushm cnt addr h, if_pos hp]
    rfl

/-- A region that is not empty and ends past HM is out of range (R65). -/
theorem not_hmInRange {c : Config} {A n : Nat} (hn : 0 < n) (h : c.hmSize < A + (n + 7) / 8) :
    ¬ hmInRange c A n = true := fun hr =>
  (hmInRange_iff.1 hr).elim hn.ne' (Nat.not_le.2 h)

/-- A push of at most 8 bits of a byte, or of a source in range, is a legal push call (R191 to R194). -/
theorem exists_pushCall {form : PushCall → Instr} {c : Config} {hm : Memory Byte} {cnt : BitVec 32} {bits : BitString}
    (hi : (∃ data, i = form (.byte data cnt) ∧ cnt.toNat ≤ 8 ∧ bits = (List.range cnt.toNat).map data.testBit) ∨
      (∃ addr, i = form (.source cnt addr) ∧ (cnt.toNat = 0 ∨ addr + (cnt.toNat + 7) / 8 ≤ c.hmSize) ∧
        bits = hmReadBits addr cnt.toNat hm)) :
    ∃ p : PushCall, p.legal c ∧ i = form p ∧ p.cnt = cnt ∧ bits = p.bits hm := by
  rcases hi with ⟨data, rfl, h8, rfl⟩ | ⟨addr, rfl, hr, rfl⟩
  · exact ⟨.byte data cnt, h8, rfl, rfl, (byteBits_eq h8 data).symm⟩
  · exact ⟨.source cnt addr, hmInRange_iff.2 hr, rfl, rfl, rfl⟩

/-! ## Which bits of the store change (R188 to R190) -/

/-- Eviction, by the positions it vacates. -/
theorem State.Inv.bitAt_evict (h : s.Inv) {k : Nat} (hk : k ≤ s.sizeB) (q : Nat) : bitAt (s.evict k).bqm q =
    if s.cfg.zoc = true ∧ touches s.cfg s.headB k q then false else bitAt s.bqm q := by
  simp only [Machine.bitAt_evict h.headB (hk.trans_lt (sizeB_lt s)) h.bqm.1, touches_iff h.headB (hk.trans (sizeB_le s))]

/-- Without zero on consume an eviction writes nothing (R188). -/
theorem evict_bqm_of_not_zoc (hz : s.cfg.zoc = false) (k : Nat) : (s.evict k).bqm = s.bqm := by
  rw [State.evict_bqm, if_neg (ne_true_of_eq_false hz)]

/-- A push, by the positions it writes: position `adv TAIL_B j` receives bit `j`, and no other position changes. -/
theorem State.Inv.bitAt_pushGroups (h : s.Inv) {bits : BitString} (hl : bits.length ≤ s.cfg.cB) (q : Nat) :
    (¬ touches s.cfg s.tailB bits.length q → bitAt (s.pushGroups bits).bqm q = bitAt s.bqm q) ∧
    (touches s.cfg s.tailB bits.length q →
      ∃ j, q = adv s.cfg.pB s.tailB j ∧ bits[j]? = some (bitAt (s.pushGroups bits).bqm q)) := by
  rw [touches_iff h.tailB hl, Machine.bitAt_pushGroups h hl]
  refine ⟨fun hq => if_neg hq, fun hq => ⟨_, (adv_ringSize h.tailB hq.1).symm, ?_⟩⟩
  rw [if_pos hq, List.getD_eq_getElem?_getD, List.getElem?_eq_getElem hq.2]
  rfl

theorem tailB_pushGroups (h : s.Inv) {bits : BitString} (hl : bits.length ≤ s.cfg.cB) :
    (s.pushGroups bits).tailB = adv s.cfg.pB s.tailB bits.length := by
  rw [pushGroups_eq h.tailB (Nat.lt_succ_of_le hl) h.bqm]
  rfl

theorem evict_zero (h : s.Inv) : s.evict 0 = s := by
  have h0 : bitZero s.cfg.pB s.headB 0 s.bqm = s.bqm := rfl
  have hhead := adv_zero h.headB
  simp only [State.evict, h0, hhead, State.setBqm, State.setHeadB, ite_self]

/-- A forced push is an eviction (of none, when there is room) and a push of the bits kept (R190). -/
theorem forcePush_eq (h : s.Inv) (bits : BitString) : s.forcePush bits =
    ((s.evict (s.evictedBy bits.length)).pushGroups (keptBits s.cfg bits)).respond true 0 (s.evictedBy bits.length) := by
  rw [State.forcePush]
  split
  · rfl
  · rename_i hroom
    rw [State.evictedBy, if_neg hroom, evict_zero h]

theorem length_keptBits_le (c : Config) (bits : BitString) : (keptBits c bits).length ≤ c.cB :=
  (length_keptBits c bits).trans_le (Nat.min_le_right _ _)

theorem keptBits_of_le {c : Config} {bits : BitString} (hl : bits.length ≤ c.cB) : keptBits c bits = bits :=
  if_neg (Nat.not_lt.2 hl)

/-- The registers after a forced push, and which bits of the store it changes (R190). -/
theorem forcePush_spec (h : s.Inv) (bits : BitString) :
    (s.forcePush bits).headB = adv s.cfg.pB s.headB (s.evictedBy bits.length) ∧
    (s.forcePush bits).tailB = adv s.cfg.pB s.tailB (min bits.length s.cfg.cB) ∧
    ∀ q, (¬ touches s.cfg s.tailB (min bits.length s.cfg.cB) q → bitAt (s.forcePush bits).bqm q =
        if s.cfg.zoc = true ∧ touches s.cfg s.headB (s.evictedBy bits.length) q then false else bitAt s.bqm q) ∧
      (touches s.cfg s.tailB (min bits.length s.cfg.cB) q → ∃ j, q = adv s.cfg.pB s.tailB j ∧
        (keptBits s.cfg bits)[j]? = some (bitAt (s.forcePush bits).bqm q)) := by
  have hev := h.evict (s.evictedBy bits.length)
  have hkept : (keptBits s.cfg bits).length ≤ (s.evict (s.evictedBy bits.length)).cfg.cB := by
    rw [State.evict_cfg]
    exact length_keptBits_le ..
  have htail := tailB_pushGroups hev hkept
  have hbits := hev.bitAt_pushGroups hkept
  simp only [State.evict_cfg, State.evict_tailB, length_keptBits, h.bitAt_evict (evictedBy_le s _)] at htail hbits
  rw [forcePush_eq h]
  exact ⟨by simp, htail, hbits⟩

/-! ## PUSH8, PUSHM, FPUSH8 and FPUSHM (R191 to R194) -/

/-- Settles O43: with room, the legal push call appends its bits (`queueB_pushGroups`). -/
theorem bqPushAppendsTheBits : Obligations.BqPushAppendsTheBits := by
  intro s cnt h hs
  have hready := h.ready hs
  refine ⟨fun i bits hi hroom => ?_, fun data h8 => ?_, fun addr hroom hpos hrange => ?_, fun data h8 hroom => ?_,
    fun addr hroom => ?_⟩
  · obtain ⟨p, hp, rfl, rfl, rfl⟩ := exists_pushCall (form := PushCall.instr) hi
    have hfit : (p.bits s.hm).length ≤ s.availB := p.length_bits s.hm ▸ hroom
    have hcap := hfit.trans (Nat.sub_le s.cfg.cB s.sizeB)
    obtain ⟨hframe, hhead, hhm, hresponses⟩ := pushLoop_frame _ (p.bits s.hm) s
    refine ⟨_, exec_push hready hp hroom, congrArg (· ++ _) hresponses, hframe, hhm, hhead,
      (tailB_pushGroups h hcap).trans ?_, queueB_pushGroups h hfit, fun q hq => ?_⟩
    · rw [p.length_bits]
      rfl
    · exact (h.bitAt_pushGroups hcap q).1 (p.length_bits s.hm ▸ hq)
  · rw [exec_bqPush8 data cnt hready, if_pos h8]
  · rw [exec_bqPushm cnt addr hready, if_neg (Nat.not_lt.2 hroom), if_neg (not_hmInRange hpos hrange)]
  · rw [exec_bqPush8 data cnt hready, if_neg (Nat.not_lt.2 h8), if_pos hroom]
  · rw [exec_bqPushm cnt addr hready, if_pos hroom]

/-- Settles O44: the legal forced push, whose content is `queueB_forcePush`. -/
theorem bqForcePushKeepsTheNewestBits : Obligations.BqForcePushKeepsTheNewestBits := by
  intro s cnt h hs
  have hready := h.ready hs
  refine ⟨fun i bits hi => ?_, fun data h8 => ?_, fun addr hpos hrange => ?_⟩
  · obtain ⟨p, hp, rfl, rfl, rfl⟩ := exists_pushCall (form := PushCall.forced) hi
    obtain ⟨hframe, hhm, hanswer⟩ := forcePush_frame s (p.bits s.hm)
    obtain ⟨hhead, htail, hbits⟩ := forcePush_spec h (p.bits s.hm)
    have hcontent := queueB_forcePush h (p.bits s.hm)
    rw [p.length_bits] at hanswer hhead htail hbits hcontent
    exact ⟨_, _, exec_forced hready hp, evictedBy_eq s p.cnt.toNat, hanswer, hframe, hhm, hhead, htail, hcontent,
      fun q => (hbits q).1⟩
  · rw [exec_bqFpush8 data cnt hready, if_pos h8]
  · rw [exec_bqFpushm cnt addr hready, if_neg (not_hmInRange hpos hrange)]

/-! ## DROP, POP and GET (R195 to R197) -/

/-- Discarding `CNT` bits discards what is queued of them (R195, R196). -/
theorem drop_min_sizeB (s : State) (n : Nat) : s.queueB.drop (min n s.sizeB) = s.queueB.drop n := by
  rcases Nat.le_total n s.sizeB with hle | hle
  · rw [Nat.min_eq_left hle]
  · rw [Nat.min_eq_right hle, List.drop_of_length_le (length_queueB s).le,
      List.drop_of_length_le ((length_queueB s).trans_le hle)]

/-- Settles O45: the eviction of what is queued of the CNT bits. -/
theorem bqDropDiscardsTheOldestBits : Obligations.BqDropDiscardsTheOldestBits := by
  intro s cnt h hs
  have hle : min cnt.toNat s.sizeB ≤ s.sizeB := Nat.min_le_right ..
  obtain ⟨hframe, htail, hhm, hresponses⟩ := evict_frame s (min cnt.toNat s.sizeB)
  exact ⟨_, exec_bqDrop cnt (h.ready hs), congrArg (· ++ _) hresponses, hframe, hhm, rfl, htail,
    (queueB_evict h hle).trans (drop_min_sizeB s cnt.toNat), fun hz => evict_bqm_of_not_zoc hz _, h.bitAt_evict hle⟩

/-- A transfer to HM sets the bits of its region and no other (R187). -/
theorem bitAt_copyOut_hm (h : s.Inv) (off : Nat) {n A q : Nat} (hq : ¬ (8 * A ≤ q ∧ q < 8 * A + n)) :
    bitAt (s.copyOut off n A).hm q = bitAt s.hm q := by
  rw [State.copyOut_hm, bitAt_hmWriteBits h.hm.1, length_bitRead_posB h.indexesLegal, if_neg hq]

/-- What is copied out and then evicted are the oldest bits, and the rest stays queued (R196, R200 (b)). -/
theorem queueB_copyOut_evict (h : s.Inv) {k A : Nat} (hk : k ≤ s.sizeB) (hr : hmInRange s.cfg A k = true) :
    s.queueB = hmReadBits A k ((s.copyOut 0 k A).evict k).hm ++ ((s.copyOut 0 k A).evict k).queueB := by
  have hcopied := hmReadBits_copyOut (A := A) h ((Nat.zero_add k).trans_le hk)
  have hkept : (s.copyOut 0 k A).queueB = s.queueB := queueB_congr rfl rfl rfl rfl
  rw [State.evict_hm, hcopied, queueB_evict (h.copyOut hr) hk, hkept, List.drop_zero, List.take_append_drop]

/-- A pop in range copies the oldest bits out, then evicts them (R196). -/
theorem exec_bqPop_of_hmInRange (h : s.ready) {cnt : BitVec 32} {addr : Nat}
    (hr : hmInRange s.cfg addr (min cnt.toNat s.sizeB) = true) : exec (.bqPop cnt addr) s =
      .next (((s.copyOut 0 (min cnt.toNat s.sizeB) addr).evict (min cnt.toNat s.sizeB)).respond
        true 0 (min cnt.toNat s.sizeB)) := by
  rw [exec_bqPop cnt addr h, if_pos hr]

/-- Settles O46: the oldest bits are copied out, then evicted. -/
theorem bqPopMovesTheOldestBitsToHostMemory : Obligations.BqPopMovesTheOldestBitsToHostMemory := by
  intro s cnt addr h hs
  refine ⟨fun hrange => ?_, fun hpos hrange => ?_⟩
  · have hr := hmInRange_iff.2 hrange
    rw [exec_bqPop_of_hmInRange (h.ready hs) hr]
    generalize hk : min cnt.toNat s.sizeB = k at *
    have hle : k ≤ s.sizeB := by omega
    have hcopy := h.copyOut (off := 0) hr
    obtain ⟨hframe, htail, hhm, hresponses⟩ := evict_frame (s.copyOut 0 k addr) k
    refine ⟨_, rfl, congrArg (· ++ _) hresponses, hframe, rfl, htail, ?_, fun q hq => ?_, hcopy.bitAt_evict hle⟩
    · exact queueB_copyOut_evict h hle hr
    · rw [State.respond_hm, hhm, bitAt_copyOut_hm h 0 hq]
  · rw [exec_bqPop cnt addr (h.ready hs), if_neg (not_hmInRange hpos hrange)]

/-- Settles O47: the queued bits are copied out, and no register or stored bit changes. -/
theorem bqGetCopiesQueuedBits : Obligations.BqGetCopiesQueuedBits := by
  intro s idx cnt addr h hs
  rw [exec_bqGet idx cnt addr (h.ready hs)]
  refine ⟨fun hfew => by rw [if_pos hfew], fun hqueued hpos hrange => ?_, fun hqueued hrange => ?_⟩
  · rw [if_neg (Nat.not_lt.2 hqueued), if_neg (not_hmInRange hpos hrange)]
  · rw [if_neg (Nat.not_lt.2 hqueued), if_pos (hmInRange_iff.2 hrange)]
    exact ⟨_, rfl, rfl, ⟨⟨rfl, rfl, rfl, rfl, rfl, rfl⟩, rfl, rfl⟩, rfl, rfl, rfl, hmReadBits_copyOut h hqueued,
      fun q hq => bitAt_copyOut_hm h _ hq⟩

/-! ## Zero on consume (R199) -/

/-- What every effect of a command does, and the answer of a faulted block does too, the command does. -/
theorem exec_of_effect {Q : State → State → Prop} (hf : ∃ f, (∀ s, exec i s = perform s f) ∧ ∀ s : State, s.Inv → Q s (f s))
    (ha : Q s s.answerFaulted) (h : s.Inv) (hx : exec i s = .next t) : Q s t := by
  obtain ⟨f, hexec, hQ⟩ := hf
  obtain ⟨-, -, rfl⟩ | ⟨-, rfl⟩ := perform_cases (hexec s ▸ hx)
  · exact ha
  · exact hQ s h

/-- The effects of CLEAR and GET do not write the store. -/
theorem exec_effect_bqm (hi : i = .bqClear ∨ ∃ idx cnt addr, i = .bqGet idx cnt addr) :
    ∃ f, (∀ s, exec i s = perform s f) ∧ ∀ s : State, s.Inv → (f s).bqm = s.bqm := by
  rcases hi with rfl | ⟨idx, cnt, addr, rfl⟩
  · exact ⟨_, fun _ => rfl, fun _ _ => rfl⟩
  · exact ⟨_, fun _ => rfl, fun s _ => by split_ifs <;> rfl⟩

/-- From `s` to `t` the positions vacated at the head are cleared under zero on consume, and nothing is written without it. -/
def zeroesVacated (s t : State) : Prop :=
  (s.cfg.zoc = false → t.bqm = s.bqm) ∧
    (s.cfg.zoc = true → ∀ q, touches s.cfg s.headB (s.sizeB - t.sizeB) q → bitAt t.bqm q = false)

/-- Where nothing is written and nothing vacated, there is nothing to clear. -/
theorem zeroesVacated_of_unchanged (hbqm : t.bqm = s.bqm) (hsize : t.sizeB = s.sizeB) : zeroesVacated s t :=
  ⟨fun _ => hbqm, fun _ q ⟨j, hj, _⟩ => by omega⟩

theorem zeroesVacated_evict (h : s.Inv) {k : Nat} (hk : k ≤ s.sizeB) : zeroesVacated s (s.evict k) := by
  refine ⟨fun hz => evict_bqm_of_not_zoc hz k, fun hz q hq => ?_⟩
  rw [sizeB_evict h hk, Nat.sub_sub_self hk] at hq
  rw [h.bitAt_evict hk, if_pos ⟨hz, hq⟩]

/-- The effects of DROP and POP clear what they vacate. -/
theorem exec_effect_zeroesVacated (hi : ∃ cnt, i = .bqDrop cnt ∨ ∃ addr, i = .bqPop cnt addr) :
    ∃ f, (∀ s, exec i s = perform s f) ∧ ∀ s : State, s.Inv → zeroesVacated s (f s) := by
  obtain ⟨cnt, rfl | ⟨addr, rfl⟩⟩ := hi
  · exact ⟨_, fun _ => rfl, fun s h => zeroesVacated_evict h (Nat.min_le_right ..)⟩
  · exact ⟨_, fun _ => rfl, fun s h => iteInduction (fun hr => zeroesVacated_evict (h.copyOut hr) (Nat.min_le_right ..))
      fun _ => zeroesVacated_of_unchanged rfl rfl⟩

/-- From `s` to `t` a bit of the store is cleared only as one of the `evicted` vacated at the head under zero on consume, or as a 0
of the bits `pushed` at the tail. -/
def clearsOnly (evicted : Nat) (pushed : BitString) (s t : State) : Prop := ∀ q, bitAt s.bqm q = true → bitAt t.bqm q = false →
  (s.cfg.zoc = true ∧ touches s.cfg s.headB evicted q) ∨ ∃ j, q = adv s.cfg.pB s.tailB j ∧ pushed[j]? = some false

theorem clearsOnly_of_bqm {k : Nat} {bits : BitString} (h : t.bqm = s.bqm) : clearsOnly k bits s t := fun q h1 h0 =>
  absurd (h1.symm.trans (h ▸ h0)) (by decide)

theorem clearsOnly_evict (h : s.Inv) {k : Nat} (hk : k ≤ s.sizeB) (bits : BitString) : clearsOnly k bits s (s.evict k) := by
  intro q h1 h0
  rw [h.bitAt_evict hk] at h0
  split at h0
  · exact .inl ‹_›
  · simp [h1] at h0

theorem pushedBits_instr (s : State) (p : PushCall) : s.pushedBits p.instr = p.bits s.hm := by cases p <;> rfl

theorem pushedBits_forced (s : State) (p : PushCall) : s.pushedBits p.forced = p.bits s.hm := by cases p <;> rfl

theorem evictedBits_instr (s : State) (p : PushCall) : s.evictedBits p.instr = 0 := by cases p <;> rfl

theorem evictedBits_forced (s : State) (p : PushCall) : s.evictedBits p.forced = s.evictedBy (p.bits s.hm).length := by
  rw [evictedBy_eq, p.length_bits]
  cases p <;> rfl

theorem clearsOnly_push (h : s.Inv) (p : PushCall) (hroom : ¬ s.availB < p.cnt.toNat) :
    clearsOnly (s.evictedBits p.instr) (keptBits s.cfg (s.pushedBits p.instr)) s
      ((s.pushGroups (p.bits s.hm)).respond true 0 0) := by
  have hcap : (p.bits s.hm).length ≤ s.cfg.cB := by
    rw [p.length_bits]
    exact (Nat.not_lt.1 hroom).trans (Nat.sub_le ..)
  rw [pushedBits_instr, keptBits_of_le hcap]
  intro q h1 h0
  obtain ⟨hother, hhere⟩ := h.bitAt_pushGroups hcap q
  rw [State.respond_bqm] at h0
  rw [h0] at hother hhere
  by_cases hq : touches s.cfg s.tailB (p.bits s.hm).length q
  · exact .inr (hhere hq)
  · exact absurd (hother hq) (by simp [h1])

theorem clearsOnly_forced (h : s.Inv) (p : PushCall) :
    clearsOnly (s.evictedBits p.forced) (keptBits s.cfg (s.pushedBits p.forced)) s (s.forcePush (p.bits s.hm)) := by
  rw [pushedBits_forced, evictedBits_forced]
  intro q h1 h0
  obtain ⟨-, -, hbits⟩ := forcePush_spec h (p.bits s.hm)
  obtain ⟨hother, hhere⟩ := hbits q
  rw [h0] at hother hhere
  by_cases hq : touches s.cfg s.tailB (min (p.bits s.hm).length s.cfg.cB) q
  · exact .inr (hhere hq)
  · have := hother hq
    split at this
    · exact .inl ‹_›
    · simp [h1] at this

/-- The effect of a Bit Queue command clears only what it evicts and what it pushes as a 0. -/
theorem exec_effect_clearsOnly (hi : i.opcode.getLsbD 4 = true) : ∃ f, (∀ s, exec i s = perform s f) ∧
    ∀ s : State, s.Inv → clearsOnly (s.evictedBits i) (keptBits s.cfg (s.pushedBits i)) s (f s) := by
  cases i with
  | bqPush8 data cnt =>
    exact ⟨_, fun _ => rfl, fun s h => iteInduction (fun _ => clearsOnly_of_bqm rfl) fun _ =>
      iteInduction (fun _ => clearsOnly_of_bqm rfl) (clearsOnly_push h (.byte data cnt))⟩
  | bqPushm cnt addr =>
    exact ⟨_, fun _ => rfl, fun s h => iteInduction (fun _ => clearsOnly_of_bqm rfl) fun hroom =>
      iteInduction (fun _ => clearsOnly_push h (.source cnt addr) hroom) fun _ => clearsOnly_of_bqm rfl⟩
  | bqFpush8 data cnt =>
    exact ⟨_, fun _ => rfl, fun s h =>
      iteInduction (fun _ => clearsOnly_of_bqm rfl) fun _ => clearsOnly_forced h (.byte data cnt)⟩
  | bqFpushm cnt addr =>
    exact ⟨_, fun _ => rfl, fun s h =>
      iteInduction (fun _ => clearsOnly_forced h (.source cnt addr)) fun _ => clearsOnly_of_bqm rfl⟩
  | bqDrop cnt => exact ⟨_, fun _ => rfl, fun s h => clearsOnly_evict h (Nat.min_le_right ..) _⟩
  | bqPop cnt addr =>
    exact ⟨_, fun _ => rfl, fun s h => iteInduction (fun hr => clearsOnly_evict (h.copyOut hr) (Nat.min_le_right ..) _)
      fun _ => clearsOnly_of_bqm rfl⟩
  | bqGet idx cnt addr =>
    exact ⟨_, fun _ => rfl, fun s _ => iteInduction (fun _ => clearsOnly_of_bqm rfl) fun _ =>
      iteInduction (fun _ => clearsOnly_of_bqm rfl) fun _ => clearsOnly_of_bqm rfl⟩
  | bqClear | bqCap | bqSize | bqAvail | bqEmpty | bqFull => exact ⟨_, fun _ => rfl, fun s _ => clearsOnly_of_bqm rfl⟩
  | eqPush | eqPop | eqPopa | eqPeek | eqClear | eqRemove | eqGet | eqSet | eqFront | eqBack | eqFind | eqCap | eqSize
  | eqAvail | eqEmpty | eqFull => simp [Instr.opcode] at hi

/-- An Element Queue command leaves the Bit Queue alone (R12). -/
theorem exec_queueB_registers (h : s.Inv) (hi : i.opcode.getLsbD 4 = false) (hx : exec i s = .next t) :
    t.cfg = s.cfg ∧ t.headB = s.headB ∧ t.tailB = s.tailB ∧ t.bqm = s.bqm := by
  obtain ⟨hE, -⟩ := unitsShareOnlyTheFaultState s s t i h.indexesLegal h.indexesLegal hx
  obtain ⟨⟨hcfg, hhead, htail, hbqm, -⟩, -⟩ := hE hi
  exact ⟨hcfg, hhead, htail, hbqm⟩

/-- Settles O48: each claim is one about the command's effect, and the answer of a faulted block writes nothing. -/
theorem onlyEvictionAndPushedZerosClearBits : Obligations.OnlyEvictionAndPushedZerosClearBits := by
  intro s t i h hx
  refine ⟨fun hi => exec_of_effect (Q := fun s t => t.bqm = s.bqm) (exec_effect_bqm hi) rfl h hx,
    fun hi => exec_of_effect (exec_effect_zeroesVacated hi) (zeroesVacated_of_unchanged rfl rfl) h hx, ?_⟩
  cases hi : i.opcode.getLsbD 4 with
  | false =>
    obtain ⟨-, -, -, hbqm⟩ := exec_queueB_registers h hi hx
    exact clearsOnly_of_bqm hbqm
  | true =>
    exact exec_of_effect (Q := fun s t => clearsOnly (s.evictedBits i) (keptBits s.cfg (s.pushedBits i)) s t)
      (exec_effect_clearsOnly hi) (clearsOnly_of_bqm rfl) h hx

/-! ## Chunking independence (R200 (f)) -/

theorem runCommands_append (is js : List Instr) (s : State) :
    runCommands (is ++ js) s = (runCommands is s).bind (runCommands js) := by
  induction is generalizing s with
  | nil => rfl
  | cons i is ih =>
    simp only [List.cons_append, runCommands]
    split
    · exact ih _
    · rfl
    · rfl

theorem runCommands_cons {is : List Instr} (hx : exec i s = .next t) : runCommands (i :: is) s = runCommands is t := by
  rw [runCommands, hx]

theorem queueB_eq_nil (h : s.sizeB = 0) : s.queueB = [] := List.eq_nil_of_length_eq_zero ((length_queueB s).trans h)

/-- Legal push calls whose bits fit append them one after the other. -/
theorem runCommands_pushes (pushes : List PushCall) (h : s.Inv) (hs : s.fault = false)
    (hlegal : ∀ p ∈ pushes, p.legal s.cfg) (hfit : (pushes.map (·.bits s.hm)).flatten.length ≤ s.availB) :
    ∃ u, runCommands (pushes.map (·.instr)) s = some u ∧ u.Inv ∧ u.fault = false ∧ u.cfg = s.cfg ∧
      u.queueB = s.queueB ++ (pushes.map (·.bits s.hm)).flatten := by
  induction pushes generalizing s with
  | nil => exact ⟨s, rfl, h, hs, rfl, (List.append_nil _).symm⟩
  | cons p pushes ih =>
    rw [List.map_cons, List.flatten_cons, List.length_append] at hfit
    obtain ⟨hp, hlegal⟩ := List.forall_mem_cons.1 hlegal
    have hroom : (p.bits s.hm).length ≤ s.availB := by omega
    have hx := exec_push (h.ready hs) hp (p.length_bits s.hm ▸ hroom)
    have hqueue : ((s.pushGroups (p.bits s.hm)).respond true 0 0).queueB = _ := queueB_pushGroups h hroom
    have hsize : ((s.pushGroups (p.bits s.hm)).respond true 0 0).sizeB = _ := sizeB_pushGroups h hroom
    obtain ⟨u, hrun, hu⟩ := ih (h.pushGroups _).respondZero (by simpa using hs) (by simpa using hlegal) (by
      rw [State.availB] at hfit ⊢
      rw [hsize, State.respond_hm, State.pushGroups_hm, State.respond_cfg, State.pushGroups_cfg]
      omega)
    rw [hqueue, State.respond_hm, State.pushGroups_hm, State.respond_cfg, State.pushGroups_cfg, List.append_assoc] at hu
    exact ⟨u, (runCommands_cons hx).trans hrun, hu⟩

/-- Two regions of HM share no byte (R65). -/
def regionsApart (A n A' n' : Nat) : Prop := n = 0 ∨ n' = 0 ∨ A + ceilDiv8 n ≤ A' ∨ A' + ceilDiv8 n' ≤ A

/-- A pop of no more than is queued, to a region in range (R196). -/
theorem exec_bqPop_of_queued (h : s.ready) {cnt : BitVec 32} {addr : Nat} (hn : cnt.toNat ≤ s.sizeB)
    (hr : hmInRange s.cfg addr cnt.toNat = true) : exec (.bqPop cnt addr) s =
      .next (((s.copyOut 0 cnt.toNat addr).evict cnt.toNat).respond true 0 cnt.toNat) := by
  have hpop := exec_bqPop_of_hmInRange (cnt := cnt) (addr := addr) h
  rw [Nat.min_eq_left hn] at hpop
  exact hpop hr

/-- A region apart from the one popped to keeps its bits. -/
theorem hmReadBits_pop (h : s.Inv) {k A A' n : Nat} (hapart : regionsApart A' n A k) :
    hmReadBits A' n ((s.copyOut 0 k A).evict k).hm = hmReadBits A' n s.hm := by
  rw [State.evict_hm, State.copyOut_hm, hmReadBits_hmWriteBits_disjoint]
  rwa [length_bitRead_posB h.indexesLegal]

/-- Pops of all that is queued, to regions apart from each other, leave it in their regions, in order, and every other region as it
was. -/
theorem runCommands_pops (pops : List (BitVec 32 × Nat)) (h : s.Inv) (hs : s.fault = false)
    (hsum : (pops.map (·.1.toNat)).sum = s.sizeB) (hrange : ∀ r ∈ pops, hmInRange s.cfg r.2 r.1.toNat = true)
    (hapart : pops.Pairwise fun a b => regionsApart a.2 a.1.toNat b.2 b.1.toNat) :
    ∃ t, runCommands (pops.map fun r => .bqPop r.1 r.2) s = some t ∧ t.fault = false ∧ t.sizeB = 0 ∧
      (pops.map fun r => hmReadBits r.2 r.1.toNat t.hm).flatten = s.queueB ∧
      ∀ A n, (∀ r ∈ pops, regionsApart A n r.2 r.1.toNat) → hmReadBits A n t.hm = hmReadBits A n s.hm := by
  induction pops generalizing s with
  | nil => exact ⟨s, rfl, hs, hsum.symm, (queueB_eq_nil hsum.symm).symm, fun _ _ _ => rfl⟩
  | cons r pops ih =>
    obtain ⟨cnt, addr⟩ := r
    have hsum : cnt.toNat + (pops.map (·.1.toNat)).sum = s.sizeB := hsum
    obtain ⟨hr, hrange⟩ := List.forall_mem_cons.1 hrange
    obtain ⟨hfirst, hapart⟩ := List.pairwise_cons.1 hapart
    have hn : cnt.toNat ≤ s.sizeB := by omega
    have hx := exec_bqPop_of_queued (h.ready hs) hn hr
    have hinv := (h.copyOut (off := 0) hr).evict cnt.toNat
    have hqueue := queueB_copyOut_evict h hn hr
    have hsize : ((s.copyOut 0 cnt.toNat addr).evict cnt.toNat).sizeB = s.sizeB - cnt.toNat := sizeB_evict (h.copyOut hr) hn
    have hleft : (pops.map (·.1.toNat)).sum = ((s.copyOut 0 cnt.toNat addr).evict cnt.toNat).sizeB := by omega
    obtain ⟨t, hrun, hfault, hzero, hpopped, hother⟩ :=
      ih (hinv.respondCount (ok := true) cnt.isLt) (by simpa using hs) hleft (by simpa using hrange) hapart
    refine ⟨t, (runCommands_cons hx).trans hrun, hfault, hzero, ?_, fun A n hA => ?_⟩
    · rw [List.map_cons, List.flatten_cons, hpopped, hother addr cnt.toNat hfirst]
      exact hqueue.symm
    · obtain ⟨hA, hrest⟩ := List.forall_mem_cons.1 hA
      exact (hother A n hrest).trans (hmReadBits_pop h hA)

/-- Settles O50: the pushes append all the bits to an empty queue, and the pops take all that is then queued. -/
theorem chunkingIndependence : Obligations.ChunkingIndependence := by
  intro s pushes pops h hs hempty hlegal hfit hsum hrange hapart
  obtain ⟨u, hpush, hu, hfault, hcfg, hqueue⟩ := runCommands_pushes pushes h hs hlegal (by rwa [State.availB, hempty])
  rw [queueB_eq_nil hempty, List.nil_append] at hqueue
  rw [← hqueue, length_queueB] at hsum
  obtain ⟨t, hpop, ht, hzero, hpopped, -⟩ := runCommands_pops pops hu hfault hsum
    (fun r hr => hmInRange_iff.2 (hcfg ▸ hrange r hr)) hapart
  refine ⟨t, ?_, ht, hzero, hpopped.trans hqueue⟩
  rw [runCommands_append, hpush, Option.bind_some, hpop]

/-! ## The FIFO laws (R200 (a) to (e), (g)) -/

/-- A command has one next state. -/
theorem exec_unique (ht : exec i s = .next t) (hu : exec i s = .next u) : t = u :=
  Host.Outcome.next.inj (ht.symm.trans hu)

/-- A command that raises no cause does not meet the cause's condition (R291). -/
theorem not_of_no_fault {c : Prop} [Decidable c] {x : Cause} (h : (if c then some x else none) = none) : ¬ c := fun hc => by
  simp [hc] at h

/-- A push command that neither fails nor faults is a legal push call with room (R290, R291). -/
theorem PushCall.legal_of_completes {p : PushCall} (hfault : s.faultOf p.instr = none) (hfails : s.failsOn p.instr = false) :
    p.legal s.cfg ∧ p.cnt.toNat ≤ s.availB := by
  cases p with
  | byte data cnt =>
    have h8 : ¬ 8 < cnt.toNat := not_of_no_fault hfault
    have hfails : ¬ (cnt.toNat ≤ 8 ∧ s.availB < cnt.toNat) := by simpa [PushCall.instr, State.failsOn] using hfails
    exact ⟨Nat.not_lt.1 h8, by rw [PushCall.cnt]; omega⟩
  | source cnt addr =>
    have hroom : ¬ s.availB < cnt.toNat := of_decide_eq_false hfails
    have hrange := not_of_no_fault hfault
    exact ⟨hmInRange_iff.2 (by omega), Nat.not_lt.1 hroom⟩

/-- A forced push command that does not fault is a legal one (R291). -/
theorem PushCall.legal_of_forced_completes {p : PushCall} (hfault : s.faultOf p.forced = none) : p.legal s.cfg := by
  cases p with
  | byte data cnt =>
    have h8 : ¬ 8 < cnt.toNat := not_of_no_fault hfault
    exact Nat.not_lt.1 h8
  | source cnt addr =>
    have hrange := not_of_no_fault hfault
    exact hmInRange_iff.2 (by omega)

/-- The law of the commands that move bits: the content after them, and the answer of how many left (R200). -/
def movesBy (i : Instr) (s t : State) : Prop := t.queueB = s.contentAfterB i ∧ answered s t true 0 (s.evictedBits i)

theorem contentAfterB_instr (s : State) (p : PushCall) : s.contentAfterB p.instr = s.queueB ++ p.bits s.hm := by
  cases p <;> rfl

theorem contentAfterB_forced (s : State) (p : PushCall) : s.contentAfterB p.forced =
    (s.queueB ++ p.bits s.hm).drop (s.sizeB + p.cnt.toNat - min s.cfg.cB (s.sizeB + p.cnt.toNat)) := by
  cases p <;> rfl

theorem exec_push_movesBy (h : s.Inv) (hs : s.fault = false) (p : PushCall) (hfault : s.faultOf p.instr = none)
    (hfails : s.failsOn p.instr = false) : ∃ t, exec p.instr s = .next t ∧ movesBy p.instr s t := by
  obtain ⟨hp, hroom⟩ := PushCall.legal_of_completes hfault hfails
  refine ⟨_, exec_push (h.ready hs) hp hroom, ?_, ?_⟩
  · rw [contentAfterB_instr]
    exact queueB_pushGroups h (p.length_bits s.hm ▸ hroom)
  · rw [evictedBits_instr]
    exact congrArg (· ++ _) (s.pushGroups_responses _)

theorem exec_forced_movesBy (h : s.Inv) (hs : s.fault = false) (p : PushCall) (hfault : s.faultOf p.forced = none) :
    ∃ t, exec p.forced s = .next t ∧ movesBy p.forced s t := by
  obtain ⟨-, -, hanswer⟩ := forcePush_frame s (p.bits s.hm)
  refine ⟨_, exec_forced (h.ready hs) (PushCall.legal_of_forced_completes hfault), ?_, evictedBits_forced s p ▸ hanswer⟩
  rw [contentAfterB_forced, queueB_forcePush h, p.length_bits]
  congr 1
  omega

theorem exec_bqDrop_movesBy (h : s.Inv) (hs : s.fault = false) (cnt : BitVec 32) :
    ∃ t, exec (.bqDrop cnt) s = .next t ∧ movesBy (.bqDrop cnt) s t :=
  ⟨_, exec_bqDrop cnt (h.ready hs), queueB_evict h (Nat.min_le_right ..), congrArg (· ++ _) (s.evict_responses _)⟩

theorem hmInRange_of_pop_completes {cnt : BitVec 32} {addr : Nat} (hfault : s.faultOf (.bqPop cnt addr) = none) :
    hmInRange s.cfg addr (min cnt.toNat s.sizeB) = true := by
  have hrange := not_of_no_fault hfault
  exact hmInRange_iff.2 (by omega)

theorem exec_bqPop_movesBy (h : s.Inv) (hs : s.fault = false) {cnt : BitVec 32} {addr : Nat}
    (hfault : s.faultOf (.bqPop cnt addr) = none) :
    ∃ t, exec (.bqPop cnt addr) s = .next t ∧ movesBy (.bqPop cnt addr) s t := by
  have hr := hmInRange_of_pop_completes hfault
  exact ⟨_, exec_bqPop_of_hmInRange (h.ready hs) hr, queueB_evict (h.copyOut hr) (Nat.min_le_right ..),
    congrArg (· ++ _) (State.evict_responses ..)⟩

/-- The commands that push, evict or pop. -/
def movesBits (i : Instr) : Prop := (∃ data cnt, i = .bqPush8 data cnt ∨ i = .bqFpush8 data cnt) ∨
  (∃ cnt addr, i = .bqPushm cnt addr ∨ i = .bqFpushm cnt addr ∨ i = .bqPop cnt addr) ∨ ∃ cnt, i = .bqDrop cnt

theorem exec_movesBy (h : s.Inv) (hs : s.fault = false) (hfault : s.faultOf i = none) (hfails : s.failsOn i = false)
    (hx : exec i s = .next t) (hi : movesBits i) : movesBy i s t := by
  suffices hmoves : ∃ u, exec i s = .next u ∧ movesBy i s u by
    obtain ⟨u, hu, hlaw⟩ := hmoves
    exact exec_unique hx hu ▸ hlaw
  rcases hi with ⟨data, cnt, rfl | rfl⟩ | ⟨cnt, addr, rfl | rfl | rfl⟩ | ⟨cnt, rfl⟩
  · exact exec_push_movesBy h hs (.byte data cnt) hfault hfails
  · exact exec_forced_movesBy h hs (.byte data cnt) hfault
  · exact exec_push_movesBy h hs (.source cnt addr) hfault hfails
  · exact exec_forced_movesBy h hs (.source cnt addr) hfault
  · exact exec_bqPop_movesBy h hs hfault
  · exact exec_bqDrop_movesBy h hs cnt

/-- A GET that completes copies the queued bits it reads (R200 (e)). -/
theorem exec_bqGet_completes (h : s.Inv) (hs : s.fault = false) {idx cnt : BitVec 32} {addr : Nat}
    (hfault : s.faultOf (.bqGet idx cnt addr) = none) (hfails : s.failsOn (.bqGet idx cnt addr) = false)
    (hx : exec (.bqGet idx cnt addr) s = .next t) :
    t.cfg = s.cfg ∧ answered s t true 0 cnt.toNat ∧ t.headB = s.headB ∧ t.tailB = s.tailB ∧ t.bqm = s.bqm ∧
      hmReadBits addr cnt.toNat t.hm = (s.queueB.drop idx.toNat).take cnt.toNat := by
  have hqueued : ¬ s.sizeB < idx.toNat + cnt.toNat := of_decide_eq_false hfails
  have hrange := not_of_no_fault hfault
  rw [ceilDiv8] at hrange
  obtain ⟨-, -, hget⟩ := bqGetCopiesQueuedBits s idx cnt addr h hs
  obtain ⟨u, hu, hanswer, ⟨⟨hcfg, -⟩, -⟩, hhead, htail, hbqm, hbits, -⟩ := hget (Nat.not_lt.1 hqueued) (by omega)
  obtain rfl := exec_unique hx hu
  exact ⟨hcfg, hanswer, hhead, htail, hbqm, hbits⟩

/-- Every command that neither fails nor faults follows the law of its content (R200). -/
theorem queueB_exec (h : s.Inv) (hs : s.fault = false) (hfault : s.faultOf i = none) (hfails : s.failsOn i = false)
    (hx : exec i s = .next t) : t.queueB = s.contentAfterB i := by
  have hmoves : movesBits i → t.queueB = s.contentAfterB i := fun hi => by
    obtain ⟨hqueue, -⟩ := exec_movesBy h hs hfault hfails hx hi
    exact hqueue
  have hquery : ∀ {ok n}, exec i s = .next (s.respond ok 0 n) → t.queueB = s.queueB := fun hu => by
    obtain rfl := exec_unique hx hu
    exact queueB_congr rfl rfl rfl rfl
  have hready := h.ready hs
  cases i with
  | bqPush8 => exact hmoves (.inl ⟨_, _, .inl rfl⟩)
  | bqFpush8 => exact hmoves (.inl ⟨_, _, .inr rfl⟩)
  | bqPushm => exact hmoves (.inr (.inl ⟨_, _, .inl rfl⟩))
  | bqFpushm => exact hmoves (.inr (.inl ⟨_, _, .inr (.inl rfl)⟩))
  | bqPop => exact hmoves (.inr (.inl ⟨_, _, .inr (.inr rfl)⟩))
  | bqDrop => exact hmoves (.inr (.inr ⟨_, rfl⟩))
  | bqGet idx cnt addr =>
    obtain ⟨hcfg, -, hhead, htail, hbqm, -⟩ := exec_bqGet_completes h hs hfault hfails hx
    exact queueB_congr hcfg hhead htail hbqm
  | bqClear =>
    obtain rfl := exec_unique hx (exec_bqClear hready)
    exact queueB_clear s
  | bqCap => exact hquery (exec_bqCap hready)
  | bqSize => exact hquery (exec_bqSize hready)
  | bqAvail => exact hquery (exec_bqAvail hready)
  | bqEmpty => exact hquery (exec_bqEmpty hready)
  | bqFull => exact hquery (exec_bqFull hready)
  | eqPush | eqPop | eqPopa | eqPeek | eqClear | eqRemove | eqGet | eqSet | eqFront | eqBack | eqFind | eqCap | eqSize
  | eqAvail | eqEmpty | eqFull =>
    obtain ⟨hcfg, hhead, htail, hbqm⟩ := exec_queueB_registers h (by simp [Instr.opcode]) hx
    exact queueB_congr hcfg hhead htail hbqm

/-- Settles O53: the content by `queueB_exec`, the answers by the law of each command. -/
theorem bitQueueFollowsItsFifoLaws : Obligations.BitQueueFollowsItsFifoLaws := by
  intro s i h hs hfault hfails
  obtain ⟨t, hx, -⟩ := h.exec_next i
  refine ⟨t, hx, queueB_exec h hs hfault hfails hx, h.exec hx, fun hi => ?_, fun cnt addr hi => ?_, fun idx cnt addr hi => ?_⟩
  · obtain ⟨-, hanswer⟩ := exec_movesBy h hs hfault hfails hx hi
    exact hanswer
  · subst hi
    have hr := hmInRange_of_pop_completes hfault
    obtain rfl := exec_unique hx (exec_bqPop_of_hmInRange (h.ready hs) hr)
    exact queueB_copyOut_evict h (Nat.min_le_right ..) hr
  · subst hi
    obtain ⟨-, hget⟩ := exec_bqGet_completes h hs hfault hfails hx
    exact hget

end Sys2Proof.Machine

/-! PROOFS. The family of spec/42_status_queries.md: what each status query answers (R261 to R270), and the laws that join the answers
of one state (R271).

A query's answer is its equation of `exec_eqCap` to `exec_bqFull`; the formulas of section 3 are those of `size_E` and `size_B`. -/

namespace Sys2Proof.Machine

variable {s : State}

/-! ## The sizes by the formulas of section 3, and the two tests of the Bit Queue -/

theorem sizeE_formula (s : State) : s.sizeE = (s.tailE + s.cfg.cE + 1 - s.headE) % (s.cfg.cE + 1) := rfl

theorem sizeB_formula (s : State) : s.sizeB = (s.tailB + s.cfg.cB + 1 - s.headB) % (s.cfg.cB + 1) := rfl

theorem emptyB_iff : s.emptyB = true ↔ s.headB = s.tailB := beq_iff_eq

theorem fullB_iff : s.fullB = true ↔ s.sizeB = s.cfg.cB := beq_iff_eq

/-! ## A cleared unit -/

/-- A block that performs commands still does so after its Element Queue is cleared. -/
theorem State.ready.eqClear (h : s.ready) : (((s.setHeadE 0).setTailE 0).respond true 0 0).ready := by
  obtain ⟨hlegal, hfault, hindexes⟩ := h
  obtain ⟨-, -, hheadB, htailB⟩ := indexesLegal_iff.1 hindexes
  exact ⟨hlegal, hfault, indexesLegal_iff.2 ⟨Nat.succ_pos _, Nat.succ_pos _, hheadB, htailB⟩⟩

/-- A block that performs commands still does so after its Bit Queue is cleared. -/
theorem State.ready.bqClear (h : s.ready) : (((s.setHeadB 0).setTailB 0).respond true 0 0).ready := by
  obtain ⟨hlegal, hfault, hindexes⟩ := h
  obtain ⟨hheadE, htailE, -, -⟩ := indexesLegal_iff.1 hindexes
  exact ⟨hlegal, hfault, indexesLegal_iff.2 ⟨hheadE, htailE, Nat.succ_pos _, Nat.succ_pos _⟩⟩

theorem sizeE_eqClear (s : State) : (((s.setHeadE 0).setTailE 0).respond true 0 0).sizeE = 0 := ringSize_self (Nat.succ_pos _)

theorem sizeB_bqClear (s : State) : (((s.setHeadB 0).setTailB 0).respond true 0 0).sizeB = 0 := ringSize_self (Nat.succ_pos _)

/-! ## The queries (R261 to R271) -/

/-- Settles O32: each query answers its value of R40, and `size_E` is the formula of section 3. -/
theorem elementQueueQueriesAnswer : Obligations.ElementQueueQueriesAnswer := by
  intro s h
  rw [← sizeE_formula s]
  exact ⟨exec_eqCap h, exec_eqSize h, exec_eqAvail h, exec_eqEmpty h, exec_eqFull h⟩

/-- Settles O33: each query answers its value of R40, and `size_B` is the formula of section 3. -/
theorem bitQueueQueriesAnswer : Obligations.BitQueueQueriesAnswer := by
  intro s h
  rw [← sizeB_formula s]
  exact ⟨exec_bqCap h, exec_bqSize h, exec_bqAvail h, exec_bqEmpty h, exec_bqFull h⟩

/-- Settles O34: a size is at most its capacity and is 0 exactly when head and tail meet, which a CLEAR makes them do. -/
theorem queryLawsHold : Obligations.QueryLawsHold := by
  intro s h
  have hlegal : s.indexesLegal = true := h.2.2
  refine ⟨⟨_, _, _, _, _, exec_eqCap h, exec_eqSize h, exec_eqAvail h, exec_eqEmpty h, exec_eqFull h, ?_, fullE_iff, ?_⟩,
    ⟨_, _, _, _, _, exec_bqCap h, exec_bqSize h, exec_bqAvail h, exec_bqEmpty h, exec_bqFull h, ?_, fullB_iff, ?_⟩,
    ⟨_, exec_eqClear h, ?_⟩, ⟨_, exec_bqClear h, ?_⟩⟩
  · exact Nat.add_sub_cancel' (sizeE_le s)
  · exact emptyE_iff.trans (sizeE_eq_zero hlegal).symm
  · exact Nat.add_sub_cancel' (sizeB_le s)
  · exact emptyB_iff.trans (sizeB_eq_zero hlegal).symm
  · rw [exec_eqSize h.eqClear, sizeE_eqClear]
  · rw [exec_bqSize h.bqClear, sizeB_bqClear]

end Sys2Proof.Machine

/-! PROOFS. The family of spec/60_exceptions.md: the recoverable failures (R290), the causes (R291, R292), fault entry (R293, R295), the
faulted block (R294) and its only return (R297); and the two steps that raise nothing: a decoded request, and the idle block.

The two tables are joined in one relation, `Ends`: a command of a block that performs commands ends in exactly one of three ways, and
`exec_ends` shows each command's equation to be one of them, branch by branch. -/

namespace Sys2Proof.Machine

variable {s t : State} {i : Instr}

/-! ## The tables of failures and causes (R290, R291) -/

/-- The range check of R65 fails exactly on a region that is not empty and ends past HM. -/
theorem not_hmInRange_iff {c : Config} {A n : Nat} :
    ¬ hmInRange c A n = true ↔ 0 < n ∧ c.hmSize < A + ceilDiv8 n := by
  rw [hmInRange_iff]
  omega

/-- How a command of a block that performs commands ends, by the tables of R290 and R291: it faults, it fails recoverably, or it
completes, with `OK = 1` unless `OK` is its boolean result. -/
inductive Ends (i : Instr) (s : State) : State → Prop
  | faults {c : Cause} (hfault : s.faultOf i = some c) : Ends i s (s.raise c)
  | fails (hfault : s.faultOf i = none) (hfails : s.failsOn i = true) : Ends i s (s.respond false 0 0)
  | completes {t : State} {ok : Bool} {data count : Nat} (hfault : s.faultOf i = none) (hfails : s.failsOn i = false)
      (hsame : sameFault s t) (hanswer : answered s t ok data count) (hok : booleanResult i ∨ ok = true) : Ends i s t

/-- A command that cannot fail or fault, and whose effect does not touch the fault state, completes with its answer. -/
theorem Ends.answers {u : State} {data count : Nat} (hfault : s.faultOf i = none) (hfails : s.failsOn i = false)
    (hsame : sameFault s u) (hresponses : u.responses = s.responses) : Ends i s (u.respond true data count) :=
  .completes hfault hfails hsame (congrArg (· ++ _) hresponses) (.inr rfl)

theorem Ends.forcePush (bits : BitString) (hfault : s.faultOf i = none) (hfails : s.failsOn i = false) :
    Ends i s (s.forcePush bits) := by
  obtain ⟨⟨-, hsame⟩, -, hanswer⟩ := forcePush_frame s bits
  exact .completes hfault hfails hsame hanswer (.inr rfl)

theorem sameFault_evict (s : State) (k : Nat) : sameFault s (s.evict k) := ⟨s.evict_fault k, s.evict_cause k⟩

theorem sameFault_pushGroups (s : State) (bits : BitString) : sameFault s (s.pushGroups bits) :=
  ⟨s.pushGroups_fault bits, s.pushGroups_cause bits⟩

/-- Every command ends as the tables say: the branches of its equation are the rows of the tables. -/
theorem exec_ends (i : Instr) (h : s.ready) : ∃ t, exec i s = .next t ∧ Ends i s t := by
  have ⟨_, _, hlegal⟩ := h
  cases i with
  | eqPush data =>
    exact ⟨_, exec_eqPush data h, iteInduction (fun hfull => .fails rfl hfull) fun hfit =>
      .answers rfl (Bool.eq_false_iff.2 hfit) ⟨rfl, rfl⟩ rfl⟩
  | eqPop =>
    exact ⟨_, exec_eqPop h, iteInduction (fun hempty => .fails rfl hempty) fun hne =>
      .answers rfl (Bool.eq_false_iff.2 hne) ⟨rfl, rfl⟩ rfl⟩
  | eqPeek =>
    exact ⟨_, exec_eqPeek h, iteInduction (fun hempty => .fails rfl hempty) fun hne =>
      .answers rfl (Bool.eq_false_iff.2 hne) ⟨rfl, rfl⟩ rfl⟩
  | eqPopa =>
    have hzero : s.emptyE = true ↔ s.sizeE = 0 := emptyE_iff.trans (sizeE_eq_zero hlegal).symm
    exact ⟨_, exec_eqPopa h, iteInduction (fun hempty => .faults (if_pos (hzero.1 hempty))) fun hne =>
      .answers (if_neg (hzero.not.1 hne)) rfl ⟨rfl, rfl⟩ rfl⟩
  | eqGet idx =>
    exact ⟨_, exec_eqGet idx h, iteInduction (fun hout => .faults (if_pos hout)) fun hin =>
      .answers (if_neg hin) rfl ⟨rfl, rfl⟩ rfl⟩
  | eqSet idx data =>
    exact ⟨_, exec_eqSet idx data h, iteInduction (fun hout => .faults (if_pos hout)) fun hin =>
      .answers (if_neg hin) rfl ⟨rfl, rfl⟩ rfl⟩
  | eqFront =>
    exact ⟨_, exec_eqFront h, iteInduction (fun hempty => .faults (if_pos hempty)) fun hne =>
      .answers (if_neg hne) rfl ⟨rfl, rfl⟩ rfl⟩
  | eqBack =>
    exact ⟨_, exec_eqBack h, iteInduction (fun hempty => .faults (if_pos hempty)) fun hne =>
      .answers (if_neg hne) rfl ⟨rfl, rfl⟩ rfl⟩
  | bqPush8 data cnt =>
    refine ⟨_, exec_bqPush8 data cnt h, iteInduction (fun h8 => .faults (if_pos h8)) fun h8 =>
      iteInduction (fun hfew => .fails (if_neg h8) ?_) fun hroom =>
        .answers (if_neg h8) ?_ (sameFault_pushGroups s _) (s.pushGroups_responses _)⟩
    · simp [State.failsOn, Nat.not_lt.1 h8, hfew]
    · simp [State.failsOn, Nat.not_lt.1 hroom]
  | bqPushm cnt addr =>
    exact ⟨_, exec_bqPushm cnt addr h, iteInduction
      (fun hfew => .fails (if_neg fun hrow => Nat.not_le.2 hfew hrow.1) (decide_eq_true hfew)) fun hroom => iteInduction
        (fun hr => .answers (if_neg fun hrow => not_hmInRange_iff.2 hrow.2 hr) (decide_eq_false hroom)
          (sameFault_pushGroups s _) (s.pushGroups_responses _))
        fun hr => .faults (if_pos ⟨Nat.not_lt.1 hroom, not_hmInRange_iff.1 hr⟩)⟩
  | bqFpush8 data cnt =>
    exact ⟨_, exec_bqFpush8 data cnt h, iteInduction (fun h8 => .faults (if_pos h8)) fun h8 => .forcePush _ (if_neg h8) rfl⟩
  | bqFpushm cnt addr =>
    exact ⟨_, exec_bqFpushm cnt addr h, iteInduction
      (fun hr => .forcePush _ (if_neg fun hrow => not_hmInRange_iff.2 hrow hr) rfl)
      fun hr => .faults (if_pos (not_hmInRange_iff.1 hr))⟩
  | bqDrop cnt => exact ⟨_, exec_bqDrop cnt h, .answers rfl rfl (sameFault_evict s _) (s.evict_responses _)⟩
  | bqPop cnt addr =>
    exact ⟨_, exec_bqPop cnt addr h, iteInduction
      (fun hr => .answers (if_neg fun hrow => not_hmInRange_iff.2 hrow hr) rfl (sameFault_evict (s.copyOut ..) _)
        (State.evict_responses ..))
      fun hr => .faults (if_pos (not_hmInRange_iff.1 hr))⟩
  | bqGet idx cnt addr =>
    exact ⟨_, exec_bqGet idx cnt addr h, iteInduction
      (fun hfew => .fails (if_neg fun hrow => Nat.not_le.2 hfew hrow.1) (decide_eq_true hfew)) fun hqueued => iteInduction
        (fun hr => .answers (if_neg fun hrow => not_hmInRange_iff.2 hrow.2 hr) (decide_eq_false hqueued) ⟨rfl, rfl⟩ rfl)
        fun hr => .faults (if_pos ⟨Nat.not_lt.1 hqueued, not_hmInRange_iff.1 hr⟩)⟩
  | eqFind data => exact ⟨_, exec_eqFind data h, .completes rfl rfl ⟨rfl, rfl⟩ rfl (.inl (.inl ⟨data, rfl⟩))⟩
  | eqEmpty => exact ⟨_, exec_eqEmpty h, .completes rfl rfl ⟨rfl, rfl⟩ rfl (.inl (.inr (.inl rfl)))⟩
  | eqFull => exact ⟨_, exec_eqFull h, .completes rfl rfl ⟨rfl, rfl⟩ rfl (.inl (.inr (.inr (.inl rfl))))⟩
  | bqEmpty => exact ⟨_, exec_bqEmpty h, .completes rfl rfl ⟨rfl, rfl⟩ rfl (.inl (.inr (.inr (.inr (.inl rfl)))))⟩
  | bqFull => exact ⟨_, exec_bqFull h, .completes rfl rfl ⟨rfl, rfl⟩ rfl (.inl (.inr (.inr (.inr (.inr rfl)))))⟩
  | eqClear => exact ⟨_, exec_eqClear h, .answers rfl rfl ⟨rfl, rfl⟩ rfl⟩
  | eqRemove data => exact ⟨_, exec_eqRemove data h, .answers rfl rfl ⟨rfl, rfl⟩ rfl⟩
  | bqClear => exact ⟨_, exec_bqClear h, .answers rfl rfl ⟨rfl, rfl⟩ rfl⟩
  | eqCap => exact ⟨_, exec_eqCap h, .answers rfl rfl ⟨rfl, rfl⟩ rfl⟩
  | eqSize => exact ⟨_, exec_eqSize h, .answers rfl rfl ⟨rfl, rfl⟩ rfl⟩
  | eqAvail => exact ⟨_, exec_eqAvail h, .answers rfl rfl ⟨rfl, rfl⟩ rfl⟩
  | bqCap => exact ⟨_, exec_bqCap h, .answers rfl rfl ⟨rfl, rfl⟩ rfl⟩
  | bqSize => exact ⟨_, exec_bqSize h, .answers rfl rfl ⟨rfl, rfl⟩ rfl⟩
  | bqAvail => exact ⟨_, exec_bqAvail h, .answers rfl rfl ⟨rfl, rfl⟩ rfl⟩

/-- A command that fails recoverably by its table raises no cause: the capacity or availability check comes before the range
check (R292). -/
theorem faultOf_eq_none_of_failsOn (h : s.failsOn i = true) : s.faultOf i = none := by
  cases i with
  | eqPush | eqPop | eqPeek => rfl
  | bqPush8 data cnt =>
    obtain ⟨h8, -⟩ := (Bool.and_eq_true_iff ..).1 h
    exact if_neg (Nat.not_lt.2 (of_decide_eq_true h8))
  | bqPushm | bqGet => exact if_neg fun hrow => Nat.not_le.2 (of_decide_eq_true h) hrow.1
  | _ => cases h

theorem serve_of_decode_error {req : Nat} {e : DecodeError} (h : decode s.cfg req = .error e) : serve req s = rejectOpcode s := by
  rw [serve, h]

/-- Settles O22: the end of the command that the table of causes leaves, and the request that spells no command. -/
theorem commandsFaultExactlyAsTheCauseTableSays : Obligations.CommandsFaultExactlyAsTheCauseTableSays := by
  intro s i h
  obtain ⟨t, hx, hends⟩ := exec_ends i h
  refine ⟨fun c hc => ?_, fun hnone => ⟨t, hx, ?_⟩, fun req e he => ?_, rfl, rfl, rfl, rfl, rfl⟩
  · cases hends with
    | faults hfault =>
      obtain rfl := Option.some.inj (hfault.symm.trans hc)
      exact hx
    | fails hfault | completes hfault => cases hfault.symm.trans hc
  · cases hends with
    | faults hfault => cases hfault.symm.trans hnone
    | fails => exact ⟨rfl, rfl⟩
    | completes _ _ hsame => exact hsame
  · exact (serve_of_decode_error he).trans (perform_ready _ h)

/-- Settles O23: the end of the command that the two tables leave. -/
theorem recoverableFailuresAreExactlyTheTable : Obligations.RecoverableFailuresAreExactlyTheTable := by
  intro s i h
  obtain ⟨t, hx, hends⟩ := exec_ends i h
  refine ⟨fun hfailsOn => ?_, fun hpasses hnone hbool => ⟨t, ?_⟩⟩
  · cases hends with
    | faults hfault => cases hfault.symm.trans (faultOf_eq_none_of_failsOn hfailsOn)
    | fails => exact hx
    | completes _ hfails => cases hfails.symm.trans hfailsOn
  · cases hends with
    | faults hfault => cases hfault.symm.trans hnone
    | fails _ hfails => cases hfails.symm.trans hpasses
    | completes _ _ _ hanswer hok =>
      obtain rfl := hok.resolve_left hbool
      exact ⟨_, _, hx, hanswer⟩

/-! ## Fault entry (R293, R295) -/

/-- A command that leaves an unfaulted block faulted has raised a cause, and done nothing else. -/
theorem exec_eq_raise_of_fault (hs : s.fault = false) (hx : exec i s = .next t) (ht : t.fault = true) :
    ∃ c, t = s.raise c := by
  obtain ⟨-, hfaulted, -⟩ | h := exec_cases hx
  · cases hs.symm.trans hfaulted
  obtain ⟨u, hu, hends⟩ := exec_ends i h
  obtain rfl := exec_unique hx hu
  cases hends with
  | faults => exact ⟨_, rfl⟩
  | fails => cases hs.symm.trans ht
  | completes _ _ hsame => cases hs.symm.trans (hsame.1.symm.trans ht)

/-- Settles O21: a request spells a command, or raises `ILLEGAL_OP`. -/
theorem faultEntryChangesNothingElse : Obligations.FaultEntryChangesNothingElse := by
  rintro s t hs (⟨i, hx⟩ | ⟨req, hx⟩) ht
  · exact exec_eq_raise_of_fault hs hx ht
  · cases hd : decode s.cfg req with
    | ok i => exact exec_eq_raise_of_fault hs (serve_of_decode_ok hd ▸ hx) ht
    | error e =>
      rw [serve_of_decode_error hd] at hx
      obtain ⟨-, hfaulted, -⟩ | ⟨-, rfl⟩ := perform_cases hx
      · cases hs.symm.trans hfaulted
      · exact ⟨.illegalOp, rfl⟩

/-! ## The faulted block (R294, R297) -/

/-- A faulted block answers every request alike, one that spells no command too (R294). -/
theorem serve_faulted (hl : s.cfg.legal = true) (hf : s.fault = true) (req : Nat) : serve req s = .next s.answerFaulted := by
  cases hd : decode s.cfg req with
  | ok i => rw [serve_of_decode_ok hd, exec_faulted i hl hf]
  | error e => exact (serve_of_decode_error hd).trans (perform_faulted _ hl hf)

theorem step_request_faulted (hl : s.cfg.legal = true) (hf : s.fault = true) (hr : s.rst = false) {req : Nat}
    {rest : List HostInput} (hi : s.inputs = .request req :: rest) : step s = .next (s.setInputs rest).answerFaulted :=
  (step_request hl hr hi).trans (serve_faulted (s := s.setInputs rest) hl hf req)

/-- Settles O20: `exec_faulted` for a command, `serve_faulted` for a request. -/
theorem faultedBlockPerformsNothing : Obligations.FaultedBlockPerformsNothing := fun _ hl hf =>
  ⟨fun i => exec_faulted i hl hf, fun _ _ hr hi => step_request_faulted hl hf hr hi⟩

/-- No host action but reset changes a faulted block's registers or stores: it moves the ports, the reset line and HM only. -/
theorem step_faulted (hf : s.fault = true) (hreset : ∀ d rest, s.inputs ≠ .assertReset d :: rest) (hx : step s = .next t) :
    ∃ hm rst inputs responses, t = { s with hm := hm, rst := rst, inputs := inputs, responses := responses } := by
  have hrequest : ∀ {req rest}, s.cfg.legal = true → s.inputs = .request req :: rest → s.rst = false →
      t = (s.setInputs rest).answerFaulted := fun hl hi hr =>
    Host.Outcome.next.inj (hx.symm.trans (step_request_faulted hl hf hr hi))
  obtain ⟨hl, ⟨-, rfl⟩ | ⟨_, _, -, -, rfl⟩ | ⟨_, _, _, hi, hr, -⟩ | ⟨_, _, _, hi, hr, -⟩ | ⟨d, rest, hi, -⟩ | ⟨_, -, rfl⟩ |
    ⟨_, _, _, -, -, rfl⟩⟩ := step_cases hx
  · exact ⟨_, _, _, _, rfl⟩
  · exact ⟨_, _, _, _, rfl⟩
  · obtain rfl := hrequest hl hi hr
    exact ⟨_, _, _, _, rfl⟩
  · obtain rfl := hrequest hl hi hr
    exact ⟨_, _, _, _, rfl⟩
  · exact absurd hi (hreset d rest)
  · exact ⟨_, _, _, _, rfl⟩
  · exact ⟨_, _, _, _, rfl⟩

theorem sizeE_applyReset (s : State) (d : ResetDraw) : (s.applyReset d).sizeE = 0 := ringSize_self (Nat.succ_pos _)

theorem sizeB_applyReset (s : State) (d : ResetDraw) : (s.applyReset d).sizeB = 0 := ringSize_self (Nat.succ_pos _)

/-- Settles O19: every other action by `step_faulted`; reset clears the fault state and sets both units' registers to 0. -/
theorem onlyResetLeavesTheFaultedState : Obligations.OnlyResetLeavesTheFaultedState := by
  intro s t hf hx
  refine ⟨fun hreset => ?_, fun d rest hi => ?_⟩
  · obtain ⟨_, _, _, _, rfl⟩ := step_faulted hf hreset hx
    exact ⟨hf, rfl, rfl, rfl, rfl, rfl, rfl, rfl⟩
  · obtain ⟨hl, -⟩ := step_cases hx
    have hs : { s with inputs := .assertReset d :: rest } = s := by rw [← hi]
    obtain rfl := Host.Outcome.next.inj (hx.symm.trans ((congrArg step hs).symm.trans (step_assertReset hl d rest)))
    exact ⟨rfl, rfl, sizeE_applyReset _ d, sizeB_applyReset _ d⟩

/-! ## A decoded request, and the idle block (R292, R306, R330) -/

/-- Settles O11: the request is served in the state without it, and the command it spells is performed there. -/
theorem stepRunsTheDecodedCommand : Obligations.StepRunsTheDecodedCommand := fun s _ rest _ hl hr hi hd =>
  (step_request hl hr hi).trans (serve_of_decode_ok (s := s.setInputs rest) hd)

/-- Settles O12: with no action to take, `stepInput` answers the state itself. -/
theorem idleBlockHoldsItsState : Obligations.IdleBlockHoldsItsState := by
  intro s hl hi
  rw [step, stepInput, if_pos hl, hi]

end Sys2Proof.Machine

/-! PROOFS. The family of spec/70_reset_and_hazards.md: reset abandons the command in progress (R320), requests while reset is asserted
(R321), and every step answers but for a host write outside HM (R332). A step takes the oldest host action (`step_cons`), and
`takeInput` says what each action does. -/

namespace Sys2Proof.Machine

variable {s : State}

/-- A step takes the oldest host action, in the state without it. -/
theorem step_cons (hl : s.cfg.legal = true) {x : HostInput} {rest : List HostInput} (hi : s.inputs = x :: rest) :
    step s = takeInput x (s.setInputs rest) := by
  rw [step, stepInput, if_pos hl, hi]

/-! ## Every step answers (R332) -/

/-- In a block that meets the invariant every request is answered: by the faulted block, by the command it spells, or by the
fault `ILLEGAL_OP`. -/
theorem State.Inv.serve_answers (h : s.Inv) (req : Nat) : ∃ t, serve req s = .next t := by
  cases hf : s.fault with
  | true => exact ⟨_, serve_faulted h.cfgLegal hf req⟩
  | false =>
    cases hd : decode s.cfg req with
    | ok i =>
      obtain ⟨t, ht, -⟩ := h.exec_next i
      exact ⟨t, (serve_of_decode_ok hd).trans ht⟩
    | error e => exact ⟨_, (serve_of_decode_error hd).trans (perform_ready _ (h.ready hf))⟩

/-- Settles O10: the host's actions one by one; a request that is served answers by `State.Inv.serve_answers`. -/
theorem everyStepAnswersButForStrayHostWrites : Obligations.EveryStepAnswersButForStrayHostWrites := by
  intro s h hstray
  cases hi : s.inputs with
  | nil => exact ⟨s, idleBlockHoldsItsState s h.cfgLegal hi⟩
  | cons x rest =>
    cases x with
    | request req =>
      cases hr : s.rst with
      | true => exact ⟨_, (step_cons h.cfgLegal hi).trans (if_pos hr)⟩
      | false =>
        obtain ⟨t, ht⟩ := (h.setInputs rest).serve_answers req
        exact ⟨t, (step_request h.cfgLegal hr hi).trans ht⟩
    | assertReset | releaseReset => exact ⟨_, step_cons h.cfgLegal hi⟩
    | writeHM addr value => exact ⟨_, (step_writeHM h.cfgLegal hi).trans (if_pos (hstray addr value rest hi))⟩

/-! ## Reset and the command in progress (R320) -/

/-- Reset leaves every byte of HM alone but those of the abandoned command's region. -/
theorem sameHmOutside_applyReset (s : State) (d : ResetDraw) :
    sameHmOutside (s.abandonedRegion d.abandoned) s (s.applyReset d) := fun a ha =>
  Memory.read_overlay_other fun c hc hca => by
    obtain ⟨hlo, hhi, -⟩ := mem_drawnBytes hc
    omega

/-- A command in progress is abandoned with its own region (assumption 23). -/
theorem abandonedRegion_of_decode {req : Nat} {i : Instr} (hbusy : ¬ (s.fault = true ∨ s.rst = true))
    (hd : decode s.cfg req = .ok i) : s.abandonedRegion (some req) = s.hmRegion i := by
  rw [State.abandonedRegion, if_neg (mt (Bool.or_eq_true_iff ..).1 hbusy), hd]

/-- With no command in progress reset abandons none, and its region is empty (assumption 23). -/
theorem abandonedRegion_of_idle {abandoned : Option Nat} (h : abandoned = none ∨ s.fault = true ∨ s.rst = true) :
    s.abandonedRegion abandoned = (0, 0) := by
  cases abandoned with
  | none => rfl
  | some req => exact if_pos ((Bool.or_eq_true_iff ..).2 (h.resolve_left (Option.some_ne_none req)))

/-- Settles O17: the registers by `State.applyReset`; HM outside the region by `sameHmOutside_applyReset`, the region being the
abandoned command's or, with no command in progress, empty. -/
theorem resetAbandonsTheCommandInProgress : Obligations.ResetAbandonsTheCommandInProgress := by
  intro s d rest hl hi
  have hhm := sameHmOutside_applyReset (s.setInputs rest) d
  have hidle (h : d.abandoned = none ∨ s.fault = true ∨ s.rst = true) (a : Nat) :
      byteAt ((s.setInputs rest).applyReset d).hm a = byteAt s.hm a := by
    rw [abandonedRegion_of_idle (s := s.setInputs rest) h] at hhm
    exact hhm a (.inr (Nat.zero_le a))
  refine ⟨_, step_cons hl hi, rfl, rfl, rfl, rfl, rfl, rfl, sizeE_applyReset _ d, sizeB_applyReset _ d, rfl, rfl, rfl, hidle, ?_⟩
  intro req i hreq hd a ha
  by_cases hbusy : s.fault = true ∨ s.rst = true
  · exact hidle (.inr hbusy) a
  · rw [hreq, abandonedRegion_of_decode (s := s.setInputs rest) hbusy hd] at hhm
    exact hhm a ha

/-! ## Requests while reset is asserted, and after it (R321) -/

/-- Settles O18: each clause is the action taken; after the reset of R320 and its release the next request is served. -/
theorem requestsDuringResetAreIgnored : Obligations.RequestsDuringResetAreIgnored := by
  intro s rest hl
  refine ⟨fun req hr hi => (step_cons hl hi).trans (if_pos hr), fun hi => step_cons hl hi, fun d req hi => ?_⟩
  obtain ⟨t, ht, -, -, -, -, hfault, -, -, -, hcfg, -, hinputs, -⟩ := resetAbandonsTheCommandInProgress s d _ hl hi
  have hlt : t.cfg.legal = true := hcfg ▸ hl
  exact ⟨t, _, ht, step_cons hlt hinputs, rfl, hfault, rfl,
    step_request (s := (t.setInputs (.request req :: rest)).setRst false) hlt rfl rfl⟩

end Sys2Proof.Machine
